-- ==== Sys2Proof/Word.lean ====
section
/-! DEFINITION. The word types of the machine and the operand widths (00_scope.md R9, 20_memory.md R57). -/

namespace Sys2Proof

/-- A byte of memory or of an instruction. -/
abbrev Byte := BitVec 8

/-- A general register, the instruction pointer, an address while it is computed (10_state.md R20, R27). -/
abbrev Word := BitVec 64

/-- The operand widths of the exchange: r/m8, r/m16, r/m32, r/m64 (20_memory.md R57). -/
inductive Width where
  | w8
  | w16
  | w32
  | w64
  deriving DecidableEq, Repr

end Sys2Proof
end

