-- ==== Sys2Proof/Machine/Bits.lean ====
section
/-! DEFINITION. Bit fields, widths and byte order: the helpers the decoder and the operations share (00_scope.md R9,
20_memory.md R52). -/

namespace Sys2Proof

/-- The width in bytes, `n = w / 8` of 41_xchg.md R149. -/
def Width.bytes : Width → Nat
  | .w8 => 1
  | .w16 => 2
  | .w32 => 4
  | .w64 => 8

/-- The value of width `w` in the low bits of `v`, the other bits 0. -/
def Width.trunc (w : Width) (v : Word) : Word :=
  match w with
  | .w8 => (v.setWidth 8).setWidth 64
  | .w16 => (v.setWidth 16).setWidth 64
  | .w32 => (v.setWidth 32).setWidth 64
  | .w64 => v

/-- `zext_64(v[31:0])`: the value of a 32-bit address or register in a word. -/
def low32 (v : Word) : Word := (v.setWidth 32).setWidth 64

/-- Bits 7:6 of a ModRM or SIB byte (`mod`, `scale`; 30_encoding.md R92, R95). -/
def topField (b : Byte) : Fin 4 := ⟨b.toNat / 64 % 4, Nat.mod_lt _ (by decide)⟩

/-- Bits 5:3 of a ModRM or SIB byte (`reg`, `index`). -/
def midField (b : Byte) : Fin 8 := ⟨b.toNat / 8 % 8, Nat.mod_lt _ (by decide)⟩

/-- Bits 2:0 of a ModRM, SIB or `90+r` opcode byte (`rm`, `base`, `r`). -/
def lowField (b : Byte) : Fin 8 := ⟨b.toNat % 8, Nat.mod_lt _ (by decide)⟩

/-- The byte with fields 7:6, 5:3 and 2:0. -/
def fieldByte (top : Fin 4) (mid low : Fin 8) : Byte := BitVec.ofNat 8 (top.val * 64 + mid.val * 8 + low.val)

/-- A three-bit register field with its REX bit as a fourth, most significant, bit (30_encoding.md R84). -/
def extend (rexBit : Bool) (f : Fin 8) : Fin 16 := ⟨f.val + 8 * rexBit.toNat, by cases rexBit <;> simp <;> omega⟩

/-- The three bits of a register number that stand in its field. -/
def lowBits (r : Fin 16) : Fin 8 := ⟨r.val % 8, Nat.mod_lt _ (by decide)⟩

/-- The fourth bit of a register number, which stands in a REX bit. -/
def highBit (r : Fin 16) : Bool := decide (8 ≤ r.val)

/-- Two bytes, the first the least significant (20_memory.md R56). -/
def le16 (b0 b1 : Byte) : BitVec 16 := b1 ++ b0

/-- Four bytes, the first the least significant (20_memory.md R56). -/
def le32 (b0 b1 b2 b3 : Byte) : BitVec 32 := b3 ++ b2 ++ b1 ++ b0

/-- Byte `k` of a word: `v[8k+7 : 8k]` (20_memory.md R54). -/
def byteOf (v : Word) (k : Nat) : Byte := (v >>> (8 * k)).setWidth 8

/-- The word whose bits `8k+7 : 8k` are byte `k` of the list (20_memory.md R53). -/
def wordOfBytes : List Byte → Word
  | [] => 0
  | b :: bs => (wordOfBytes bs <<< 8) ||| b.setWidth 64

end Sys2Proof
end

