-- ==== Sys2Proof/Syntax.lean ====
section
/-! DEFINITION. The instructions as terms: operating modes, segment registers, operand forms and the one inductive
`Instr`, a constructor per row of opcode_table.json (30_encoding.md R99). Register numbers are the full four-bit
numbers, REX bits included; beside the operands a term keeps the optional bytes its encoding carries, because the
instruction's length counts them (R81). -/

namespace Sys2Proof

/-- The five operating modes of the exception tables (10_state.md R31). -/
inductive Mode where
  | real
  | protected32
  | v8086
  | compat
  | long64
  deriving DecidableEq, Repr

/-- The six segment registers (10_state.md R30). -/
inductive SegReg where
  | es
  | cs
  | ss
  | ds
  | fs
  | gs
  deriving DecidableEq, Repr

/-- The number of a general register, 0 to 15 (10_state.md R20). -/
abbrev RegNum := Fin 16

/-- Operand sizes, `osz` of 30_encoding.md R85. -/
inductive OpSize where
  | o16
  | o32
  | o64
  deriving DecidableEq, Repr

/-- Address sizes, `asz` of 30_encoding.md R86. -/
inductive AddrSize where
  | a16
  | a32
  | a64
  deriving DecidableEq, Repr

/-- What the decoder must know of the code segment: the mode and CS.D (30_encoding.md R85, R86). -/
structure CodeCtx where
  mode : Mode
  csD : Bool
  deriving DecidableEq, Repr

/-- The optional bytes before the opcode that every form may carry: the operand-size override 66, LOCK F0, and
whether a REX byte is present (30_encoding.md R82, R84). -/
structure Pfx where
  opsz : Bool
  lock : Bool
  rex : Bool
  deriving DecidableEq, Repr

/-- The base sums of 16-bit addressing (30_encoding.md R94), in the order of the `rm` field. -/
inductive Base16 where
  | bxSi
  | bxDi
  | bpSi
  | bpDi
  | si
  | di
  | bp
  | bx
  deriving DecidableEq, Repr

/-- A displacement: absent (mod 00), one byte (mod 01), or `w` bits (mod 10). -/
inductive Disp (w : Nat) where
  | none
  | d8 (v : BitVec 8)
  | full (v : BitVec w)
  deriving DecidableEq, Repr

/-- The addressing forms of 30_encoding.md R94 to R96. -/
inductive Addr where
  /-- R94: a 16-bit base sum and a displacement. -/
  | ind16 (base : Base16) (disp : Disp 16)
  /-- R94: `mod = 00`, `rm = 6`. -/
  | abs16 (disp : BitVec 16)
  /-- R95, R96: a base register other than those that call for a SIB byte, and a displacement. -/
  | ind (base : RegNum) (disp : Disp 32)
  /-- R95: `mod = 00`, `rm = 5` outside 64-bit mode. -/
  | abs32 (disp : BitVec 32)
  /-- R96: `mod = 00`, `rm = 5` in 64-bit mode, relative to the next instruction. -/
  | ripRel (disp : BitVec 32)
  /-- R95, R96: a SIB byte with a base register; `index = none` is the no-index number 4. -/
  | sib (base : RegNum) (index : Option RegNum) (scale : Fin 4) (disp : Disp 32)
  /-- R95, R96: a SIB byte with `mod = 00`, base field 5: no base register. -/
  | sibAbs (index : Option RegNum) (scale : Fin 4) (disp : BitVec 32)
  deriving DecidableEq, Repr

/-- A memory operand: whether the address-size override 67 is present, the segment override if any, the form. -/
structure Mem where
  addr67 : Bool
  seg : Option SegReg
  addr : Addr
  deriving DecidableEq, Repr

/-- The `r/m` operand (30_encoding.md R92). -/
inductive RM where
  | reg (r : RegNum)
  | mem (m : Mem)
  deriving DecidableEq, Repr

/-- The instructions, one constructor per row of opcode_table.json. -/
inductive Instr where
  /-- R120: XBEGIN rel16. -/
  | xbeginRel16 (p : Pfx) (imm : BitVec 16)
  /-- R121: XBEGIN rel32. -/
  | xbeginRel32 (p : Pfx) (imm : BitVec 32)
  /-- R141: XCHG AX, r16. -/
  | xchgAxR16 (p : Pfx) (r : RegNum)
  /-- R142: XCHG EAX, r32. -/
  | xchgEaxR32 (p : Pfx) (r : RegNum)
  /-- R143: XCHG RAX, r64. -/
  | xchgRaxR64 (p : Pfx) (r : RegNum)
  /-- R144: XCHG r/m8, r8 without REX. -/
  | xchgRm8R8 (p : Pfx) (rm : RM) (g : RegNum)
  /-- R145: XCHG r/m8, r8 with REX. -/
  | xchgRm8R8Rex (p : Pfx) (rm : RM) (g : RegNum)
  /-- R146: XCHG r/m16, r16. -/
  | xchgRm16R16 (p : Pfx) (rm : RM) (g : RegNum)
  /-- R147: XCHG r/m32, r32. -/
  | xchgRm32R32 (p : Pfx) (rm : RM) (g : RegNum)
  /-- R148: XCHG r/m64, r64. -/
  | xchgRm64R64 (p : Pfx) (rm : RM) (g : RegNum)
  deriving DecidableEq, Repr

end Sys2Proof
end

