-- ==== Sys2Proof/Config.lean ====
section
/-! DEFINITION. What an implementation fixes, as a type (`Hw`, held in State so that a claim over all states covers
every implementation), and the free values: constants without a body, of which nothing can be computed or proved
(00_scope.md R8, R10 `draw`). -/

namespace Sys2Proof

/-- The constants of the hardware (00_scope.md R8, 10_state.md R42). No step changes them. -/
structure Hw where
  /-- "CPUID.(EAX=7, ECX=0):RTM[bit 11]" (R2, R34). -/
  hasRtm : Bool
  /-- `MAX_RTM_NEST_COUNT`, at least 1 (R37, D5). -/
  maxNest : Nat
  /-- `VA_BITS`, 1 to 64 (R12, D7). -/
  vaBits : Nat
  /-- `Rel16Truncates` (R124, D4). -/
  rel16Truncates : Bool
  deriving DecidableEq, Repr

/-- The bounds R8 gives the constants. -/
def Hw.wf (h : Hw) : Bool := decide (1 ≤ h.maxNest) && decide (1 ≤ h.vaBits) && decide (h.vaBits ≤ 64)

/-- What segmentation and paging answer of one memory operand: its linear address, and the facts the exception tables
name without saying how they come about (20_memory.md R60). The canonical check and the alignment check are not among
them, since the spec states those. -/
structure AccessFacts where
  /-- The linear address of the operand's first byte. -/
  linear : Word
  /-- "If a memory operand effective address is outside the ... segment limit." -/
  outsideLimit : Bool
  /-- "If either operand is in a non-writable segment." -/
  nonWritable : Bool
  /-- "If the DS, ES, FS, or GS register contains a NULL segment selector." -/
  nullSelector : Bool
  /-- "If a page fault occurs.", with the fault-code. -/
  pageFault : Option Nat
  deriving DecidableEq, Repr, Inhabited

/-- The `n`-th draw of the abort status (40_xbegin.md R131, D11; log entry 10). -/
opaque Config.freeStatus : Nat → BitVec 32

/-- The `n`-th draw of bits 63:32 of RAX after an abort in 64-bit mode (40_xbegin.md R131, D12; log entry 10). -/
opaque Config.freeRaxHigh : Nat → BitVec 32

/-- Whether the `n`-th boundary inside a transaction is an AbortStep (40_xbegin.md R127, D10; log entry 11). -/
opaque Config.freeAbort : Nat → Bool

/-- Which of the logical processors that can move takes the `n`-th step (70_reset_and_hazards.md R204, D19; log
entry 12). -/
opaque Config.freeMover : Nat → Nat

/-- Which of several applicable exceptions is reported (60_exceptions.md R180, D18; log entry 13). -/
opaque Config.freeException : Nat → Nat

/-- An arbitrary Access function, one for each number: what it answers of a segment, an effective address and a number
of bytes (20_memory.md R60, D21; log entry 14). -/
opaque Config.freeAccess : Nat → SegReg → Word → Nat → AccessFacts

end Sys2Proof
end

