-- ==== Sys2Proof/Machine/Sizes.lean ====
section
/-! DEFINITION. Operand size, address size and instruction length (30_encoding.md R81, R85, R86), shared by the
well-formedness check, the decoder, the encoder and the meanings. -/

namespace Sys2Proof

/-- CS.D as it counts: 0 in real-address and virtual-8086 mode (30_encoding.md R85). -/
def CodeCtx.d (c : CodeCtx) : Bool :=
  match c.mode with
  | .real => false
  | .v8086 => false
  | _ => c.csD

/-- The operand size `osz` from the prefix 66 and REX.W (30_encoding.md R85). -/
def operandSize (c : CodeCtx) (opsz rexW : Bool) : OpSize :=
  match c.mode with
  | .long64 => if rexW then .o64 else if opsz then .o16 else .o32
  | _ => if c.d then (if opsz then .o16 else .o32) else (if opsz then .o32 else .o16)

/-- The address size `asz` from the prefix 67 (30_encoding.md R86). -/
def addressSize (c : CodeCtx) (addr67 : Bool) : AddrSize :=
  match c.mode with
  | .long64 => if addr67 then .a32 else .a64
  | _ => if c.d then (if addr67 then .a16 else .a32) else (if addr67 then .a32 else .a16)

/-- The prefix bytes 66, F0 and REX an instruction carries. -/
def Pfx.len (p : Pfx) : Nat := p.opsz.toNat + p.lock.toNat + p.rex.toNat

/-- The bytes of a displacement of `n` bytes when full. -/
def Disp.len {w : Nat} (n : Nat) : Disp w → Nat
  | .none => 0
  | .d8 _ => 1
  | .full _ => n

/-- The SIB byte and the displacement of an addressing form, `s + d` of 30_encoding.md R81. -/
def Addr.len : Addr → Nat
  | .ind16 _ d => d.len 2
  | .abs16 _ => 2
  | .ind _ d => d.len 4
  | .abs32 _ => 4
  | .ripRel _ => 4
  | .sib _ _ _ d => 1 + d.len 4
  | .sibAbs _ _ _ => 5

/-- The bytes an `r/m` operand adds beside its ModRM byte: the prefixes 67 and segment override, SIB, displacement. -/
def RM.len : RM → Nat
  | .reg _ => 0
  | .mem m => m.addr67.toNat + m.seg.isSome.toNat + m.addr.len

/-- The length of an instruction in bytes, its prefixes included (30_encoding.md R81). -/
def Instr.len : Instr → Nat
  | .xbeginRel16 p _ => p.len + 4
  | .xbeginRel32 p _ => p.len + 6
  | .xchgAxR16 p _ => p.len + 1
  | .xchgEaxR32 p _ => p.len + 1
  | .xchgRaxR64 p _ => p.len + 1
  | .xchgRm8R8 p rm _ => p.len + 2 + rm.len
  | .xchgRm8R8Rex p rm _ => p.len + 2 + rm.len
  | .xchgRm16R16 p rm _ => p.len + 2 + rm.len
  | .xchgRm32R32 p rm _ => p.len + 2 + rm.len
  | .xchgRm64R64 p rm _ => p.len + 2 + rm.len

end Sys2Proof
end

