-- ==== Sys2Proof/WellFormed.lean ====
section
/-! DEFINITION. The terms of `Instr` that some byte sequence encodes, in a given mode and CS.D (30_encoding.md R82 to
R99). `Instr.wf c i` says that `i` is an instruction of a code segment `c`. -/

namespace Sys2Proof

/-- A register number is reached without REX only below 8 (10_state.md R25). -/
def RegNum.reach (rex : Bool) (r : RegNum) : Bool := rex || decide (r.val < 8)

/-- A REX byte exists in 64-bit mode only (30_encoding.md R84). -/
def Pfx.wf (c : CodeCtx) (p : Pfx) : Bool := !p.rex || decide (c.mode = .long64)

/-- The forms of one base register: its low three bits are not 4 (that calls for a SIB byte), and not 5 with no
displacement (30_encoding.md R95, R96). -/
def indBaseOk (b : RegNum) (d : Disp 32) : Bool :=
  decide (b.val % 8 ≠ 4) && (decide (b.val % 8 ≠ 5) || decide (d ≠ .none))

/-- A SIB base with no displacement is not 5 in its low three bits (30_encoding.md R95, R96). -/
def sibBaseOk (b : RegNum) (d : Disp 32) : Bool := decide (b.val % 8 ≠ 5) || decide (d ≠ .none)

/-- An index register is not number 4, which means no index (30_encoding.md R95, R96). -/
def indexOk (rex : Bool) : Option RegNum → Bool
  | none => true
  | some x => decide (x.val ≠ 4) && x.reach rex

/-- The addressing form fits the address size and the mode, and reaches only the registers it may. -/
def Addr.wf (c : CodeCtx) (asz : AddrSize) (rex : Bool) : Addr → Bool
  | .ind16 b d => decide (asz = .a16) && (decide (b ≠ .bp) || decide (d ≠ .none))
  | .abs16 _ => decide (asz = .a16)
  | .ind b d => decide (asz ≠ .a16) && b.reach rex && indBaseOk b d
  | .abs32 _ => decide (asz ≠ .a16) && decide (c.mode ≠ .long64)
  | .ripRel _ => decide (asz ≠ .a16) && decide (c.mode = .long64)
  | .sib b i _ d => decide (asz ≠ .a16) && b.reach rex && indexOk rex i && sibBaseOk b d
  | .sibAbs i _ _ => decide (asz ≠ .a16) && indexOk rex i

/-- The `r/m` operand is encodable in `c`. -/
def RM.wf (c : CodeCtx) (rex : Bool) : RM → Bool
  | .reg r => r.reach rex
  | .mem m => m.addr.wf c (addressSize c m.addr67) rex

/-- The instruction is encodable in the code segment `c`: each row's conditions of opcode_table.json. -/
def Instr.wf (c : CodeCtx) : Instr → Bool
  | .xbeginRel16 p _ => p.wf c && decide (operandSize c p.opsz false = .o16)
  | .xbeginRel32 p _ => p.wf c && decide (operandSize c p.opsz (p.rex && p.opsz) ≠ .o16)
  | .xchgAxR16 p r => p.wf c && r.reach p.rex && decide (operandSize c p.opsz false = .o16)
  | .xchgEaxR32 p r => p.wf c && r.reach p.rex && decide (operandSize c p.opsz false = .o32)
  | .xchgRaxR64 p _ => p.wf c && p.rex
  | .xchgRm8R8 p rm g => !p.rex && !p.opsz && rm.wf c false && g.reach false
  | .xchgRm8R8Rex p rm _ => p.wf c && p.rex && !p.opsz && rm.wf c true
  | .xchgRm16R16 p rm g => p.wf c && rm.wf c p.rex && g.reach p.rex && decide (operandSize c p.opsz false = .o16)
  | .xchgRm32R32 p rm g => p.wf c && rm.wf c p.rex && g.reach p.rex && decide (operandSize c p.opsz false = .o32)
  | .xchgRm64R64 p rm _ => p.wf c && p.rex && rm.wf c true

end Sys2Proof
end

