-- ==== Sys2Proof/Decode.lean ====
section
/-! DEFINITION. The decoder (30_encoding.md R80 to R103), total on any bytes and rejecting by name, and after it the
encoder, written from the same tables. `decode c bytes` reads one instruction of the code segment `c` and gives it
with the bytes that follow it. -/

namespace Sys2Proof

/-- Why a byte sequence is no admitted instruction. -/
inductive Reject where
  /-- The bytes end before the instruction does. -/
  | truncated
  /-- A legacy prefix stands twice (R82). -/
  | repeatedPfx
  /-- Two segment overrides (R82). -/
  | twoSegments
  /-- F2 or F3 before any form (R82). -/
  | repPfx
  /-- A prefix before a form that does not admit it: 66 before opcode 86, 67 or a segment override without a memory
  operand (R82). -/
  | pfxNotAdmitted
  /-- C7 followed by a byte other than F8 (R103). -/
  | notXbegin
  /-- A first opcode byte other than C7, 86, 87, 90 to 97; also a REX byte where REX does not exist or a second one,
  and a legacy prefix after REX (R83, R84, R103). -/
  | opcode (b : Byte)
  deriving DecidableEq, Repr

/-- The legacy prefixes read so far. -/
structure Legacy where
  opsz : Bool
  addr67 : Bool
  lock : Bool
  seg : Option SegReg
  deriving DecidableEq, Repr

/-- No legacy prefix. -/
def Legacy.empty : Legacy := { opsz := false, addr67 := false, lock := false, seg := none }

/-- The bits of a REX prefix (30_encoding.md R84). -/
structure Rex where
  w : Bool
  r : Bool
  x : Bool
  b : Bool
  deriving DecidableEq, Repr

/-- The bits as they count when there is no REX prefix (30_encoding.md R92). -/
def Rex.zero : Rex := { w := false, r := false, x := false, b := false }

/-- The segment a segment-override byte names (30_encoding.md R82). -/
def segOfByte (b : Byte) : Option SegReg :=
  if b = 0x26#8 then some .es
  else if b = 0x2E#8 then some .cs
  else if b = 0x36#8 then some .ss
  else if b = 0x3E#8 then some .ds
  else if b = 0x64#8 then some .fs
  else if b = 0x65#8 then some .gs
  else none

/-- Legacy prefixes: each at most once, in any order, at most one segment override (30_encoding.md R82). -/
def readLegacy (acc : Legacy) : List Byte → Except Reject (Legacy × List Byte)
  | [] => .error .truncated
  | b :: bs =>
    if b = 0x66#8 then
      if acc.opsz then .error .repeatedPfx else readLegacy { acc with opsz := true } bs
    else if b = 0x67#8 then
      if acc.addr67 then .error .repeatedPfx else readLegacy { acc with addr67 := true } bs
    else if b = 0xF0#8 then
      if acc.lock then .error .repeatedPfx else readLegacy { acc with lock := true } bs
    else
      match segOfByte b with
      | some g => if acc.seg.isSome then .error .twoSegments else readLegacy { acc with seg := some g } bs
      | none => .ok (acc, b :: bs)

/-- The REX byte `0100WRXB` (30_encoding.md R84). -/
def rexOfByte (b : Byte) : Rex :=
  { w := b.getLsbD 3, r := b.getLsbD 2, x := b.getLsbD 1, b := b.getLsbD 0 }

/-- One REX byte, in 64-bit mode only (30_encoding.md R84, R100). -/
def readRex (m : Mode) : List Byte → Option Rex × List Byte
  | [] => (none, [])
  | b :: bs => if m = .long64 ∧ b.toNat / 16 = 4 then (some (rexOfByte b), bs) else (none, b :: bs)

/-- One byte. -/
def read8 : List Byte → Except Reject (Byte × List Byte)
  | b :: bs => .ok (b, bs)
  | _ => .error .truncated

/-- Two bytes, little-endian (20_memory.md R56). -/
def read16 : List Byte → Except Reject (BitVec 16 × List Byte)
  | b0 :: b1 :: bs => .ok (le16 b0 b1, bs)
  | _ => .error .truncated

/-- Four bytes, little-endian (20_memory.md R56). -/
def read32 : List Byte → Except Reject (BitVec 32 × List Byte)
  | b0 :: b1 :: b2 :: b3 :: bs => .ok (le32 b0 b1 b2 b3, bs)
  | _ => .error .truncated

/-- The displacement that `mod` calls for (30_encoding.md R94, R95): none, one byte, or the full size. -/
def readDisp {w : Nat} (full : List Byte → Except Reject (BitVec w × List Byte)) (mod : Fin 4) (bs : List Byte) :
    Except Reject (Disp w × List Byte) :=
  match mod with
  | 0 => .ok (.none, bs)
  | 1 =>
    match read8 bs with
    | .ok (v, rest) => .ok (.d8 v, rest)
    | .error e => .error e
  | _ =>
    match full bs with
    | .ok (v, rest) => .ok (.full v, rest)
    | .error e => .error e

/-- The base sum an `rm` field names (30_encoding.md R94). -/
def base16Of (rm : Fin 8) : Base16 :=
  match rm with
  | 0 => .bxSi
  | 1 => .bxDi
  | 2 => .bpSi
  | 3 => .bpDi
  | 4 => .si
  | 5 => .di
  | 6 => .bp
  | 7 => .bx

/-- 16-bit addressing (30_encoding.md R94). -/
def readAddr16 (mod : Fin 4) (rm : Fin 8) (bs : List Byte) : Except Reject (Addr × List Byte) :=
  if mod = 0 ∧ rm = 6 then
    match read16 bs with
    | .ok (v, rest) => .ok (.abs16 v, rest)
    | .error e => .error e
  else
    match readDisp read16 mod bs with
    | .ok (d, rest) => .ok (.ind16 (base16Of rm) d, rest)
    | .error e => .error e

/-- The index a SIB byte names: none exactly when the four-bit number is 4 (30_encoding.md R95, R96). -/
def indexOf (rexX : Bool) (f : Fin 8) : Option RegNum :=
  if extend rexX f = 4 then none else some (extend rexX f)

/-- The SIB byte and its displacement (30_encoding.md R95, R96). -/
def readSib (rex : Rex) (mod : Fin 4) (bs : List Byte) : Except Reject (Addr × List Byte) :=
  match bs with
  | [] => .error .truncated
  | s :: bs =>
    if mod = 0 ∧ lowField s = 5 then
      match read32 bs with
      | .ok (v, rest) => .ok (.sibAbs (indexOf rex.x (midField s)) (topField s) v, rest)
      | .error e => .error e
    else
      match readDisp read32 mod bs with
      | .ok (d, rest) => .ok (.sib (extend rex.b (lowField s)) (indexOf rex.x (midField s)) (topField s) d, rest)
      | .error e => .error e

/-- 32-bit and 64-bit addressing (30_encoding.md R95, R96). -/
def readAddrWide (m : Mode) (rex : Rex) (mod : Fin 4) (rm : Fin 8) (bs : List Byte) :
    Except Reject (Addr × List Byte) :=
  if rm = 4 then readSib rex mod bs
  else if mod = 0 ∧ rm = 5 then
    match read32 bs with
    | .ok (v, rest) => .ok (if m = .long64 then .ripRel v else .abs32 v, rest)
    | .error e => .error e
  else
    match readDisp read32 mod bs with
    | .ok (d, rest) => .ok (.ind (extend rex.b rm) d, rest)
    | .error e => .error e

/-- The ModRM byte and what follows it: the `r/m` operand and the register operand's number (30_encoding.md R92). A
register operand admits neither 67 nor a segment override (R82). -/
def readModRM (c : CodeCtx) (l : Legacy) (rex : Rex) (bs : List Byte) : Except Reject (RM × RegNum × List Byte) :=
  match bs with
  | [] => .error .truncated
  | m :: bs =>
    if topField m = 3 then
      if l.addr67 || l.seg.isSome then .error .pfxNotAdmitted
      else .ok (.reg (extend rex.b (lowField m)), extend rex.r (midField m), bs)
    else
      match (if addressSize c l.addr67 = .a16 then readAddr16 (topField m) (lowField m) bs
             else readAddrWide c.mode rex (topField m) (lowField m) bs) with
      | .ok (a, rest) => .ok (.mem { addr67 := l.addr67, seg := l.seg, addr := a }, extend rex.r (midField m), rest)
      | .error e => .error e

/-- XBEGIN after its first byte C7: F8 and the immediate that the operand size selects (30_encoding.md R87, R88). -/
def readXbegin (osz : OpSize) (l : Legacy) (p : Pfx) (bs : List Byte) : Except Reject (Instr × List Byte) :=
  match bs with
  | [] => .error .truncated
  | b :: bs =>
    if b ≠ 0xF8#8 then .error .notXbegin
    else if l.addr67 || l.seg.isSome then .error .pfxNotAdmitted
    else if osz = .o16 then
      match read16 bs with
      | .ok (v, rest) => .ok (.xbeginRel16 p v, rest)
      | .error e => .error e
    else
      match read32 bs with
      | .ok (v, rest) => .ok (.xbeginRel32 p v, rest)
      | .error e => .error e

/-- XCHG of format O (30_encoding.md R90). -/
def readShort (osz : OpSize) (l : Legacy) (p : Pfx) (r : RegNum) (bs : List Byte) :
    Except Reject (Instr × List Byte) :=
  if l.addr67 || l.seg.isSome then .error .pfxNotAdmitted
  else
    match osz with
    | .o16 => .ok (.xchgAxR16 p r, bs)
    | .o32 => .ok (.xchgEaxR32 p r, bs)
    | .o64 => .ok (.xchgRaxR64 p r, bs)

/-- The form of opcode 86: which byte registers it names depends on the presence of REX (30_encoding.md R93). -/
def formOf86 (p : Pfx) (rm : RM) (g : RegNum) : Instr :=
  if p.rex then .xchgRm8R8Rex p rm g else .xchgRm8R8 p rm g

/-- The form of opcode 87 by operand size (30_encoding.md R93). -/
def formOf87 (osz : OpSize) (p : Pfx) (rm : RM) (g : RegNum) : Instr :=
  match osz with
  | .o16 => .xchgRm16R16 p rm g
  | .o32 => .xchgRm32R32 p rm g
  | .o64 => .xchgRm64R64 p rm g

/-- The opcode map (30_encoding.md R99, R100), after the prefixes. -/
def readOpcode (c : CodeCtx) (l : Legacy) (rex : Option Rex) (bs : List Byte) : Except Reject (Instr × List Byte) :=
  let p : Pfx := { opsz := l.opsz, lock := l.lock, rex := rex.isSome }
  let x := rex.getD Rex.zero
  let osz := operandSize c l.opsz x.w
  match bs with
  | [] => .error .truncated
  | op :: bs =>
    if op = 0xC7#8 then readXbegin osz l p bs
    else if op.toNat / 8 = 18 then readShort osz l p (extend x.b (lowField op)) bs
    else if op = 0x86#8 then
      if l.opsz then .error .pfxNotAdmitted
      else
        match readModRM c l x bs with
        | .ok (rm, g, rest) => .ok (formOf86 p rm g, rest)
        | .error e => .error e
    else if op = 0x87#8 then
      match readModRM c l x bs with
      | .ok (rm, g, rest) => .ok (formOf87 osz p rm g, rest)
      | .error e => .error e
    else if op = 0xF2#8 ∨ op = 0xF3#8 then .error .repPfx
    else .error (.opcode op)

/-- One instruction at the head of `bytes`, in the code segment `c` (30_encoding.md R100): the instruction and the
bytes after it, or why there is none. -/
def decode (c : CodeCtx) (bytes : List Byte) : Except Reject (Instr × List Byte) :=
  match readLegacy Legacy.empty bytes with
  | .error e => .error e
  | .ok (l, bs) => readOpcode c l (readRex c.mode bs).1 (readRex c.mode bs).2

/-! ## The encoder -/

/-- The byte of a segment override (30_encoding.md R82). -/
def segByte : SegReg → Byte
  | .es => 0x26#8
  | .cs => 0x2E#8
  | .ss => 0x36#8
  | .ds => 0x3E#8
  | .fs => 0x64#8
  | .gs => 0x65#8

/-- The legacy prefixes in the encoder's order: 66, 67, F0, segment override. Any order decodes alike (R82). -/
def legacyBytes (l : Legacy) : List Byte :=
  (if l.opsz then [0x66#8] else []) ++ (if l.addr67 then [0x67#8] else []) ++ (if l.lock then [0xF0#8] else []) ++
    (match l.seg with
     | some g => [segByte g]
     | none => [])

/-- The REX byte of its four bits (30_encoding.md R84). -/
def rexByte (x : Rex) : Byte :=
  BitVec.ofNat 8 (64 + 8 * x.w.toNat + 4 * x.r.toNat + 2 * x.x.toNat + x.b.toNat)

/-- The REX byte where the instruction carries one. -/
def rexBytes (present : Bool) (x : Rex) : List Byte := if present then [rexByte x] else []

/-- Two bytes, little-endian. -/
def bytes16 (v : BitVec 16) : List Byte := [v.extractLsb' 0 8, v.extractLsb' 8 8]

/-- Four bytes, little-endian. -/
def bytes32 (v : BitVec 32) : List Byte :=
  [v.extractLsb' 0 8, v.extractLsb' 8 8, v.extractLsb' 16 8, v.extractLsb' 24 8]

/-- The `mod` field of a displacement. -/
def Disp.mod {w : Nat} : Disp w → Fin 4
  | .none => 0
  | .d8 _ => 1
  | .full _ => 2

/-- The bytes of a displacement. -/
def Disp.bytes {w : Nat} (full : BitVec w → List Byte) : Disp w → List Byte
  | .none => []
  | .d8 v => [v]
  | .full v => full v

/-- The `rm` field of a base sum. -/
def Base16.field : Base16 → Fin 8
  | .bxSi => 0
  | .bxDi => 1
  | .bpSi => 2
  | .bpDi => 3
  | .si => 4
  | .di => 5
  | .bp => 6
  | .bx => 7

/-- The `index` field, 4 for no index. -/
def indexField : Option RegNum → Fin 8
  | none => 4
  | some x => lowBits x

/-- The X bit an index needs. -/
def indexHigh : Option RegNum → Bool
  | none => false
  | some x => highBit x

/-- The `mod` and `rm` fields of an `r/m` operand. -/
def RM.fields : RM → Fin 4 × Fin 8
  | .reg r => (3, lowBits r)
  | .mem m =>
    match m.addr with
    | .ind16 b d => (d.mod, b.field)
    | .abs16 _ => (0, 6)
    | .ind b d => (d.mod, lowBits b)
    | .abs32 _ => (0, 5)
    | .ripRel _ => (0, 5)
    | .sib _ _ _ d => (d.mod, 4)
    | .sibAbs _ _ _ => (0, 4)

/-- The SIB byte and displacement of an `r/m` operand. -/
def RM.tail : RM → List Byte
  | .reg _ => []
  | .mem m =>
    match m.addr with
    | .ind16 _ d => d.bytes bytes16
    | .abs16 v => bytes16 v
    | .ind _ d => d.bytes bytes32
    | .abs32 v => bytes32 v
    | .ripRel v => bytes32 v
    | .sib b i s d => fieldByte s (indexField i) (lowBits b) :: d.bytes bytes32
    | .sibAbs i s v => fieldByte s (indexField i) 5 :: bytes32 v

/-- The REX bits an `r/m` operand, a register operand and a width need. -/
def RM.rex (w : Bool) (g : RegNum) : RM → Rex
  | .reg r => { w := w, r := highBit g, x := false, b := highBit r }
  | .mem m =>
    match m.addr with
    | .ind b _ => { w := w, r := highBit g, x := false, b := highBit b }
    | .sib b i _ _ => { w := w, r := highBit g, x := indexHigh i, b := highBit b }
    | .sibAbs i _ _ => { w := w, r := highBit g, x := indexHigh i, b := false }
    | _ => { w := w, r := highBit g, x := false, b := false }

/-- The prefixes of an `r/m` operand beside an instruction's own. -/
def RM.legacy (p : Pfx) : RM → Legacy
  | .reg _ => { opsz := p.opsz, addr67 := false, lock := p.lock, seg := none }
  | .mem m => { opsz := p.opsz, addr67 := m.addr67, lock := p.lock, seg := m.seg }

/-- An instruction of format A (30_encoding.md R87). REX.W is set where a 66 must not select rel16 (R88). -/
def encodeXbegin (p : Pfx) (w : Bool) (imm : List Byte) : List Byte :=
  legacyBytes { opsz := p.opsz, addr67 := false, lock := p.lock, seg := none } ++
    rexBytes p.rex { w := w, r := false, x := false, b := false } ++ [0xC7#8, 0xF8#8] ++ imm

/-- An instruction of format O (30_encoding.md R90). -/
def encodeShort (p : Pfx) (w : Bool) (r : RegNum) : List Byte :=
  legacyBytes { opsz := p.opsz, addr67 := false, lock := p.lock, seg := none } ++
    rexBytes p.rex { w := w, r := false, x := false, b := highBit r } ++ [BitVec.ofNat 8 (0x90 + (lowBits r).val)]

/-- An instruction of formats MR and RM (30_encoding.md R91, R92). -/
def encodeModRM (p : Pfx) (w : Bool) (op : Byte) (rm : RM) (g : RegNum) : List Byte :=
  legacyBytes (rm.legacy p) ++ rexBytes p.rex (rm.rex w g) ++
    [op, fieldByte rm.fields.1 (lowBits g) rm.fields.2] ++ rm.tail

/-- The bytes of a well-formed instruction. -/
def encode : Instr → List Byte
  | .xbeginRel16 p imm => encodeXbegin p false (bytes16 imm)
  | .xbeginRel32 p imm => encodeXbegin p p.opsz (bytes32 imm)
  | .xchgAxR16 p r => encodeShort p false r
  | .xchgEaxR32 p r => encodeShort p false r
  | .xchgRaxR64 p r => encodeShort p true r
  | .xchgRm8R8 p rm g => encodeModRM p false 0x86#8 rm g
  | .xchgRm8R8Rex p rm g => encodeModRM p false 0x86#8 rm g
  | .xchgRm16R16 p rm g => encodeModRM p false 0x87#8 rm g
  | .xchgRm32R32 p rm g => encodeModRM p false 0x87#8 rm g
  | .xchgRm64R64 p rm g => encodeModRM p true 0x87#8 rm g

/-! ## The host's reading of a word -/

/-- `n` bytes of a number, the least significant first. -/
def natBytes (w : Nat) : Nat → List Byte
  | 0 => []
  | n + 1 => BitVec.ofNat 8 w :: natBytes (w / 256) n

/-- The longest run of bytes a fetch looks at (30_encoding.md R81). -/
def maxLen : Nat := 15

/-- The bytes of an instruction whose first `nbits` bits are `w`, zeros above them, up to `maxLen` bytes. -/
def windowOf (nbits w : Nat) : List Byte := natBytes (w % 2 ^ (8 * ((nbits + 7) / 8))) maxLen

/-- The code segment of the launch state `State.reset`: 64-bit mode (log entry 4). -/
def launchCtx : CodeCtx := { mode := .long64, csD := false }

/-- The instruction the decoder reads from a word numbered as the opcode table numbers it, in `launchCtx`. -/
def decodeTableWord (nbits w : Nat) : Option Instr :=
  match decode launchCtx (windowOf nbits w) with
  | .ok (i, _) => some i
  | .error _ => none

end Sys2Proof
end

