-- ==== Sys2Proof/Machine/State.lean ====
section
/-! DEFINITION. The state of the machine (10_state.md R42) as plain data, the reasons a step can stop, and the launch
state the model resets to (10_state.md R44). -/

namespace Sys2Proof.Machine

/-- The exceptions the source names (60_exceptions.md R170). -/
inductive ExcName where
  | ud
  | gp
  | ss
  | pf
  | ac
  deriving DecidableEq, Repr

/-- An exception with its error code as the source writes it: none, 0, or the page fault's code (R170). -/
structure Exc where
  name : ExcName
  code : Option Nat
  deriving DecidableEq, Repr

/-- The fault record (10_state.md R41): the exception and the pc of the raising instruction. -/
structure FaultRecord where
  exc : Exc
  pc : Word
  deriving DecidableEq, Repr

/-- A finite map from addresses to bytes: the launch memory (70_reset_and_hazards.md R201) or a write buffer (10_state.md
R38). Canonical form: addresses strictly rising. An address that is not listed has no value (log entry 9). -/
abbrev Memory := List Host.Cell

/-- A range of addresses. -/
structure Region where
  base : Nat
  size : Nat
  deriving DecidableEq, Repr

/-- CS as the segment of a data access; its limit is `LP.csLimit` (10_state.md R30). -/
structure CodeSegment where
  base : Word
  writable : Bool
  deriving DecidableEq, Repr

/-- SS as the segment of a data access (20_memory.md R60). -/
structure StackSegment where
  base : Word
  limit : BitVec 32
  writable : Bool
  deriving DecidableEq, Repr

/-- DS, ES, FS or GS as the segment of a data access (20_memory.md R60). -/
structure DataSegment where
  base : Word
  limit : BitVec 32
  writable : Bool
  null : Bool
  deriving DecidableEq, Repr

/-- The six segments (10_state.md R30). -/
structure Segments where
  cs : CodeSegment
  ss : StackSegment
  ds : DataSegment
  es : DataSegment
  fs : DataSegment
  gs : DataSegment
  deriving DecidableEq, Repr

/-- Linear addresses an access to which page-faults, and the fault-code (20_memory.md R60). -/
structure PageHole where
  region : Region
  code : Nat
  deriving DecidableEq, Repr

/-- The segment and paging state behind the parameter Access (20_memory.md R60; log entries 5, 14, 15). -/
inductive AccessModel where
  /-- "every segment has base 0 and no limit, there is no paging" (R60). -/
  | flat
  /-- Segment records and page-fault ranges. -/
  | segmented (segs : Segments) (holes : List PageHole)
  /-- The arbitrary function `Config.freeAccess key`. -/
  | arbitrary (key : Nat)
  deriving DecidableEq, Repr

/-- The recorded register state (10_state.md R38). -/
structure Checkpoint where
  x : Vector Word 16
  flags : Nat
  otherRegs : Nat
  deriving DecidableEq, Repr

/-- The state of one logical processor (10_state.md R42). -/
structure LP where
  /-- The general registers `x[0]` to `x[15]` (R20). -/
  x : Vector Word 16
  /-- The instruction pointer (R27). -/
  pc : Word
  /-- The opaque flags value (R29; log entry 3). -/
  flags : Nat
  /-- The opaque value of every register the source does not name (R38, R43; log entry 3). -/
  otherRegs : Nat
  /-- The operating mode (R31). -/
  mode : Mode
  /-- CS.limit (R30). -/
  csLimit : BitVec 32
  /-- CS.D (R30). -/
  csD : Bool
  /-- The current privilege level (R32). -/
  cpl : Fin 4
  /-- "alignment checking is enabled" (R33). -/
  alignCheck : Bool
  /-- The segment and paging state behind Access (20_memory.md R60). -/
  access : AccessModel
  /-- RTM_NEST_COUNT (R36). -/
  nestCount : Nat
  /-- RTM_ACTIVE (R38). -/
  rtmActive : Bool
  /-- The fallback address (R38). -/
  fallback : Word
  /-- The recorded register state (R38). -/
  checkpoint : Checkpoint
  /-- The bytes written while RTM_ACTIVE = 1 (R38). -/
  wbuf : Memory
  /-- The fault record, empty at launch (R41). -/
  fault : Option FaultRecord
  deriving DecidableEq, Repr

end Sys2Proof.Machine

namespace Sys2Proof.Machine

/-- The state of the machine: NumLP logical processors (R42, 60_exceptions.md R189), of which `lp` is the one that
moves, between those `before` and `after` it; the shared memory; what a claim's launch state adds to it
(70_reset_and_hazards.md R201); the constants of the hardware. -/
structure State where
  /-- The constants of the hardware (R42). -/
  hw : Hw
  /-- The logical processors with smaller positions than the one that moves. -/
  before : List LP
  /-- The logical processor that moves. -/
  lp : LP
  /-- The logical processors with greater positions. -/
  after : List LP
  /-- The shared memory (20_memory.md R50). -/
  mem : Memory
  /-- The program text: the addresses the run may fetch (70_reset_and_hazards.md R201). -/
  text : List Region
  /-- EndAddr, where a run ends (70_reset_and_hazards.md R205). -/
  endAddr : Word
  /-- The model's own counter of free values (log entry 10). -/
  draws : Nat
  deriving DecidableEq, Repr

/-- Why the machine stops although no instruction is refused. None of these is an exception of the spec: raising one of
those is a next state that records it (60_exceptions.md R171; log entry 16). -/
inductive Fault where
  /-- `step`: every logical processor has ended (70_reset_and_hazards.md R205). Safe: the spec's run ends here too. -/
  | runEnded
  /-- `step`: no logical processor has an enabled step and the run has not ended, and each that has not ended has a fault
  recorded: the stuck state of 00_scope.md R11. Safe. -/
  | allStopped
  /-- The memory forms of XCHG: a byte of the operand is outside the launch memory, so the instruction step is not
  enabled (20_memory.md R62, R73: "stuck"). Safe. `step` gives this answer only where no logical processor has an enabled
  step and one is stuck so: the others go on, and inside a transaction the AbortStep is enabled (log entry 17). -/
  | outsideMemory
  deriving DecidableEq, Repr

/-- Why the model gives an instruction, or the bytes at the pc, no meaning. -/
inductive Refusal where
  /-- `exec`: an instruction without a meaning yet. Safe. -/
  | notModelled (mnemonic : String)
  /-- `step`: the bytes at the pc are outside the admitted subset (00_scope.md R7, 30_encoding.md R103). Safe. -/
  | notAdmitted (why : Reject)
  /-- `step`: a byte of the instruction cannot be fetched: it is outside the code segment limit, not canonical, beyond
  the top of the address space, or no byte of the program text (10_state.md R28, D20; log entry 18). Safe. -/
  | fetch
  /-- The memory forms of XCHG: the operand overlaps the program text (20_memory.md R72). Safe. -/
  | textOverlap
  deriving DecidableEq, Repr

/-- The outcome of an instruction or a step. -/
abbrev Result := Host.Outcome State Fault Refusal

/-- A logical processor at launch (10_state.md R44). R44 fixes the count, the active bit, the empty write buffer and the
empty fault record; the other values are the model's own (log entries 1 to 6). -/
def LP.reset : LP where
  x := Vector.replicate 16 0
  pc := 0x1000
  flags := 0
  otherRegs := 0
  mode := .long64
  csLimit := 0xFFFFFFFF
  csD := false
  cpl := 3
  alignCheck := false
  access := .flat
  nestCount := 0
  rtmActive := false
  fallback := 0
  checkpoint := { x := Vector.replicate 16 0, flags := 0, otherRegs := 0 }
  wbuf := []
  fault := none

/-- The launch state the model starts from (70_reset_and_hazards.md R200, R201; log entries 1 to 10): one logical
processor, no memory and no program text listed. -/
def State.reset : State where
  hw := { hasRtm := true, maxNest := 3, vaBits := 48, rel16Truncates := false }
  before := []
  lp := LP.reset
  after := []
  mem := []
  text := []
  endAddr := 0
  draws := 0

end Sys2Proof.Machine
end

