-- ==== Sys2Proof/Machine/Ops.lean ====
section
/-! DEFINITION. The operations the instructions share: registers (10_state.md), memory and the write buffer
(20_memory.md), raising an exception (60_exceptions.md), and the abort procedure (40_xbegin.md). -/

namespace Sys2Proof.Machine

/-! ## Registers -/

/-- The code segment as the decoder and the size rules see it. -/
def LP.ctx (lp : LP) : CodeCtx := { mode := lp.mode, csD := lp.csD }

/-- `x[i] <- v` (00_scope.md R10). -/
def LP.setX (lp : LP) (r : RegNum) (v : Word) : LP := { lp with x := lp.x.set r.val v r.isLt }

/-- Whether a byte-register number names bits 15:8: AH, CH, DH, BH (10_state.md R22). -/
def highByteReg (r : RegNum) (rex : Bool) : Bool := !rex && decide (4 ≤ r.val) && decide (r.val ≤ 7)

/-- The register whose bits 15:8 a number 4 to 7 names (10_state.md R22). -/
def highByteHome (r : RegNum) : RegNum := ⟨r.val - 4, by have := r.isLt; omega⟩

/-- `RegRead(w, i, rex)` (10_state.md R23), the value zero-extended to a word. -/
def LP.regRead (lp : LP) (w : Width) (r : RegNum) (rex : Bool) : Word :=
  match w with
  | .w64 => lp.x[r]
  | .w32 => (lp.x[r].extractLsb' 0 32).setWidth 64
  | .w16 => (lp.x[r].extractLsb' 0 16).setWidth 64
  | .w8 =>
    if highByteReg r rex then (lp.x[highByteHome r].extractLsb' 8 8).setWidth 64
    else (lp.x[r].extractLsb' 0 8).setWidth 64

/-- `RegWrite(w, i, rex, v)` (10_state.md R24); `v` is in the low bits of the word. -/
def LP.regWrite (lp : LP) (w : Width) (r : RegNum) (rex : Bool) (v : Word) : LP :=
  match w with
  | .w64 => lp.setX r v
  | .w32 => lp.setX r ((v.extractLsb' 0 32).setWidth 64)
  | .w16 => lp.setX r (lp.x[r].extractLsb' 16 48 ++ v.extractLsb' 0 16)
  | .w8 =>
    if highByteReg r rex then
      lp.setX (highByteHome r)
        (lp.x[highByteHome r].extractLsb' 16 48 ++ v.extractLsb' 0 8 ++ lp.x[highByteHome r].extractLsb' 0 8)
    else lp.setX r (lp.x[r].extractLsb' 8 56 ++ v.extractLsb' 0 8)

/-- `next_pc` of an instruction of `len` bytes (10_state.md R28). -/
def LP.nextPc (lp : LP) (len : Nat) : Word :=
  match lp.mode with
  | .long64 => lp.pc + BitVec.ofNat 64 len
  | _ => low32 (low32 lp.pc + BitVec.ofNat 64 len)

/-- `pc <- target` (00_scope.md R10). -/
def LP.setPc (lp : LP) (target : Word) : LP := { lp with pc := target }

/-- The state with the moving logical processor replaced. -/
def State.withLp (s : State) (lp : LP) : State := { s with lp := lp }

/-- `pc <- next_pc` (10_state.md R28). -/
def State.advance (s : State) (len : Nat) : State := s.withLp (s.lp.setPc (s.lp.nextPc len))

/-- `RegWrite` of the moving logical processor. -/
def State.regWrite (s : State) (w : Width) (r : RegNum) (rex : Bool) (v : Word) : State :=
  s.withLp (s.lp.regWrite w r rex v)

/-! ## Memory -/

/-- The byte at an address; none where the map has no such address. -/
def Memory.read : Memory → Nat → Option Byte
  | [], _ => none
  | (k, v) :: m, a => if a = k then some v else Memory.read m a

/-- The map with the byte at an address set, its canonical form kept. -/
def Memory.write : Memory → Nat → Byte → Memory
  | [], a, b => [(a, b)]
  | (k, v) :: m, a, b =>
    if a < k then (a, b) :: (k, v) :: m
    else if a = k then (a, b) :: m
    else (k, v) :: Memory.write m a b

/-- The canonical form: addresses strictly rising. -/
abbrev Memory.wf (m : Memory) : Prop := List.Pairwise (fun c d : Host.Cell => c.1 < d.1) m

/-- Whether a range holds an address. -/
def Region.has (r : Region) (a : Nat) : Bool := decide (r.base ≤ a) && decide (a < r.base + r.size)

/-- Whether an address is program text (70_reset_and_hazards.md R201). -/
def State.inText (s : State) (a : Nat) : Bool := s.text.any (fun r => r.has a)

/-- The linear address `addr + k`, modulo the width of the mode's linear addresses (20_memory.md R50, R53). -/
def addrAt (m : Mode) (la : Word) (k : Nat) : Nat :=
  match m with
  | .long64 => (la + BitVec.ofNat 64 k).toNat
  | _ => (low32 (la + BitVec.ofNat 64 k)).toNat

/-- A byte as the moving logical processor reads it: inside a transaction its own write buffer comes first
(20_memory.md R66). -/
def State.readByte (s : State) (a : Nat) : Option Byte :=
  if s.lp.rtmActive then
    match s.lp.wbuf.read a with
    | some b => some b
    | none => s.mem.read a
  else s.mem.read a

/-- A byte as the moving logical processor writes it: inside a transaction into its own write buffer, otherwise into
the shared memory (20_memory.md R65). -/
def State.writeByte (s : State) (a : Nat) (b : Byte) : State :=
  if s.lp.rtmActive then { s with lp := { s.lp with wbuf := s.lp.wbuf.write a b } }
  else { s with mem := s.mem.write a b }

/-- `n` bytes from byte `k` of an operand on, lowest address first; none where one has no value. -/
def State.readBytes (s : State) (la : Word) : Nat → Nat → Option (List Byte)
  | _, 0 => some []
  | k, n + 1 =>
    match s.readByte (addrAt s.lp.mode la k), State.readBytes s la (k + 1) n with
    | some b, some bs => some (b :: bs)
    | _, _ => none

/-- `MemRead(addr, n)` (20_memory.md R53), zero-extended to a word; none where a byte is outside the launch memory. -/
def State.memRead (s : State) (la : Word) (n : Nat) : Option Word :=
  match s.readBytes la 0 n with
  | some bs => some (wordOfBytes bs)
  | none => none

/-- Bytes `k` to `k + n - 1` of `v` stored at `la + k` and on. -/
def State.writeBytes (s : State) (la v : Word) : Nat → Nat → State
  | _, 0 => s
  | k, n + 1 => State.writeBytes (s.writeByte (addrAt s.lp.mode la k) (byteOf v k)) la v (k + 1) n

/-- `MemWrite(addr, n, v)` (20_memory.md R54). -/
def State.memWrite (s : State) (la : Word) (n : Nat) (v : Word) : State := s.writeBytes la v 0 n

/-- Whether an operand of `n` bytes at `la` overlaps the program text (20_memory.md R72). -/
def State.overlapsText (s : State) (la : Word) (n : Nat) : Bool :=
  (List.range n).any (fun k => s.inText (addrAt s.lp.mode la k))

/-! ## Canonical addresses and limits -/

/-- `canonical(a)`: bits 63 to `VA_BITS - 1` are all equal (00_scope.md R12). -/
def canonical (vaBits : Nat) (a : Word) : Bool :=
  decide (a.toNat / 2 ^ (vaBits - 1) = 0) || decide (a.toNat / 2 ^ (vaBits - 1) = 2 ^ (65 - vaBits) - 1)

/-- The highest valid offset in the code segment: FFFFH in real-address and virtual-8086 mode, else CS.limit
(00_scope.md R8, 40_xbegin.md R124). -/
def LP.csBound (lp : LP) : Nat :=
  match lp.mode with
  | .real => 0xFFFF
  | .v8086 => 0xFFFF
  | _ => lp.csLimit.toNat

/-! ## Raising an exception -/

/-- `raise #XX(code)`: the exception, its code and the pc of the raising instruction are recorded in the logical
processor's fault field and nothing else changes (60_exceptions.md R171). This is the whole of exception entry in the
spec (R182); there is no return (R183). -/
def State.raise (s : State) (e : Exc) : State := s.withLp { s.lp with fault := some { exc := e, pc := s.lp.pc } }

/-- #UD, without an error code (60_exceptions.md R173). -/
def excUd : Exc := { name := .ud, code := none }

/-- #GP(0). -/
def excGp0 : Exc := { name := .gp, code := some 0 }

/-- One of the applicable exceptions `e :: es` is raised: the only one, or any one (60_exceptions.md R180). -/
def State.raiseOneOf (s : State) (e : Exc) (es : List Exc) : State :=
  match es with
  | [] => s.raise e
  | _ =>
    { s with draws := s.draws + 1 }.raise ((e :: es).getD (Config.freeException s.draws % (es.length + 1)) e)

/-! ## The abort procedure -/

/-- The register state an outermost XBEGIN records (10_state.md R38, 40_xbegin.md R122). -/
def LP.recordRegs (lp : LP) : Checkpoint := { x := lp.x, flags := lp.flags, otherRegs := lp.otherRegs }

/-- EAX with the abort's status, and bits 63:32 of RAX: free in 64-bit mode, kept otherwise (40_xbegin.md R125,
R131). -/
def abortRax (m : Mode) (restored : Word) (draw : Nat) : Word :=
  match m with
  | .long64 => Config.freeRaxHigh draw ++ Config.freeStatus draw
  | _ => restored.extractLsb' 32 32 ++ Config.freeStatus draw

/-- The logical processor after `RtmAbort()` with draw number `draw` (40_xbegin.md R125). -/
def LP.abort (lp : LP) (draw : Nat) : LP :=
  { lp with
    x := lp.checkpoint.x.set 0 (abortRax lp.mode lp.checkpoint.x[0] draw)
    flags := lp.checkpoint.flags
    otherRegs := lp.checkpoint.otherRegs
    wbuf := []
    nestCount := 0
    rtmActive := false
    pc := lp.fallback }

/-- `RtmAbort()`, the source's RTM_ABORT_PROCESSING (40_xbegin.md R125). -/
def State.rtmAbort (s : State) : State := { s with lp := s.lp.abort s.draws, draws := s.draws + 1 }

end Sys2Proof.Machine
end

