-- ==== Sys2Proof/Machine/Flags.lean ====
section
/-! DEFINITION. The flags: one opaque value per logical processor (10_state.md R29). Neither instruction computes,
reads or writes a flag ("Flags Affected: None", 40_xbegin.md R130, 41_xchg.md R151); an abort restores the recorded
value (R125). So there is no flag computation, and what the model says of the flags is this comparison. -/

namespace Sys2Proof.Machine

/-- "Flags Affected: None": the flags of every logical processor are what they were (10_state.md R29). -/
def flagsUnaffected (s t : State) : Prop :=
  t.lp.flags = s.lp.flags ∧ t.before.map LP.flags = s.before.map LP.flags ∧
    t.after.map LP.flags = s.after.map LP.flags

end Sys2Proof.Machine
end

