-- ==== Sys2Proof/Machine/Operands.lean ====
section
/-! DEFINITION. Operand forms: effective addresses and segments of memory operands (30_encoding.md R94 to R98), and the
access check of a memory operand (20_memory.md R60). -/

namespace Sys2Proof.Machine

/-! ## Effective addresses -/

/-- `sext_64` of a displacement (30_encoding.md R94 to R96). -/
def dispValue {w : Nat} : Disp w → Word
  | .none => 0
  | .d8 v => v.signExtend 64
  | .full v => v.signExtend 64

/-- The base sum of 16-bit addressing (30_encoding.md R94). -/
def LP.base16 (lp : LP) : Base16 → Word
  | .bxSi => lp.x[3] + lp.x[6]
  | .bxDi => lp.x[3] + lp.x[7]
  | .bpSi => lp.x[5] + lp.x[6]
  | .bpDi => lp.x[5] + lp.x[7]
  | .si => lp.x[6]
  | .di => lp.x[7]
  | .bp => lp.x[5]
  | .bx => lp.x[3]

/-- The index register shifted by the scale; 0 for no index (30_encoding.md R95, R96). -/
def LP.indexValue (lp : LP) (i : Option RegNum) (scale : Fin 4) : Word :=
  match i with
  | none => 0
  | some r => lp.x[r] <<< scale.val

/-- The sum an addressing form calls for, before it is cut to the address size. The low bits of a sum depend on the low
bits of its terms alone, so cutting the sum of full registers to `asz` bits gives the sums of `asz`-bit register reads
of R94 and R95 as well. -/
def LP.addrSum (lp : LP) (nextPc : Word) : Addr → Word
  | .ind16 b d => lp.base16 b + dispValue d
  | .abs16 v => v.signExtend 64
  | .ind b d => lp.x[b] + dispValue d
  | .abs32 v => v.signExtend 64
  | .ripRel v => nextPc + v.signExtend 64
  | .sib b i sc d => lp.x[b] + lp.indexValue i sc + dispValue d
  | .sibAbs i sc v => lp.indexValue i sc + v.signExtend 64

/-- A value cut to the address size and zero-extended (30_encoding.md R97). -/
def cutTo (a : AddrSize) (v : Word) : Word :=
  match a with
  | .a16 => (v.setWidth 16).setWidth 64
  | .a32 => low32 v
  | .a64 => v

/-- The effective address of a memory operand of an instruction of `len` bytes (30_encoding.md R94 to R97). -/
def LP.effAddr (lp : LP) (len : Nat) (m : Mem) : Word :=
  cutTo (addressSize lp.ctx m.addr67) (lp.addrSum (lp.nextPc len) m.addr)

/-- Whether a base register's default segment is SS: RSP, ESP, RBP, EBP (30_encoding.md R95, R96). -/
def stackBase (b : RegNum) : Bool := decide (b = 4) || decide (b = 5)

/-- The default segment of an addressing form (30_encoding.md R94 to R96). -/
def defaultSeg : Addr → SegReg
  | .ind16 .bpSi _ => .ss
  | .ind16 .bpDi _ => .ss
  | .ind16 .bp _ => .ss
  | .ind16 _ _ => .ds
  | .abs16 _ => .ds
  | .ind b _ => if stackBase b then .ss else .ds
  | .abs32 _ => .ds
  | .ripRel _ => .ds
  | .sib b _ _ _ => if stackBase b then .ss else .ds
  | .sibAbs _ _ _ => .ds

/-- The segment of a memory operand: the override's, else the default one (30_encoding.md R98). -/
def segOf (m : Mem) : SegReg := m.seg.getD (defaultSeg m.addr)

/-! ## Access -/

/-- A linear address of the mode: 64 bits in 64-bit mode, 32 bits otherwise (20_memory.md R50). -/
def linearOf (m : Mode) (v : Word) : Word :=
  match m with
  | .long64 => v
  | _ => low32 v

/-- What a segment record says of an access: base, highest valid offset, writable, NULL selector. -/
structure SegView where
  base : Word
  bound : Nat
  writable : Bool
  null : Bool
  deriving DecidableEq, Repr

/-- A data segment's view. -/
def DataSegment.view (d : DataSegment) : SegView :=
  { base := d.base, bound := d.limit.toNat, writable := d.writable, null := d.null }

/-- The view of the segment an operand uses. -/
def LP.segView (lp : LP) (segs : Segments) : SegReg → SegView
  | .cs => { base := segs.cs.base, bound := lp.csBound, writable := segs.cs.writable, null := false }
  | .ss => { base := segs.ss.base, bound := segs.ss.limit.toNat, writable := segs.ss.writable, null := false }
  | .ds => segs.ds.view
  | .es => segs.es.view
  | .fs => segs.fs.view
  | .gs => segs.gs.view

/-- The fault-code of the first page-fault range that holds a byte of the operand (log entry 15). -/
def pageFaultOf (m : Mode) (holes : List PageHole) (la : Word) (n : Nat) : Option Nat :=
  match holes.find? (fun h => (List.range n).any (fun k => h.region.has (addrAt m la k))) with
  | some h => some h.code
  | none => none

/-- What the logical processor's segment and paging state answer of an operand of `n` bytes at the effective address
`ea` of a segment (20_memory.md R60; log entries 5, 14, 15). -/
def LP.accessFacts (lp : LP) (seg : SegReg) (ea : Word) (n : Nat) : AccessFacts :=
  match lp.access with
  | .flat =>
    { linear := linearOf lp.mode ea, outsideLimit := false, nonWritable := false, nullSelector := false,
      pageFault := none }
  | .segmented segs holes =>
    let v := lp.segView segs seg
    let la := linearOf lp.mode (v.base + ea)
    { linear := la, outsideLimit := decide (v.bound + 1 < ea.toNat + n), nonWritable := !v.writable,
      nullSelector := v.null, pageFault := pageFaultOf lp.mode holes la n }
  | .arbitrary key =>
    let f := Config.freeAccess key seg ea n
    { f with linear := linearOf lp.mode f.linear }

/-- A memory reference is unaligned when its address is no multiple of its size (20_memory.md R58). -/
def unaligned (la : Word) (n : Nat) : Bool := decide (la.toNat % n ≠ 0)

/-- The exception where the condition holds. -/
def excIf (cond : Bool) (name : ExcName) (code : Option Nat) : List Exc :=
  if cond then [{ name := name, code := code }] else []

/-- #PF(fault-code) where a page fault occurs (60_exceptions.md R176). -/
def pageFaultExc (f : AccessFacts) : List Exc :=
  match f.pageFault with
  | some c => [{ name := .pf, code := some c }]
  | none => []

/-- Whether a NULL selector counts: in DS, ES, FS and GS (20_memory.md R60). -/
def nullCounts (seg : SegReg) : Bool := decide (seg ≠ .cs) && decide (seg ≠ .ss)

/-- The exceptions of the memory forms whose conditions hold, by mode (20_memory.md R60, 41_xchg.md R154, 60_exceptions.md
R174 to R177). The error codes are those of the source's tables: none for #GP and #SS in real-address mode (90_conflicts.md
C5). -/
def accessExceptions (hw : Hw) (lp : LP) (seg : SegReg) (f : AccessFacts) (n : Nat) : List Exc :=
  let onSS := decide (seg = .ss)
  let prot :=
    excIf (f.nonWritable || (!onSS && f.outsideLimit) || (nullCounts seg && f.nullSelector)) .gp (some 0) ++
      excIf (onSS && f.outsideLimit) .ss (some 0) ++ pageFaultExc f ++
      excIf (lp.alignCheck && decide (lp.cpl = 3) && unaligned f.linear n) .ac (some 0)
  match lp.mode with
  | .protected32 => prot
  | .compat => prot
  | .real => excIf (!onSS && f.outsideLimit) .gp none ++ excIf (onSS && f.outsideLimit) .ss none
  | .v8086 =>
    excIf (!onSS && f.outsideLimit) .gp (some 0) ++ excIf (onSS && f.outsideLimit) .ss (some 0) ++
      pageFaultExc f ++ excIf (lp.alignCheck && unaligned f.linear n) .ac (some 0)
  | .long64 =>
    excIf (!onSS && !canonical hw.vaBits f.linear) .gp (some 0) ++
      excIf (onSS && !canonical hw.vaBits f.linear) .ss (some 0) ++ pageFaultExc f ++
      excIf (lp.alignCheck && decide (lp.cpl = 3) && unaligned f.linear n) .ac (some 0)

end Sys2Proof.Machine
end

