-- ==== Sys2Proof/Machine/Xbegin.lean ====
section
/-! DEFINITION. XBEGIN rel16 and rel32 (40_xbegin.md). -/

namespace Sys2Proof.Machine

/-- The fallback address before its check (40_xbegin.md R124): `next_pc` plus the offset at the width of the
instruction pointer; outside 64-bit mode cut to 16 bits where `Rel16Truncates` holds and the operand size is 16. -/
def LP.fallbackAddr (lp : LP) (hw : Hw) (len : Nat) (osz16 : Bool) (off : Word) : Word :=
  match lp.mode with
  | .long64 => lp.nextPc len + off
  | _ =>
    if hw.rel16Truncates && osz16 then ((lp.nextPc len + off).setWidth 16).setWidth 64
    else low32 (lp.nextPc len + off)

/-- The check of the fallback address (40_xbegin.md R124, R129): canonical form in 64-bit mode, the code segment's
highest valid offset otherwise. -/
def LP.fallbackOk (lp : LP) (hw : Hw) (fb : Word) : Bool :=
  match lp.mode with
  | .long64 => canonical hw.vaBits fb
  | _ => decide (fb.toNat ≤ lp.csBound)

/-- The outermost XBEGIN's entry into transactional execution (40_xbegin.md R122). -/
def LP.enterRtm (lp : LP) (fb : Word) : LP :=
  { lp with nestCount := 1, fallback := fb, rtmActive := true, checkpoint := lp.recordRegs, wbuf := [] }

/-- `Xbegin(off)` (40_xbegin.md R122): `off` is the immediate sign-extended to a word, of which R124 uses the low 32
bits outside 64-bit mode. -/
def State.xbegin (s : State) (lock osz16 : Bool) (len : Nat) (off : Word) : Result :=
  if !s.hw.hasRtm || lock then .next (s.raise excUd)
  else if s.lp.nestCount < s.hw.maxNest then
    if s.lp.nestCount = 0 then
      if s.lp.fallbackOk s.hw (s.lp.fallbackAddr s.hw len osz16 off) then
        .next ((s.withLp (s.lp.enterRtm (s.lp.fallbackAddr s.hw len osz16 off))).advance len)
      else .next (s.raise excGp0)
    else .next ((s.withLp { s.lp with nestCount := s.lp.nestCount + 1 }).advance len)
  else .next s.rtmAbort

/-- XBEGIN rel16 (40_xbegin.md R120). -/
def execXbeginRel16 (p : Pfx) (imm : BitVec 16) (s : State) : Result :=
  s.xbegin p.lock true (Instr.xbeginRel16 p imm).len (imm.signExtend 64)

/-- XBEGIN rel32 (40_xbegin.md R121). -/
def execXbeginRel32 (p : Pfx) (imm : BitVec 32) (s : State) : Result :=
  s.xbegin p.lock false (Instr.xbeginRel32 p imm).len (imm.signExtend 64)

end Sys2Proof.Machine
end

