-- ==== Sys2Proof/Machine/Xchg.lean ====
section
/-! DEFINITION. XCHG in its eight encodings (41_xchg.md). -/

namespace Sys2Proof.Machine

/-- `XchgRR(w, a, b, rex)` of an instruction of `len` bytes (41_xchg.md R140): both reads come before both writes. -/
def State.xchgRR (s : State) (w : Width) (a b : RegNum) (rex lock : Bool) (len : Nat) : Result :=
  if lock then .next (s.raise excUd)
  else
    .next (((s.regWrite w a rex (s.lp.regRead w b rex)).regWrite w b rex (s.lp.regRead w a rex)).advance len)

/-- Format O: the exchange of register 0 with register `r`; number 0 is no operation (30_encoding.md R101, 41_xchg.md
R141 to R143). -/
def State.xchgShort (s : State) (w : Width) (r : RegNum) (rex lock : Bool) (len : Nat) : Result :=
  if r = 0 then (if lock then .next (s.raise excUd) else .next (s.advance len))
  else s.xchgRR w 0 r rex lock len

/-- The exchange of a register with memory, once the access is allowed: one step of the machine (20_memory.md R63,
41_xchg.md R149). An operand on program text is refused (20_memory.md R72), one outside the launch memory is stuck
(R62, R73). Of an operand with a byte of each kind the spec says both and gives no order: that it is refused is the
model's choice (DESIGN CHOICE, log entry 33). -/
def State.exchange (s : State) (w : Width) (g : RegNum) (rex : Bool) (la : Word) (len : Nat) : Result :=
  if s.overlapsText la w.bytes then .refused .textOverlap
  else
    match s.memRead la w.bytes with
    | none => .fault .outsideMemory
    | some tm =>
      .next (((s.memWrite la w.bytes (s.lp.regRead w g rex)).regWrite w g rex tm).advance len)

/-- The access facts of a memory operand of an instruction of `len` bytes (41_xchg.md R149). -/
def LP.operandFacts (lp : LP) (w : Width) (m : Mem) (len : Nat) : AccessFacts :=
  lp.accessFacts (segOf m) (lp.effAddr len m) w.bytes

/-- The exceptions a memory operand meets (41_xchg.md R149, R154). -/
def State.operandExceptions (s : State) (w : Width) (m : Mem) (len : Nat) : List Exc :=
  accessExceptions s.hw s.lp (segOf m) (s.lp.operandFacts w m len) w.bytes

/-- `XchgRM(w, g, rex)` (41_xchg.md R149): the access check stands before the exchange; LOCK changes nothing. -/
def State.xchgRM (s : State) (w : Width) (g : RegNum) (rex : Bool) (m : Mem) (len : Nat) : Result :=
  match s.operandExceptions w m len with
  | e :: es => .next (s.raiseOneOf e es)
  | [] => s.exchange w g rex (s.lp.operandFacts w m len).linear len

/-- `XchgModRM(w, rex)` (41_xchg.md R150). -/
def State.xchgModRM (s : State) (w : Width) (rm : RM) (g : RegNum) (rex lock : Bool) (len : Nat) : Result :=
  match rm with
  | .reg r => s.xchgRR w r g rex lock len
  | .mem m => s.xchgRM w g rex m len

/-- XCHG AX, r16 (41_xchg.md R141). -/
def execXchgAxR16 (p : Pfx) (r : RegNum) (s : State) : Result :=
  s.xchgShort .w16 r p.rex p.lock (Instr.xchgAxR16 p r).len

/-- XCHG EAX, r32 (41_xchg.md R142). -/
def execXchgEaxR32 (p : Pfx) (r : RegNum) (s : State) : Result :=
  s.xchgShort .w32 r p.rex p.lock (Instr.xchgEaxR32 p r).len

/-- XCHG RAX, r64 (41_xchg.md R143). -/
def execXchgRaxR64 (p : Pfx) (r : RegNum) (s : State) : Result :=
  s.xchgShort .w64 r true p.lock (Instr.xchgRaxR64 p r).len

/-- XCHG r/m8, r8 without REX (41_xchg.md R144). -/
def execXchgRm8R8 (p : Pfx) (rm : RM) (g : RegNum) (s : State) : Result :=
  s.xchgModRM .w8 rm g false p.lock (Instr.xchgRm8R8 p rm g).len

/-- XCHG r/m8, r8 with REX (41_xchg.md R145). -/
def execXchgRm8R8Rex (p : Pfx) (rm : RM) (g : RegNum) (s : State) : Result :=
  s.xchgModRM .w8 rm g true p.lock (Instr.xchgRm8R8Rex p rm g).len

/-- XCHG r/m16, r16 (41_xchg.md R146). -/
def execXchgRm16R16 (p : Pfx) (rm : RM) (g : RegNum) (s : State) : Result :=
  s.xchgModRM .w16 rm g p.rex p.lock (Instr.xchgRm16R16 p rm g).len

/-- XCHG r/m32, r32 (41_xchg.md R147). -/
def execXchgRm32R32 (p : Pfx) (rm : RM) (g : RegNum) (s : State) : Result :=
  s.xchgModRM .w32 rm g p.rex p.lock (Instr.xchgRm32R32 p rm g).len

/-- XCHG r/m64, r64 (41_xchg.md R148). -/
def execXchgRm64R64 (p : Pfx) (rm : RM) (g : RegNum) (s : State) : Result :=
  s.xchgModRM .w64 rm g true p.lock (Instr.xchgRm64R64 p rm g).len

end Sys2Proof.Machine
end

