-- ==== Sys2Proof/Machine/Dispatch.lean ====
section
/-! DEFINITION. One arm per constructor of `Instr`, each a direct call of its meaning. -/

namespace Sys2Proof.Machine

def exec (i : Instr) (s : State) : Host.Outcome State Fault Refusal :=
  match i with
  | .xbeginRel16 p imm => Sys2Proof.Machine.execXbeginRel16 p imm s
  | .xbeginRel32 p imm => Sys2Proof.Machine.execXbeginRel32 p imm s
  | .xchgAxR16 p r => Sys2Proof.Machine.execXchgAxR16 p r s
  | .xchgEaxR32 p r => Sys2Proof.Machine.execXchgEaxR32 p r s
  | .xchgRaxR64 p r => Sys2Proof.Machine.execXchgRaxR64 p r s
  | .xchgRm8R8 p rm g => Sys2Proof.Machine.execXchgRm8R8 p rm g s
  | .xchgRm8R8Rex p rm g => Sys2Proof.Machine.execXchgRm8R8Rex p rm g s
  | .xchgRm16R16 p rm g => Sys2Proof.Machine.execXchgRm16R16 p rm g s
  | .xchgRm32R32 p rm g => Sys2Proof.Machine.execXchgRm32R32 p rm g s
  | .xchgRm64R64 p rm g => Sys2Proof.Machine.execXchgRm64R64 p rm g s

end Sys2Proof.Machine
end

