-- ==== Sys2Proof/Machine/Fetch.lean ====
section
/-! DEFINITION. Fetching an instruction (10_state.md R28, 20_memory.md R56, R72): bytes of the program text from pc on,
as many as may be fetched and no more than the longest instruction can need. -/

namespace Sys2Proof.Machine

/-- Whether the code segment limit, the canonical check and the top of the address space let a byte be fetched
(10_state.md R28). -/
def LP.fetchAllowed (lp : LP) (hw : Hw) (a : Nat) : Bool :=
  match lp.mode with
  | .long64 => decide (a < 2 ^ 64) && canonical hw.vaBits (BitVec.ofNat 64 a)
  | _ => decide (a ≤ lp.csBound)

/-- The byte of program text at an address, where it may be fetched. Text is immutable, so it is read from the shared
memory (20_memory.md R72). -/
def State.fetchByte (s : State) (a : Nat) : Option Byte :=
  if s.lp.fetchAllowed s.hw a && s.inText a then s.mem.read a else none

/-- At most `n` bytes from address `a` on, up to the first that cannot be fetched. -/
def State.fetchBytes (s : State) (a : Nat) : Nat → List Byte
  | 0 => []
  | n + 1 =>
    match s.fetchByte a with
    | some b => b :: State.fetchBytes s (a + 1) n
    | none => []

/-- What the fetch sees at pc. -/
def State.window (s : State) : List Byte := s.fetchBytes s.lp.pc.toNat maxLen

/-- Fetch and decode at pc (70_reset_and_hazards.md R204): the instruction, or the refusal. An instruction of which a
byte cannot be fetched is refused as a fetch (10_state.md R28), any other byte sequence as not admitted (30_encoding.md
R103). -/
def State.fetchDecode (s : State) : Except Refusal Instr :=
  match decode s.lp.ctx s.window with
  | .ok (i, _) => .ok i
  | .error .truncated => .error .fetch
  | .error why => .error (.notAdmitted why)

/-- The memory with a byte at each address from `a` on. -/
def putBytes (m : Memory) (a : Nat) : List Byte → Memory
  | [] => m
  | b :: bs => putBytes (m.write a b) (a + 1) bs

end Sys2Proof.Machine
end

