-- ==== Sys2Proof/Machine/Schedule.lean ====
section
/-! DEFINITION. Which logical processor moves, and whether it takes an AbortStep (70_reset_and_hazards.md R204, R205,
40_xbegin.md R127). The schedule is free: the mover and the AbortStep are free values, asked for only where there is a
choice (log entries 11, 12). -/

namespace Sys2Proof.Machine

/-- All logical processors, in order. -/
def State.all (s : State) : List LP := s.before ++ s.lp :: s.after

/-- The state with the logical processor at position `k` as the one that moves; unchanged where there is none. -/
def State.focus (s : State) (k : Nat) : State :=
  match s.all.drop k with
  | [] => s
  | l :: rest => { s with before := s.all.take k, lp := l, after := rest }

/-- InstrStep of the logical processor in focus: fetch and decode at pc, then execute (70_reset_and_hazards.md R204).
The answer `fault` says that the step is not enabled: the instruction is stuck (20_memory.md R62). -/
def State.instrStep (s : State) : Result :=
  match s.fetchDecode with
  | .error r => .refused r
  | .ok i => exec i s

/-- The InstrStep of the logical processor in focus is not enabled. -/
def State.instrStuck (s : State) : Bool :=
  match s.instrStep with
  | .fault _ => true
  | _ => false

/-- A logical processor has ended (70_reset_and_hazards.md R205). -/
def LP.ended (lp : LP) (endAddr : Word) : Bool := decide (lp.pc = endAddr) && !lp.rtmActive && lp.fault.isNone

/-- The logical processor in focus has an enabled step: no fault is recorded, and it is inside a transaction, where the
AbortStep is always enabled, or has an InstrStep, which it has where pc is not EndAddr and the instruction is not stuck
(00_scope.md R11, 40_xbegin.md R127, 70_reset_and_hazards.md R204, R205). -/
def State.canMove (s : State) : Bool :=
  s.lp.fault.isNone && (s.lp.rtmActive || (decide (s.lp.pc ≠ s.endAddr) && !s.instrStuck))

/-- The positions of the logical processors that can move. -/
def State.movers (s : State) : List Nat := (List.range s.all.length).filter (fun k => (s.focus k).canMove)

/-- Every logical processor has ended (70_reset_and_hazards.md R205). -/
def State.final (s : State) : Bool := s.all.all (fun l => l.ended s.endAddr)

/-- The logical processor that takes the next step in focus: the only one that can move, or a free choice of those that
can; none where none can. -/
def State.pickMover (s : State) : Option State :=
  match s.movers with
  | [] => none
  | [k] => some (s.focus k)
  | k :: ks =>
    some ({ s with draws := s.draws + 1 }.focus ((k :: ks).getD (Config.freeMover s.draws % (ks.length + 1)) k))

/-- What the machine does next. -/
inductive Move where
  /-- No logical processor can move. -/
  | stop (f : Fault)
  /-- AbortStep of the logical processor in focus. -/
  | abortStep (s : State)
  /-- InstrStep of the logical processor in focus. -/
  | instrStep (s : State)
  deriving DecidableEq, Repr

/-- The move of the logical processor in focus: outside a transaction an InstrStep; inside one the AbortStep where it is
the only enabled step, at EndAddr (R205) and where the instruction is stuck (40_xbegin.md R127), and elsewhere a free
choice. -/
def State.moveOf (s : State) : Move :=
  if s.lp.rtmActive then
    if s.lp.pc = s.endAddr ∨ s.instrStuck = true then .abortStep s
    else if Config.freeAbort s.draws then .abortStep { s with draws := s.draws + 1 }
    else .instrStep { s with draws := s.draws + 1 }
  else .instrStep s

/-- Why no logical processor can move: the run has ended; one that has neither ended nor faulted is stuck outside the
launch memory; every one that has not ended has faulted (00_scope.md R11, 70_reset_and_hazards.md R205). -/
def State.stopReason (s : State) : Fault :=
  if s.final then .runEnded
  else if s.all.any (fun l => l.fault.isNone && !l.ended s.endAddr) then .outsideMemory
  else .allStopped

/-- The next move of the machine. -/
def State.nextMove (s : State) : Move :=
  match s.pickMover with
  | none => .stop s.stopReason
  | some t => t.moveOf

end Sys2Proof.Machine
end

