-- ==== Sys2Proof/Machine/Step.lean ====
section
/-! DEFINITION. One step of the machine (70_reset_and_hazards.md R204), and the placing of an instruction where the next
step fetches it. -/

namespace Sys2Proof.Machine

/-- One step: the logical processor whose turn it is takes an AbortStep, or fetches, decodes and executes one
instruction. -/
def step (s : State) : Host.Outcome State Fault Refusal :=
  match s.nextMove with
  | .stop f => .fault f
  | .abortStep t => .next t.rtmAbort
  | .instrStep t => t.instrStep

/-- `s` with an instruction, its first `nbits` bits `w` and zeros above, stored at the pc of the logical processor in
focus and named as program text; EndAddr is moved away from that pc, where nothing would be fetched (log entry 19). -/
def State.withFetchWord (s : State) (nbits w : Nat) : State :=
  { s with
    mem := putBytes s.mem s.lp.pc.toNat (windowOf nbits w)
    text := { base := s.lp.pc.toNat, size := maxLen } :: s.text
    endAddr := if s.endAddr = s.lp.pc then s.lp.pc - 1 else s.endAddr }

end Sys2Proof.Machine
end

