-- ==== Sys2Proof/Safety.lean ====
section
/-! DEFINITION. What counts as a good state and a good run: the step relation (70_reset_and_hazards.md R204), the launch
premises (R202), the invariants of the RTM state and of memory (10_state.md R36, R38, R39), and what a step may not
change. -/

namespace Sys2Proof.Machine

/-! ## The step relation -/

/-- `t` follows `s` by one step of some logical processor in some schedule, with some draws (70_reset_and_hazards.md
R204): the one at position `k`, not faulted, takes an AbortStep, which it may inside a transaction, or an InstrStep,
which it may where pc is not EndAddr. -/
def mayStep (s t : State) : Prop :=
  ∃ k d : Nat, k < s.all.length ∧ (s.focus k).lp.fault = none ∧
    (((s.focus k).lp.rtmActive = true ∧ t = ({ s.focus k with draws := d } : State).rtmAbort) ∨
      ((s.focus k).lp.pc ≠ s.endAddr ∧ ({ s.focus k with draws := d } : State).instrStep = .next t))

/-- `t` is a state of a run from `s`, whatever the schedule and the draws. -/
inductive Reached (s : State) : State → Prop
  | launch : Reached s s
  | step {t u : State} (before : Reached s t) (h : mayStep t u) : Reached s u

/-- The InstrStep of the logical processor in focus is the one its state calls for: no fault is recorded and pc is not
EndAddr (70_reset_and_hazards.md R204). -/
def fetches (u : State) : Prop := u.lp.fault = none ∧ u.lp.pc ≠ u.endAddr

/-- The logical processor in focus is stuck outside the launch memory: outside a transaction, its InstrStep not enabled
(20_memory.md R62, R73; 00_scope.md R11). -/
def stuckOutside (u : State) : Prop :=
  fetches u ∧ u.lp.rtmActive = false ∧ u.instrStep = .fault .outsideMemory

/-- The logical processor in focus has no enabled step: it has faulted, has ended, or is stuck (10_state.md R41,
70_reset_and_hazards.md R204, R205, 00_scope.md R11). -/
def blocked (u : State) : Prop :=
  u.lp.fault ≠ none ∨ (u.lp.pc = u.endAddr ∧ u.lp.rtmActive = false) ∨ stuckOutside u

/-! ## The launch premises -/

/-- Premise 2 of R202 for one logical processor. -/
def LP.notInTransaction (lp : LP) : Bool := decide (lp.nestCount = 0) && !lp.rtmActive

/-- Premise 3 of R202 for one logical processor. -/
def LP.modeCoherent (lp : LP) (hw : Hw) : Bool :=
  match lp.mode with
  | .long64 => canonical hw.vaBits lp.pc
  | .real => decide (lp.pc.toNat < 2 ^ 32) && !lp.csD
  | .v8086 => decide (lp.pc.toNat < 2 ^ 32) && !lp.csD
  | _ => decide (lp.pc.toNat < 2 ^ 32)

/-- Premise 1 of R202, `NoFault`. -/
def State.noFault (s : State) : Bool := s.all.all (fun l => l.fault.isNone)

/-- Premise 2 of R202, `NotInTransaction`. -/
def State.notInTransaction (s : State) : Bool := s.all.all LP.notInTransaction

/-- Premise 3 of R202, `ModeCoherent`. -/
def State.modeCoherent (s : State) : Bool := s.all.all (fun l => l.modeCoherent s.hw)

/-- Premise 4 of R202, `TextAdmitted`: wherever the run fetches, it fetches and decodes an instruction. At EndAddr
nothing is fetched. -/
def State.textAdmitted (s : State) : Prop :=
  ∀ (t : State) (k : Nat), Reached s t → k < t.all.length → fetches (t.focus k) → ∃ i, (t.focus k).fetchDecode = .ok i

/-- The memory operand of an instruction and its width, where it has one (30_encoding.md R92). -/
def memOperandOf : Instr → Option (Width × Mem)
  | .xchgRm8R8 _ (.mem m) _ => some (.w8, m)
  | .xchgRm8R8Rex _ (.mem m) _ => some (.w8, m)
  | .xchgRm16R16 _ (.mem m) _ => some (.w16, m)
  | .xchgRm32R32 _ (.mem m) _ => some (.w32, m)
  | .xchgRm64R64 _ (.mem m) _ => some (.w64, m)
  | _ => none

/-- Premise 5 of R202, `TextImmutable`: no memory operand of an XCHG the run comes to overlaps the program text. An
operand whose access meets an exception has no linear address (20_memory.md R60). -/
def State.textImmutable (s : State) : Prop :=
  ∀ (t : State) (k : Nat) (i : Instr) (w : Width) (m : Mem), Reached s t → k < t.all.length → fetches (t.focus k) →
    (t.focus k).fetchDecode = .ok i → memOperandOf i = some (w, m) → (t.focus k).operandExceptions w m i.len = [] →
    (t.focus k).overlapsText ((t.focus k).lp.operandFacts w m i.len).linear w.bytes = false

/-- The five launch premises (70_reset_and_hazards.md R202). -/
def State.launchPremises (s : State) : Prop :=
  s.noFault = true ∧ s.notInTransaction = true ∧ s.modeCoherent = true ∧ s.textAdmitted ∧ s.textImmutable

/-- The premises on the launch state itself, 1 to 3 of R202, with the empty write buffer of 10_state.md R44. -/
def State.launchOk (s : State) : Bool :=
  s.noFault && s.notInTransaction && s.modeCoherent && s.all.all (fun l => l.wbuf.isEmpty)

/-! ## Invariants -/

/-- The invariant of one logical processor: RTM_ACTIVE = 1 exactly when RTM_NEST_COUNT >= 1 (R39), the count is at most
MAX_RTM_NEST_COUNT (R36), the write buffer is canonical and outside a transaction empty (R38), outside 64-bit mode
pc[63:32] = 0 (R27), and inside a transaction the fallback address is one that passed its check (40_xbegin.md R125). -/
def LP.wf (hw : Hw) (lp : LP) : Prop :=
  (lp.rtmActive = true ↔ 1 ≤ lp.nestCount) ∧ lp.nestCount ≤ hw.maxNest ∧ lp.wbuf.wf ∧
    (lp.rtmActive = false → lp.wbuf = []) ∧ (lp.mode ≠ .long64 → lp.pc.toNat < 2 ^ 32) ∧
    (lp.rtmActive = true → lp.fallbackOk hw lp.fallback = true)

/-- The invariant of the machine: the constants are in their bounds, memory is canonical, each logical processor is
well-formed. -/
def State.wf (s : State) : Prop := s.hw.wf = true ∧ s.mem.wf ∧ ∀ l ∈ s.all, l.wf s.hw

/-- No write buffer holds a byte of the program text (20_memory.md R72). -/
def State.textClean (s : State) : Prop := ∀ l ∈ s.all, ∀ a, s.inText a = true → l.wbuf.read a = none

/-- What no instruction in scope changes of a logical processor: mode, code segment, privilege level, alignment
checking, segment and paging state (10_state.md R30 to R33). -/
structure Environment where
  mode : Mode
  csLimit : BitVec 32
  csD : Bool
  cpl : Fin 4
  alignCheck : Bool
  access : AccessModel
  deriving DecidableEq, Repr

/-- The environment of a logical processor. -/
def LP.environment (lp : LP) : Environment :=
  { mode := lp.mode, csLimit := lp.csLimit, csD := lp.csD, cpl := lp.cpl, alignCheck := lp.alignCheck,
    access := lp.access }

/-- The machine is the same but for what runs on it: the constants, the program text, EndAddr, and of each logical
processor its environment. -/
def sameMachine (s t : State) : Prop :=
  t.hw = s.hw ∧ t.text = s.text ∧ t.endAddr = s.endAddr ∧
    t.all.map LP.environment = s.all.map LP.environment

/-- Everything but the logical processor that moves, memory and the counter of draws is unchanged. -/
def othersUnchanged (s t : State) : Prop :=
  t.hw = s.hw ∧ t.before = s.before ∧ t.after = s.after ∧ t.text = s.text ∧ t.endAddr = s.endAddr

/-- Of a logical processor everything but its general registers, its pc and its write buffer is unchanged. -/
def onlyRegsPcWbuf (l m : LP) : Prop :=
  m.flags = l.flags ∧ m.otherRegs = l.otherRegs ∧ m.environment = l.environment ∧ m.nestCount = l.nestCount ∧
    m.rtmActive = l.rtmActive ∧ m.fallback = l.fallback ∧ m.checkpoint = l.checkpoint ∧ m.fault = l.fault

/-! ## The spec's words, read on their own

The statements say what an instruction does through these readings of single rules, written at the widths the rules use
and apart from the definitions the meanings call. -/

/-- "bits 63 down to `VA_BITS - 1` of `a` are all equal" (00_scope.md R12). -/
def highBitsEqual (vaBits : Nat) (a : Word) : Prop := ∀ k, vaBits - 1 ≤ k → k < 64 → a.getLsbD k = a.getLsbD 63

/-- The fallback address in 64-bit mode: `(next_pc + off) mod 2^64` (40_xbegin.md R124). -/
def fallback64 (lp : LP) (len : Nat) (off : BitVec 64) : BitVec 64 := lp.pc + BitVec.ofNat 64 len + off

/-- The fallback address outside 64-bit mode: `(next_pc[31:0] + off) mod 2^32`, cut to 16 bits where `Rel16Truncates`
holds and the operand size is 16 (40_xbegin.md R124). -/
def fallback32 (lp : LP) (hw : Hw) (len : Nat) (osz16 : Bool) (off : BitVec 32) : BitVec 32 :=
  if hw.rel16Truncates && osz16 then (lp.pc.setWidth 32 + BitVec.ofNat 32 len + off) &&& 0xFFFF#32
  else lp.pc.setWidth 32 + BitVec.ofNat 32 len + off

/-- `next_pc` (10_state.md R28): modulo 2^64 in 64-bit mode, otherwise `zext_64((pc[31:0] + len) mod 2^32)`. -/
def pcAfter (lp : LP) (len : Nat) : Word :=
  match lp.mode with
  | .long64 => lp.pc + BitVec.ofNat 64 len
  | _ => (lp.pc.setWidth 32 + BitVec.ofNat 32 len).setWidth 64

/-- The state with an exception recorded and nothing else changed (60_exceptions.md R171). -/
def recorded (s : State) (name : ExcName) (code : Option Nat) : State :=
  { s with lp := { s.lp with fault := some { exc := { name := name, code := code }, pc := s.lp.pc } } }

/-- The state after an outermost XBEGIN of `len` bytes with the fallback address `fb` (40_xbegin.md R122). -/
def enteredWith (s : State) (len : Nat) (fb : Word) : State :=
  { s with
    lp := { s.lp with
      pc := pcAfter s.lp len
      nestCount := 1
      rtmActive := true
      fallback := fb
      checkpoint := { x := s.lp.x, flags := s.lp.flags, otherRegs := s.lp.otherRegs }
      wbuf := [] } }

/-- `t` is `s` after the abort procedure of its moving logical processor (40_xbegin.md R125): registers, flags and
other_regs from the checkpoint but for register 0, of which outside 64-bit mode bits 63:32 are restored as well; an
empty write buffer; the counts 0; execution at the fallback address; everything else, the shared memory included, as it
was. The value of EAX, and in 64-bit mode of RAX, is free. -/
def abortedFrom (s t : State) : Prop :=
  (∀ r : RegNum, r ≠ 0 → t.lp.x[r] = s.lp.checkpoint.x[r]) ∧
    (s.lp.mode ≠ .long64 → t.lp.x[0] >>> 32 = s.lp.checkpoint.x[0] >>> 32) ∧
    t.lp.flags = s.lp.checkpoint.flags ∧ t.lp.otherRegs = s.lp.checkpoint.otherRegs ∧ t.lp.wbuf = [] ∧
    t.lp.nestCount = 0 ∧ t.lp.rtmActive = false ∧ t.lp.pc = s.lp.fallback ∧
    t.lp.environment = s.lp.environment ∧ t.lp.fallback = s.lp.fallback ∧ t.lp.checkpoint = s.lp.checkpoint ∧
    t.lp.fault = s.lp.fault ∧ t.mem = s.mem ∧ othersUnchanged s t

/-- Only the general registers and the pc, which moves past the `len` bytes, have changed. -/
def onlyRegistersAfter (s t : State) (len : Nat) : Prop :=
  t = { s with lp := { s.lp with x := t.lp.x, pc := pcAfter s.lp len } }

/-- The two registers hold each other's 16-bit values, bits 63:16 and every other register are unchanged (10_state.md
R24, 41_xchg.md R141, R146). -/
def swapped16 (a b : RegNum) (l m : LP) : Prop :=
  m.x[a].setWidth 16 = l.x[b].setWidth 16 ∧ m.x[b].setWidth 16 = l.x[a].setWidth 16 ∧
    m.x[a] >>> 16 = l.x[a] >>> 16 ∧ m.x[b] >>> 16 = l.x[b] >>> 16 ∧
    ∀ r : RegNum, r ≠ a → r ≠ b → m.x[r] = l.x[r]

/-- The two registers hold each other's 32-bit values with bits 63:32 equal to 0, every other register is unchanged
(10_state.md R24, 41_xchg.md R142, R147). -/
def swapped32 (a b : RegNum) (l m : LP) : Prop :=
  m.x[a] = (l.x[b].setWidth 32).setWidth 64 ∧ m.x[b] = (l.x[a].setWidth 32).setWidth 64 ∧
    ∀ r : RegNum, r ≠ a → r ≠ b → m.x[r] = l.x[r]

/-- The two registers hold each other's values, every other register is unchanged (41_xchg.md R143, R148). -/
def swapped64 (a b : RegNum) (l m : LP) : Prop :=
  m.x[a] = l.x[b] ∧ m.x[b] = l.x[a] ∧ ∀ r : RegNum, r ≠ a → r ≠ b → m.x[r] = l.x[r]

/-- The byte a byte-register number names (10_state.md R22): the register, and whether bits 15:8 of it. -/
def byteHome (r : RegNum) (rex : Bool) : RegNum × Bool :=
  if rex = false ∧ 4 ≤ r.val ∧ r.val < 8 then (⟨r.val - 4, by have := r.isLt; omega⟩, true) else (r, false)

/-- Bits 15:8 or bits 7:0 of a register. -/
def byteAt (l : LP) (h : RegNum × Bool) : Byte := (l.x[h.1] >>> (if h.2 then 8 else 0)).setWidth 8

/-- The two byte registers hold each other's bytes, every other byte 15:8 or 7:0 and all bits 63:16 are unchanged
(10_state.md R22, R24, 41_xchg.md R144, R145). -/
def swapped8 (a b : RegNum) (rex : Bool) (l m : LP) : Prop :=
  byteAt m (byteHome a rex) = byteAt l (byteHome b rex) ∧ byteAt m (byteHome b rex) = byteAt l (byteHome a rex) ∧
    (∀ h : RegNum × Bool, h ≠ byteHome a rex → h ≠ byteHome b rex → byteAt m h = byteAt l h) ∧
    ∀ r : RegNum, m.x[r] >>> 16 = l.x[r] >>> 16

/-- The linear address of byte `k` of the memory operand of an instruction of `len` bytes: the function the meaning
uses for it (41_xchg.md R149). -/
def operandAddr (s : State) (w : Width) (m : Mem) (len k : Nat) : Nat :=
  addrAt s.lp.mode (s.lp.operandFacts w m len).linear k

/-- The register that an operand of width `w` and number `r` is part of (10_state.md R22, R24). -/
def regHome (w : Width) (r : RegNum) (rex : Bool) : RegNum :=
  match w with
  | .w8 => (byteHome r rex).1
  | _ => r

/-- What a write of width `w` to the register operand `g` does to the rest of the register: the bits beside an 8-bit or
16-bit operand are unchanged, bits 63:32 beside a 32-bit operand are 0 (10_state.md R24). -/
def restOfRegister (w : Width) (g : RegNum) (rex : Bool) (l m : LP) : Prop :=
  match w with
  | .w8 => (∀ h : RegNum × Bool, h ≠ byteHome g rex → byteAt m h = byteAt l h) ∧
      m.x[regHome .w8 g rex] >>> 16 = l.x[regHome .w8 g rex] >>> 16
  | .w16 => m.x[g] >>> 16 = l.x[g] >>> 16
  | .w32 => m.x[g] >>> 32 = 0
  | .w64 => True

/-- The memory operand may be exchanged: its access meets no exception, none of its bytes is program text, and each has
a value (41_xchg.md R149, 20_memory.md R60, R62, R72). -/
def memReady (s : State) (w : Width) (m : Mem) (len : Nat) : Prop :=
  s.operandExceptions w m len = [] ∧
    ∀ k, k < w.bytes → s.inText (operandAddr s w m len k) = false ∧
      (s.readByte (operandAddr s w m len k)).isSome = true

/-- `t` is `s` after the exchange of the register `g` with the memory operand `m` by an instruction of `len` bytes
(41_xchg.md R149): the operand's bytes are the register's old value and the register holds what the bytes were; pc moves
past the instruction; every other byte, register, part of the register and field is unchanged, but for bits 63:32 of
the register beside a 32-bit operand, which are 0. Inside a transaction the shared memory is
unchanged, outside one the write buffer is (20_memory.md R65). -/
def memExchanged (s t : State) (w : Width) (g : RegNum) (rex : Bool) (m : Mem) (len : Nat) : Prop :=
  (∀ k, k < w.bytes → t.readByte (operandAddr s w m len k) = some (byteOf (s.lp.regRead w g rex) k)) ∧
    (∀ k, k < w.bytes → s.readByte (operandAddr s w m len k) = some (byteOf (t.lp.regRead w g rex) k)) ∧
    (∀ a, (∀ k, k < w.bytes → a ≠ operandAddr s w m len k) →
      t.readByte a = s.readByte a ∧ t.mem.read a = s.mem.read a) ∧
    (s.lp.rtmActive = true → t.mem = s.mem) ∧ (s.lp.rtmActive = false → t.lp.wbuf = s.lp.wbuf) ∧
    (∀ r : RegNum, r ≠ regHome w g rex → t.lp.x[r] = s.lp.x[r]) ∧ restOfRegister w g rex s.lp t.lp ∧
    t.lp.pc = pcAfter s.lp len ∧ onlyRegsPcWbuf s.lp t.lp ∧ othersUnchanged s t

/-- The two-byte base sum of 16-bit addressing (30_encoding.md R94). -/
def sum16 (lp : LP) : Base16 → BitVec 16
  | .bxSi => lp.x[3].setWidth 16 + lp.x[6].setWidth 16
  | .bxDi => lp.x[3].setWidth 16 + lp.x[7].setWidth 16
  | .bpSi => lp.x[5].setWidth 16 + lp.x[6].setWidth 16
  | .bpDi => lp.x[5].setWidth 16 + lp.x[7].setWidth 16
  | .si => lp.x[6].setWidth 16
  | .di => lp.x[7].setWidth 16
  | .bp => lp.x[5].setWidth 16
  | .bx => lp.x[3].setWidth 16

/-- A displacement at the address size: `sext` of one byte, or the full displacement (30_encoding.md R94, R95). -/
def dispAt (w : Nat) : Disp w → BitVec w
  | .none => 0
  | .d8 v => v.signExtend w
  | .full v => v

/-- The index of 32-bit addressing, `x[n][31:0]` times 1, 2, 4 or 8 (30_encoding.md R95). -/
def index32 (lp : LP) (i : Option RegNum) (scale : Fin 4) : BitVec 32 :=
  match i with
  | none => 0
  | some r => lp.x[r].setWidth 32 * BitVec.ofNat 32 (2 ^ scale.val)

/-- The index of 64-bit addressing, the full register times 1, 2, 4 or 8 (30_encoding.md R96). -/
def index64 (lp : LP) (i : Option RegNum) (scale : Fin 4) : BitVec 64 :=
  match i with
  | none => 0
  | some r => lp.x[r] * BitVec.ofNat 64 (2 ^ scale.val)

/-- A displacement of 64-bit addressing, sign-extended (30_encoding.md R96). -/
def disp64 : Disp 32 → BitVec 64
  | .none => 0
  | .d8 v => v.signExtend 64
  | .full v => v.signExtend 64

/-- The segment of a memory operand without an override (30_encoding.md R94 to R96): SS for the forms based on BP, EBP,
RBP, ESP and RSP, otherwise DS. -/
def namedSegment : Addr → SegReg
  | .ind16 b _ => if b ∈ [Base16.bpSi, .bpDi, .bp] then .ss else .ds
  | .ind b _ => if b ∈ ([4, 5] : List RegNum) then .ss else .ds
  | .sib b _ _ _ => if b ∈ ([4, 5] : List RegNum) then .ss else .ds
  | _ => .ds

/-- The segment-override bytes (30_encoding.md R82). -/
def segBytes : List Byte := [0x26#8, 0x2E#8, 0x36#8, 0x3E#8, 0x64#8, 0x65#8]

/-- Legacy prefixes as R82 admits them: each at most once, at most one segment override, in any order. -/
def legacyOnce (pre : List Byte) : Prop :=
  (∀ b ∈ pre, b ∈ [0x66#8, 0x67#8, 0xF0#8] ∨ b ∈ segBytes) ∧ pre.count 0x66#8 ≤ 1 ∧ pre.count 0x67#8 ≤ 1 ∧
    pre.count 0xF0#8 ≤ 1 ∧ pre.countP (fun b => decide (b ∈ segBytes)) ≤ 1

/-- No REX byte, or one in 64-bit mode (30_encoding.md R84). -/
def rexPart (c : CodeCtx) (rex : List Byte) : Prop :=
  rex = [] ∨ ∃ r : Byte, rex = [r] ∧ c.mode = .long64 ∧ r.toNat / 16 = 4

/-- The highest valid offset in the code segment: FFFFH in real-address and virtual-8086 mode, otherwise CS.limit
(00_scope.md R8, 40_xbegin.md R124). -/
def highestOffset (lp : LP) : Nat :=
  if lp.mode = .real ∨ lp.mode = .v8086 then 0xFFFF else lp.csLimit.toNat

/-- The byte at an address cannot be fetched: it is no byte of the program text or has no value, or the fetch crosses the
top of the address space, is not canonical, or lies above the code segment's highest valid offset (10_state.md R28,
70_reset_and_hazards.md R201). -/
def unfetchable (s : State) (a : Nat) : Prop :=
  s.inText a = false ∨ s.mem.read a = none ∨
    match s.lp.mode with
    | .long64 => 2 ^ 64 ≤ a ∨ ¬ highBitsEqual s.hw.vaBits (BitVec.ofNat 64 a)
    | _ => highestOffset s.lp < a

/-- `bytes` are at pc to be fetched: each is program text and may be fetched (10_state.md R28, 70_reset_and_hazards.md
R201). -/
def inPlace (s : State) (bytes : List Byte) : Prop :=
  ∀ k, k < bytes.length → s.mem.read (s.lp.pc.toNat + k) = bytes[k]? ∧ ¬ unfetchable s (s.lp.pc.toNat + k)

/-- The answer of an instruction with another set of other logical processors around it. -/
def withOthers (b a : List LP) : Result → Result
  | .next t => .next { t with before := b, after := a }
  | .fault f => .fault f
  | .refused r => .refused r

/-- The answer of an instruction with another flags value. -/
def withFlags (f : Nat) : Result → Result
  | .next t => .next { t with lp := { t.lp with flags := f } }
  | .fault e => .fault e
  | .refused r => .refused r

/-- The answer of an instruction with another privilege level. -/
def withCpl (c : Fin 4) : Result → Result
  | .next t => .next { t with lp := { t.lp with cpl := c } }
  | .fault e => .fault e
  | .refused r => .refused r

/-- Whether an instruction is an XCHG. -/
def isXchg : Instr → Bool
  | .xbeginRel16 _ _ => false
  | .xbeginRel32 _ _ => false
  | _ => true

end Sys2Proof.Machine
end

