-- ==== Sys2Proof/Certificates/Slice0/Obligations.lean ====
section
/-! DEFINITION. The statements for the provers, one `def Obligations.<Name> : Prop` each. -/

open Sys2Proof Sys2Proof.Machine

/-! ## Encoding -/

/-- Decoding an encoded well-formed instruction gives it back, with every operand at every value its encoding admits
(30_encoding.md R80 to R100).
The spec's own decisions it rests on: D3, D29. -/
def Obligations.EncodeThenDecodeGivesInstruction : Prop :=
  ∀ (c : CodeCtx) (i : Instr) (rest : List Byte), i.wf c = true → decode c (encode i ++ rest) = .ok (i, rest)

/-- Whatever the decoder reads is an instruction of the code segment it reads in (30_encoding.md R82 to R99). -/
def Obligations.DecodedInstructionsAreWellFormed : Prop :=
  ∀ (c : CodeCtx) (bytes : List Byte) (i : Instr) (rest : List Byte),
    decode c bytes = .ok (i, rest) → i.wf c = true

/-- The decoder takes exactly the instruction's bytes, prefixes included, and they are at most 12 (30_encoding.md
R81). -/
def Obligations.DecodeTakesTheInstructionsLength : Prop :=
  ∀ (c : CodeCtx) (bytes : List Byte) (i : Instr) (rest : List Byte), decode c bytes = .ok (i, rest) →
    i.len ≤ 12 ∧ ∃ taken, bytes = taken ++ rest ∧ taken.length = i.len

/-- A word of every row of the opcode table, written out from the encoding tables, decodes to the instruction it stands
for, with operands of every address size; each segment-override byte names its segment, F0 is LOCK, each REX bit
extends its field, and each `rm` of 16-bit addressing is its base sum (30_encoding.md R82 to R99; 95_test_vectors.md E1,
E2, E10, E13, E16, E19 to E21, E23, E25, E26, E28, E29, X16, X4, M5, M21). -/
def Obligations.SpecWordsDecode : Prop :=
  decode ⟨.long64, false⟩ [0xC7, 0xF8, 0x0A, 0, 0, 0] = .ok (.xbeginRel32 ⟨false, false, false⟩ 0x0A, []) ∧
    decode ⟨.long64, false⟩ [0x66, 0xC7, 0xF8, 0x10, 0] = .ok (.xbeginRel16 ⟨true, false, false⟩ 0x10, []) ∧
    decode ⟨.real, false⟩ [0x93] = .ok (.xchgAxR16 ⟨false, false, false⟩ 3, []) ∧
    decode ⟨.long64, false⟩ [0x66, 0x87, 0x4B, 0x04] =
      .ok (.xchgRm16R16 ⟨true, false, false⟩ (.mem ⟨false, none, .ind 3 (.d8 4)⟩) 1, []) ∧
    decode ⟨.long64, false⟩ [0x87, 0x0C, 0x9D, 0, 0x30, 0, 0] =
      .ok (.xchgRm32R32 ⟨false, false, false⟩ (.mem ⟨false, none, .sibAbs (some 3) 2 0x3000⟩) 1, []) ∧
    decode ⟨.long64, false⟩ [0x40, 0x86, 0xE0] = .ok (.xchgRm8R8Rex ⟨false, false, true⟩ (.reg 0) 4, []) ∧
    decode ⟨.long64, false⟩ [0x41, 0x90] = .ok (.xchgEaxR32 ⟨false, false, true⟩ 8, []) ∧
    decode ⟨.compat, false⟩ [0x66, 0x93] = .ok (.xchgEaxR32 ⟨true, false, false⟩ 3, []) ∧
    decode ⟨.long64, false⟩ [0x66, 0x48, 0x93] = .ok (.xchgRaxR64 ⟨true, false, true⟩ 3, []) ∧
    decode ⟨.protected32, true⟩ [0x86, 0x23] =
      .ok (.xchgRm8R8 ⟨false, false, false⟩ (.mem ⟨false, none, .ind 3 .none⟩) 4, []) ∧
    decode ⟨.long64, false⟩ [0x4C, 0x87, 0xC0] = .ok (.xchgRm64R64 ⟨false, false, true⟩ (.reg 0) 8, []) ∧
    decode ⟨.long64, false⟩ [0x67, 0x48, 0x87, 0x05, 0x10, 0, 0, 0] =
      .ok (.xchgRm64R64 ⟨false, false, true⟩ (.mem ⟨true, none, .ripRel 0x10⟩) 0, []) ∧
    decode ⟨.protected32, false⟩ [0x87, 0x42, 0x02] =
      .ok (.xchgRm16R16 ⟨false, false, false⟩ (.mem ⟨false, none, .ind16 .bpSi (.d8 2)⟩) 0, []) ∧
    decode ⟨.v8086, false⟩ [0x66, 0x67, 0x87, 0x05, 0, 0x30, 0, 0] =
      .ok (.xchgRm32R32 ⟨true, false, false⟩ (.mem ⟨true, none, .abs32 0x3000⟩) 0, []) ∧
    (∀ e, e ∈ [(0x26#8, SegReg.es), (0x2E#8, .cs), (0x36#8, .ss), (0x3E#8, .ds), (0x64#8, .fs), (0x65#8, .gs)] →
      decode ⟨.long64, false⟩ [e.1, 0x87, 0x03] =
        .ok (.xchgRm32R32 ⟨false, false, false⟩ (.mem ⟨false, some e.2, .ind 3 .none⟩) 0, [])) ∧
    decode ⟨.long64, false⟩ [0xF0, 0x87, 0x03] =
      .ok (.xchgRm32R32 ⟨false, true, false⟩ (.mem ⟨false, none, .ind 3 .none⟩) 0, []) ∧
    decode ⟨.long64, false⟩ [0x4A, 0x87, 0x04, 0x23] =
      .ok (.xchgRm64R64 ⟨false, false, true⟩ (.mem ⟨false, none, .sib 3 (some 12) 0 .none⟩) 0, []) ∧
    decode ⟨.long64, false⟩ [0x41, 0x87, 0x00] =
      .ok (.xchgRm32R32 ⟨false, false, true⟩ (.mem ⟨false, none, .ind 8 .none⟩) 0, []) ∧
    decode ⟨.long64, false⟩ [0x44, 0x87, 0x03] =
      .ok (.xchgRm32R32 ⟨false, false, true⟩ (.mem ⟨false, none, .ind 3 .none⟩) 8, []) ∧
    (∀ e, e ∈ [(0x40#8, Base16.bxSi), (0x41#8, .bxDi), (0x42#8, .bpSi), (0x43#8, .bpDi), (0x44#8, .si), (0x45#8, .di),
        (0x46#8, .bp), (0x47#8, .bx)] →
      decode ⟨.protected32, false⟩ [0x87, e.1, 0xFE] =
        .ok (.xchgRm16R16 ⟨false, false, false⟩ (.mem ⟨false, none, .ind16 e.2 (.d8 0xFE)⟩) 0, [])) ∧
    decode ⟨.protected32, false⟩ [0x87, 0x06, 0x34, 0x12] =
      .ok (.xchgRm16R16 ⟨false, false, false⟩ (.mem ⟨false, none, .abs16 0x1234⟩) 0, []) ∧
    decode ⟨.protected32, false⟩ [0x87, 0x87, 0x34, 0x12] =
      .ok (.xchgRm16R16 ⟨false, false, false⟩ (.mem ⟨false, none, .ind16 .bx (.full 0x1234)⟩) 0, [])

/-- Byte sequences that begin outside the opcode map are refused by name, not faulted: C7 without F8, F2 and F3, and every
other first byte (30_encoding.md R103, R82); what stands after prefixes is in MisusedPrefixesAreRefused.
The spec's own decisions it rests on: D1, D29. -/
def Obligations.OtherBytesAreRefused : Prop :=
  ∀ (c : CodeCtx) (b : Byte) (bs : List Byte),
    (b ≠ 0xF8 → decode c (0xC7 :: b :: bs) = .error .notXbegin) ∧
      decode c (0xF2 :: bs) = .error .repPfx ∧ decode c (0xF3 :: bs) = .error .repPfx ∧
      (b ∉ [0x26, 0x2E, 0x36, 0x3E, 0x64, 0x65, 0x66, 0x67, 0xF0, 0xF2, 0xF3, 0xC7, 0x86, 0x87] →
        b.toNat / 8 ≠ 0x12 → (c.mode = .long64 → b.toNat / 16 ≠ 4) → decode c (b :: bs) = .error (.opcode b))

/-! ## XBEGIN -/

/-- `canonical` is what its rule says: bits 63 down to VA_BITS - 1 are all equal (00_scope.md R12). -/
def Obligations.CanonicalMeansHighBitsEqual : Prop :=
  ∀ (vaBits : Nat) (a : Word), 1 ≤ vaBits → vaBits ≤ 64 → (canonical vaBits a = true ↔ highBitsEqual vaBits a)

/-- XBEGIN rel32 executed with RTM_NEST_COUNT = 0 and a fallback address that passes its check enters transactional
execution (40_xbegin.md R121, R122, R124): exactly the state the rules give. The test outside 64-bit mode is FFFFH in
real-address and virtual-8086 mode and CS.limit in protected and compatibility mode.
The spec's own decisions it rests on: D7, D13, D14. -/
def Obligations.XbeginRel32EntersTransaction : Prop :=
  ∀ (s : State) (p : Pfx) (imm : BitVec 32), s.hw.wf = true → s.hw.hasRtm = true → p.lock = false →
    s.lp.nestCount = 0 →
    (s.lp.mode = .long64 → highBitsEqual s.hw.vaBits (fallback64 s.lp (p.len + 6) (imm.signExtend 64)) →
      exec (.xbeginRel32 p imm) s =
        .next (enteredWith s (p.len + 6) (fallback64 s.lp (p.len + 6) (imm.signExtend 64)))) ∧
    (s.lp.mode ≠ .long64 →
      (match s.lp.mode with
        | .real => (fallback32 s.lp s.hw (p.len + 6) false imm).toNat ≤ 0xFFFF
        | .v8086 => (fallback32 s.lp s.hw (p.len + 6) false imm).toNat ≤ 0xFFFF
        | _ => (fallback32 s.lp s.hw (p.len + 6) false imm).toNat ≤ s.lp.csLimit.toNat) →
      exec (.xbeginRel32 p imm) s =
        .next (enteredWith s (p.len + 6) ((fallback32 s.lp s.hw (p.len + 6) false imm).setWidth 64)))

/-- XBEGIN rel16 executed with RTM_NEST_COUNT = 0 and a fallback address that passes its check enters transactional
execution (40_xbegin.md R120, R122, R124): exactly the state the rules give, with `Rel16Truncates` either way. The test
outside 64-bit mode is FFFFH in real-address and virtual-8086 mode and CS.limit in protected and compatibility mode.
The spec's own decisions it rests on: D3, D4, D7, D13, D14. -/
def Obligations.XbeginRel16EntersTransaction : Prop :=
  ∀ (s : State) (p : Pfx) (imm : BitVec 16), s.hw.wf = true → s.hw.hasRtm = true → p.lock = false →
    s.lp.nestCount = 0 →
    (s.lp.mode = .long64 → highBitsEqual s.hw.vaBits (fallback64 s.lp (p.len + 4) (imm.signExtend 64)) →
      exec (.xbeginRel16 p imm) s =
        .next (enteredWith s (p.len + 4) (fallback64 s.lp (p.len + 4) (imm.signExtend 64)))) ∧
    (s.lp.mode ≠ .long64 →
      (match s.lp.mode with
        | .real => (fallback32 s.lp s.hw (p.len + 4) true (imm.signExtend 32)).toNat ≤ 0xFFFF
        | .v8086 => (fallback32 s.lp s.hw (p.len + 4) true (imm.signExtend 32)).toNat ≤ 0xFFFF
        | _ => (fallback32 s.lp s.hw (p.len + 4) true (imm.signExtend 32)).toNat ≤ s.lp.csLimit.toNat) →
      exec (.xbeginRel16 p imm) s =
        .next (enteredWith s (p.len + 4) ((fallback32 s.lp s.hw (p.len + 4) true (imm.signExtend 32)).setWidth 64)))

/-- The outermost XBEGIN raises #GP(0) where its fallback address fails the test of its mode, and changes nothing else
(40_xbegin.md R129, R124, R132): above CS.limit in protected and compatibility mode, above FFFFH in real-address and
virtual-8086 mode, not canonical in 64-bit mode. An XBEGIN that is not the outermost one raises none.
The spec's own decisions it rests on: D4, D7, D8, D9, D16 (what raising leaves). -/
def Obligations.XbeginBadFallbackRaisesGp : Prop :=
  ∀ (s : State) (p : Pfx), s.hw.wf = true → s.hw.hasRtm = true → p.lock = false →
    (s.lp.nestCount = 0 → ∀ imm : BitVec 32,
      (match s.lp.mode with
        | .long64 => ¬ highBitsEqual s.hw.vaBits (fallback64 s.lp (p.len + 6) (imm.signExtend 64))
        | .real => 0xFFFF < (fallback32 s.lp s.hw (p.len + 6) false imm).toNat
        | .v8086 => 0xFFFF < (fallback32 s.lp s.hw (p.len + 6) false imm).toNat
        | _ => s.lp.csLimit.toNat < (fallback32 s.lp s.hw (p.len + 6) false imm).toNat) →
      exec (.xbeginRel32 p imm) s = .next (recorded s .gp (some 0))) ∧
    (s.lp.nestCount = 0 → ∀ imm : BitVec 16,
      (match s.lp.mode with
        | .long64 => ¬ highBitsEqual s.hw.vaBits (fallback64 s.lp (p.len + 4) (imm.signExtend 64))
        | .real => 0xFFFF < (fallback32 s.lp s.hw (p.len + 4) true (imm.signExtend 32)).toNat
        | .v8086 => 0xFFFF < (fallback32 s.lp s.hw (p.len + 4) true (imm.signExtend 32)).toNat
        | _ => s.lp.csLimit.toNat < (fallback32 s.lp s.hw (p.len + 4) true (imm.signExtend 32)).toNat) →
      exec (.xbeginRel16 p imm) s = .next (recorded s .gp (some 0))) ∧
    (s.lp.nestCount ≠ 0 → ∀ (imm16 : BitVec 16) (imm32 : BitVec 32) (t : State),
      exec (.xbeginRel16 p imm16) s = .next t ∨ exec (.xbeginRel32 p imm32) s = .next t → t.lp.fault = s.lp.fault)

/-- XBEGIN raises #UD, in every mode and before anything else, when HasRTM = 0 or with the LOCK prefix: the exception
without an error code is recorded and no other state changes (40_xbegin.md R128).
The spec's own decisions it rests on: D16 (what raising records). -/
def Obligations.XbeginWithoutRtmOrWithLockRaisesUd : Prop :=
  ∀ (s : State) (p : Pfx) (imm16 : BitVec 16) (imm32 : BitVec 32), s.hw.hasRtm = false ∨ p.lock = true →
    exec (.xbeginRel16 p imm16) s = .next (recorded s .ud none) ∧
      exec (.xbeginRel32 p imm32) s = .next (recorded s .ud none)

/-- A nested XBEGIN increments RTM_NEST_COUNT, sets pc to next_pc, and does nothing else, whatever its offset
(40_xbegin.md R123).
The spec's own decisions it rests on: D9. -/
def Obligations.NestedXbeginOnlyCounts : Prop :=
  ∀ (s : State) (p : Pfx) (imm16 : BitVec 16) (imm32 : BitVec 32), s.hw.hasRtm = true → p.lock = false →
    1 ≤ s.lp.nestCount → s.lp.nestCount < s.hw.maxNest →
    exec (.xbeginRel16 p imm16) s =
        .next { s with lp := { s.lp with nestCount := s.lp.nestCount + 1, pc := pcAfter s.lp (p.len + 4) } } ∧
      exec (.xbeginRel32 p imm32) s =
        .next { s with lp := { s.lp with nestCount := s.lp.nestCount + 1, pc := pcAfter s.lp (p.len + 6) } }

/-- An XBEGIN executed with RTM_NEST_COUNT = MAX_RTM_NEST_COUNT runs the abort procedure, its own immediate ignored; it is
never the outermost one (40_xbegin.md R126, R125).
The spec's own decision it rests on: D13; of register 0, whose value D11 and D12 leave free, only the restored half is
stated. -/
def Obligations.XbeginAtNestingLimitAborts : Prop :=
  ∀ (s : State) (p : Pfx), s.wf → s.hw.hasRtm = true → p.lock = false → s.lp.nestCount = s.hw.maxNest →
    s.lp.rtmActive = true ∧ ∃ t, abortedFrom s t ∧ (∀ imm : BitVec 16, exec (.xbeginRel16 p imm) s = .next t) ∧
      ∀ imm : BitVec 32, exec (.xbeginRel32 p imm) s = .next t

/-- What an XBEGIN below the nesting limit leaves unchanged: general registers, flags, other_regs, the environment, the
shared memory, every other logical processor; and but for the outermost one the fallback address, the checkpoint and
the write buffer (40_xbegin.md R122, R123, R130). -/
def Obligations.XbeginFrame : Prop :=
  ∀ (i : Instr) (s t : State), isXchg i = false → s.lp.nestCount < s.hw.maxNest → exec i s = .next t →
    t.lp.x = s.lp.x ∧ t.lp.flags = s.lp.flags ∧ t.lp.otherRegs = s.lp.otherRegs ∧
      t.lp.environment = s.lp.environment ∧ t.mem = s.mem ∧ othersUnchanged s t ∧ t.draws = s.draws ∧
      (s.lp.nestCount ≠ 0 → t.lp.fallback = s.lp.fallback ∧ t.lp.checkpoint = s.lp.checkpoint ∧
        t.lp.wbuf = s.lp.wbuf ∧ t.lp.rtmActive = s.lp.rtmActive)

/-! ## XCHG of registers -/

/-- XCHG AX, r16 exchanges AX with the register, bits 63:16 unchanged; register 0 with itself changes nothing
(41_xchg.md R141).
The spec's own decisions it rests on: D27, D28. -/
def Obligations.XchgAxSwaps : Prop :=
  ∀ (s : State) (p : Pfx) (r : RegNum), p.lock = false →
    ∃ t, exec (.xchgAxR16 p r) s = .next t ∧ onlyRegistersAfter s t (p.len + 1) ∧ swapped16 0 r s.lp t.lp

/-- XCHG EAX, r32 exchanges EAX with the register and clears bits 63:32 of both; with register 0 it writes no register
(41_xchg.md R142, 30_encoding.md R101).
The spec's own decisions it rests on: D27, D28. -/
def Obligations.XchgEaxSwaps : Prop :=
  ∀ (s : State) (p : Pfx) (r : RegNum), p.lock = false →
    ∃ t, exec (.xchgEaxR32 p r) s = .next t ∧ onlyRegistersAfter s t (p.len + 1) ∧
      (if r = 0 then t.lp.x = s.lp.x else swapped32 0 r s.lp t.lp)

/-- XCHG RAX, r64 exchanges RAX with the register (41_xchg.md R143).
The spec's own decisions it rests on: D28. -/
def Obligations.XchgRaxSwaps : Prop :=
  ∀ (s : State) (p : Pfx) (r : RegNum), p.lock = false →
    ∃ t, exec (.xchgRaxR64 p r) s = .next t ∧ onlyRegistersAfter s t (p.len + 1) ∧ swapped64 0 r s.lp t.lp

/-- XCHG r/m8, r8 of two byte registers, without and with REX, exchanges the two bytes the numbers name and nothing else
(41_xchg.md R144, R145, 10_state.md R22).
The spec's own decisions it rests on: D27. -/
def Obligations.XchgByteRegistersSwap : Prop :=
  ∀ (s : State) (p : Pfx) (a g : RegNum), p.lock = false →
    (∃ t, exec (.xchgRm8R8 p (.reg a) g) s = .next t ∧ onlyRegistersAfter s t (p.len + 2) ∧
      swapped8 a g false s.lp t.lp) ∧
    ∃ t, exec (.xchgRm8R8Rex p (.reg a) g) s = .next t ∧ onlyRegistersAfter s t (p.len + 2) ∧
      swapped8 a g true s.lp t.lp

/-- XCHG of two registers by opcode 87 at 16, 32 and 64 bits; at 32 bits both end with bits 63:32 equal to 0, also when
they are the same register (41_xchg.md R146, R147, R148).
The spec's own decisions it rests on: D27. -/
def Obligations.XchgWideRegistersSwap : Prop :=
  ∀ (s : State) (p : Pfx) (a g : RegNum), p.lock = false →
    (∃ t, exec (.xchgRm16R16 p (.reg a) g) s = .next t ∧ onlyRegistersAfter s t (p.len + 2) ∧
      swapped16 a g s.lp t.lp) ∧
    (∃ t, exec (.xchgRm32R32 p (.reg a) g) s = .next t ∧ onlyRegistersAfter s t (p.len + 2) ∧
      swapped32 a g s.lp t.lp) ∧
    ∃ t, exec (.xchgRm64R64 p (.reg a) g) s = .next t ∧ onlyRegistersAfter s t (p.len + 2) ∧ swapped64 a g s.lp t.lp

/-- Which of two registers is called destination does not matter: the exchange is symmetric (41_xchg.md R140). -/
def Obligations.XchgOfRegistersIsSymmetric : Prop :=
  ∀ (s : State) (p : Pfx) (a g : RegNum),
    exec (.xchgRm8R8 p (.reg a) g) s = exec (.xchgRm8R8 p (.reg g) a) s ∧
      exec (.xchgRm8R8Rex p (.reg a) g) s = exec (.xchgRm8R8Rex p (.reg g) a) s ∧
      exec (.xchgRm16R16 p (.reg a) g) s = exec (.xchgRm16R16 p (.reg g) a) s ∧
      exec (.xchgRm32R32 p (.reg a) g) s = exec (.xchgRm32R32 p (.reg g) a) s ∧
      exec (.xchgRm64R64 p (.reg a) g) s = exec (.xchgRm64R64 p (.reg g) a) s

/-- The LOCK prefix without a memory operand raises #UD in every mode: format O, register 0 included, and two register
operands; the exception is recorded and nothing else changes (41_xchg.md R152).
The spec's own decisions it rests on: D16, D33. -/
def Obligations.XchgLockWithoutMemoryRaisesUd : Prop :=
  ∀ (s : State) (p : Pfx) (a g : RegNum), p.lock = true →
    exec (.xchgAxR16 p g) s = .next (recorded s .ud none) ∧ exec (.xchgEaxR32 p g) s = .next (recorded s .ud none) ∧
      exec (.xchgRaxR64 p g) s = .next (recorded s .ud none) ∧
      exec (.xchgRm8R8 p (.reg a) g) s = .next (recorded s .ud none) ∧
      exec (.xchgRm8R8Rex p (.reg a) g) s = .next (recorded s .ud none) ∧
      exec (.xchgRm16R16 p (.reg a) g) s = .next (recorded s .ud none) ∧
      exec (.xchgRm32R32 p (.reg a) g) s = .next (recorded s .ud none) ∧
      exec (.xchgRm64R64 p (.reg a) g) s = .next (recorded s .ud none)

/-! ## XCHG with memory -/

/-- XCHG with a memory operand whose access is allowed exchanges the register with the operand's bytes in one step, at
every width, alignment and addressing form, inside and outside a transaction, with and without LOCK (41_xchg.md R149,
R144 to R148, 20_memory.md R63 to R66).
The spec's own decisions it rests on: D2, D14, D21, D23, D27; the model's: log entries 5, 14, 15. -/
def Obligations.XchgMemoryExchanges : Prop :=
  ∀ (s : State) (p : Pfx) (m : Mem) (g : RegNum),
    (memReady s .w8 m (Instr.xchgRm8R8 p (.mem m) g).len →
      ∃ t, exec (.xchgRm8R8 p (.mem m) g) s = .next t ∧
        memExchanged s t .w8 g false m (Instr.xchgRm8R8 p (.mem m) g).len) ∧
    (memReady s .w8 m (Instr.xchgRm8R8Rex p (.mem m) g).len →
      ∃ t, exec (.xchgRm8R8Rex p (.mem m) g) s = .next t ∧
        memExchanged s t .w8 g true m (Instr.xchgRm8R8Rex p (.mem m) g).len) ∧
    (memReady s .w16 m (Instr.xchgRm16R16 p (.mem m) g).len →
      ∃ t, exec (.xchgRm16R16 p (.mem m) g) s = .next t ∧
        memExchanged s t .w16 g p.rex m (Instr.xchgRm16R16 p (.mem m) g).len) ∧
    (memReady s .w32 m (Instr.xchgRm32R32 p (.mem m) g).len →
      ∃ t, exec (.xchgRm32R32 p (.mem m) g) s = .next t ∧
        memExchanged s t .w32 g p.rex m (Instr.xchgRm32R32 p (.mem m) g).len) ∧
    (memReady s .w64 m (Instr.xchgRm64R64 p (.mem m) g).len →
      ∃ t, exec (.xchgRm64R64 p (.mem m) g) s = .next t ∧
        memExchanged s t .w64 g true m (Instr.xchgRm64R64 p (.mem m) g).len)

/-- What an XCHG that answers a next state leaves unchanged, faulting forms included: flags, other_regs, the environment,
the RTM state but for the write buffer, every other logical processor; without a memory operand also the shared memory
and the write buffer (41_xchg.md R151, R155, R158).
The spec's own decisions it rests on: D16. -/
def Obligations.XchgFrame : Prop :=
  ∀ (i : Instr) (s t : State), isXchg i = true → exec i s = .next t →
    flagsUnaffected s t ∧ t.lp.otherRegs = s.lp.otherRegs ∧ t.lp.environment = s.lp.environment ∧
      t.lp.nestCount = s.lp.nestCount ∧ t.lp.rtmActive = s.lp.rtmActive ∧ t.lp.fallback = s.lp.fallback ∧
      t.lp.checkpoint = s.lp.checkpoint ∧ othersUnchanged s t ∧
      (t.lp.fault ≠ s.lp.fault → t.lp.x = s.lp.x ∧ t.lp.pc = s.lp.pc ∧ t.mem = s.mem ∧ t.lp.wbuf = s.lp.wbuf) ∧
      ((∀ p r, i = .xchgAxR16 p r ∨ i = .xchgEaxR32 p r ∨ i = .xchgRaxR64 p r → t.mem = s.mem ∧ t.lp.wbuf = s.lp.wbuf) ∧
        ∀ p a g, i = .xchgRm8R8 p (.reg a) g ∨ i = .xchgRm8R8Rex p (.reg a) g ∨ i = .xchgRm16R16 p (.reg a) g ∨
            i = .xchgRm32R32 p (.reg a) g ∨ i = .xchgRm64R64 p (.reg a) g →
          t.mem = s.mem ∧ t.lp.wbuf = s.lp.wbuf)

/-- The exceptions of a memory operand, by mode, are those of the tables, each under its condition and with its error
code (41_xchg.md R154, 20_memory.md R60, 60_exceptions.md R174 to R177). In 64-bit mode the canonical form is asked of
the operand's first byte alone, the model's choice (log entry 20).
The spec's own decisions it rests on: D7, D21, D22. -/
def Obligations.MemoryExceptionTable : Prop :=
  ∀ (hw : Hw) (lp : LP) (seg : SegReg) (f : AccessFacts) (n : Nat) (e : Exc),
    e ∈ accessExceptions hw lp seg f n ↔
      match lp.mode with
      | .real => (e = ⟨.gp, none⟩ ∧ seg ≠ .ss ∧ f.outsideLimit = true) ∨ (e = ⟨.ss, none⟩ ∧ seg = .ss ∧ f.outsideLimit = true)
      | .v8086 =>
        (e = ⟨.gp, some 0⟩ ∧ seg ≠ .ss ∧ f.outsideLimit = true) ∨
          (e = ⟨.ss, some 0⟩ ∧ seg = .ss ∧ f.outsideLimit = true) ∨
          (∃ code, e = ⟨.pf, some code⟩ ∧ f.pageFault = some code) ∨
          (e = ⟨.ac, some 0⟩ ∧ lp.alignCheck = true ∧ f.linear.toNat % n ≠ 0)
      | .long64 =>
        (e = ⟨.gp, some 0⟩ ∧ seg ≠ .ss ∧ canonical hw.vaBits f.linear = false) ∨
          (e = ⟨.ss, some 0⟩ ∧ seg = .ss ∧ canonical hw.vaBits f.linear = false) ∨
          (∃ code, e = ⟨.pf, some code⟩ ∧ f.pageFault = some code) ∨
          (e = ⟨.ac, some 0⟩ ∧ lp.alignCheck = true ∧ lp.cpl = 3 ∧ f.linear.toNat % n ≠ 0)
      | _ =>
        (e = ⟨.gp, some 0⟩ ∧ (f.nonWritable = true ∨ (seg ≠ .ss ∧ f.outsideLimit = true) ∨
            (seg ∈ [SegReg.ds, .es, .fs, .gs] ∧ f.nullSelector = true))) ∨
          (e = ⟨.ss, some 0⟩ ∧ seg = .ss ∧ f.outsideLimit = true) ∨
          (∃ code, e = ⟨.pf, some code⟩ ∧ f.pageFault = some code) ∨
          (e = ⟨.ac, some 0⟩ ∧ lp.alignCheck = true ∧ lp.cpl = 3 ∧ f.linear.toNat % n ≠ 0)

/-- XCHG with a memory operand that meets exceptions records one of them, the only one where there is one, and changes
nothing else but the counter of draws (41_xchg.md R149, R155, 60_exceptions.md R171, R180).
The spec's own decisions it rests on: D16, D18. -/
def Obligations.XchgMemoryExceptionIsRecorded : Prop :=
  ∀ (s : State) (w : Width) (p : Pfx) (m : Mem) (g : RegNum) (i : Instr),
    (w = .w8 ∧ (i = .xchgRm8R8 p (.mem m) g ∨ i = .xchgRm8R8Rex p (.mem m) g)) ∨
      (w = .w16 ∧ i = .xchgRm16R16 p (.mem m) g) ∨ (w = .w32 ∧ i = .xchgRm32R32 p (.mem m) g) ∨
      (w = .w64 ∧ i = .xchgRm64R64 p (.mem m) g) →
    s.operandExceptions w m i.len ≠ [] →
    ∃ e d, e ∈ s.operandExceptions w m i.len ∧ exec i s = .next (recorded { s with draws := d } e.name e.code) ∧
      (s.operandExceptions w m i.len = [e] → d = s.draws)

/-- XCHG with an allowed memory operand stops where the operand is no plain memory: on program text it is refused
(20_memory.md R72), and where a byte is outside the launch memory it is stuck (20_memory.md R62, R73). That one with a
byte of each kind is refused is the model's choice (log entry 33).
The spec's own decisions it rests on: D20, D24. -/
def Obligations.XchgMemoryStops : Prop :=
  ∀ (s : State) (w : Width) (p : Pfx) (m : Mem) (g : RegNum) (i : Instr),
    (w = .w8 ∧ (i = .xchgRm8R8 p (.mem m) g ∨ i = .xchgRm8R8Rex p (.mem m) g)) ∨
      (w = .w16 ∧ i = .xchgRm16R16 p (.mem m) g) ∨ (w = .w32 ∧ i = .xchgRm32R32 p (.mem m) g) ∨
      (w = .w64 ∧ i = .xchgRm64R64 p (.mem m) g) →
    s.operandExceptions w m i.len = [] →
    ((∃ k, k < w.bytes ∧ s.inText (operandAddr s w m i.len k) = true) → exec i s = .refused .textOverlap) ∧
      ((∀ k, k < w.bytes → s.inText (operandAddr s w m i.len k) = false) →
        (∃ k, k < w.bytes ∧ s.readByte (operandAddr s w m i.len k) = none) → exec i s = .fault .outsideMemory)

/-- Effective addresses of 16-bit addressing are sums modulo 2^16 (30_encoding.md R94, R97).
The spec's own decisions it rests on: D34. -/
def Obligations.EffectiveAddress16 : Prop :=
  ∀ (lp : LP) (len : Nat) (a67 : Bool) (seg : Option SegReg), addressSize lp.ctx a67 = .a16 →
    (∀ b d, lp.effAddr len ⟨a67, seg, .ind16 b d⟩ = (sum16 lp b + dispAt 16 d).setWidth 64) ∧
      ∀ v, lp.effAddr len ⟨a67, seg, .abs16 v⟩ = v.setWidth 64

/-- Effective addresses of 32-bit addressing are sums modulo 2^32, in 64-bit mode with the prefix 67 included
(30_encoding.md R95, R96, R97).
The spec's own decisions it rests on: D34. -/
def Obligations.EffectiveAddress32 : Prop :=
  ∀ (lp : LP) (len : Nat) (a67 : Bool) (seg : Option SegReg), addressSize lp.ctx a67 = .a32 →
    (∀ b d, lp.effAddr len ⟨a67, seg, .ind b d⟩ = (lp.x[b].setWidth 32 + dispAt 32 d).setWidth 64) ∧
      (∀ v, lp.effAddr len ⟨a67, seg, .abs32 v⟩ = v.setWidth 64) ∧
      (∀ b i sc d, lp.effAddr len ⟨a67, seg, .sib b i sc d⟩ =
        (lp.x[b].setWidth 32 + index32 lp i sc + dispAt 32 d).setWidth 64) ∧
      (∀ i sc v, lp.effAddr len ⟨a67, seg, .sibAbs i sc v⟩ = (index32 lp i sc + v).setWidth 64) ∧
      (lp.mode = .long64 → ∀ v, lp.effAddr len ⟨a67, seg, .ripRel v⟩ =
        ((lp.pc + BitVec.ofNat 64 len + v.signExtend 64).setWidth 32).setWidth 64)

/-- Effective addresses of 64-bit addressing: full registers, displacements sign-extended, sums modulo 2^64, the
instruction-pointer-relative form counted from the next instruction (30_encoding.md R96).
The spec's own decisions it rests on: D34. -/
def Obligations.EffectiveAddress64 : Prop :=
  ∀ (lp : LP) (len : Nat) (a67 : Bool) (seg : Option SegReg), addressSize lp.ctx a67 = .a64 →
    (∀ b d, lp.effAddr len ⟨a67, seg, .ind b d⟩ = lp.x[b] + disp64 d) ∧
      (∀ b i sc d, lp.effAddr len ⟨a67, seg, .sib b i sc d⟩ = lp.x[b] + index64 lp i sc + disp64 d) ∧
      (∀ i sc v, lp.effAddr len ⟨a67, seg, .sibAbs i sc v⟩ = index64 lp i sc + v.signExtend 64) ∧
      ∀ v, lp.effAddr len ⟨a67, seg, .ripRel v⟩ = pcAfter lp len + v.signExtend 64

/-- The segment of a memory operand is the override's where there is one, otherwise SS for the forms based on BP, EBP,
RBP, ESP or RSP and DS for the others (30_encoding.md R94 to R96, R98). -/
def Obligations.SegmentOfAnOperand : Prop :=
  ∀ (m : Mem), (∀ g, m.seg = some g → segOf m = g) ∧ (m.seg = none → segOf m = namedSegment m.addr)

/-- A read of fewer bytes at or inside what was just written sees those bytes of the value: little-endian, at every
mode and inside and outside a transaction (20_memory.md R53, R54, R55).
The spec's own decisions it rests on: D2, D14. -/
def Obligations.ReadAfterWriteSeesTheBytes : Prop :=
  ∀ (s : State) (la v : Word) (w : Width),
    (s.memWrite la w.bytes v).memRead la w.bytes = some (w.trunc v) ∧
      (s.memWrite la 4 v).memRead la 2 = some ((v.extractLsb' 0 16).setWidth 64) ∧
      (s.memWrite la 4 v).memRead (la + 3) 1 = some ((v.extractLsb' 24 8).setWidth 64) ∧
      (∀ a, (∀ k, k < w.bytes → a ≠ addrAt s.lp.mode la k) → (s.memWrite la w.bytes v).readByte a = s.readByte a)

/-! ## Flags, privilege, isolation -/

/-- XCHG affects no flag and reads none: with another flags value it does the same and leaves that value (41_xchg.md
R151). -/
def Obligations.XchgNeitherAffectsNorReadsFlags : Prop :=
  ∀ (i : Instr) (s : State) (f : Nat), isXchg i = true →
    (∀ t, exec i s = .next t → flagsUnaffected s t) ∧
      exec i { s with lp := { s.lp with flags := f } } = withFlags f (exec i s)

/-- No instruction is privileged: XBEGIN does the same at every privilege level, and so does XCHG where no alignment
check asks for the level: with alignment checking off, and in real-address and virtual-8086 mode (60_exceptions.md R186,
R177, 41_xchg.md R157).
The spec's own decisions it rests on: D22. -/
def Obligations.PrivilegeLevelMattersOnlyForAlignment : Prop :=
  ∀ (i : Instr) (s : State) (c : Fin 4),
    isXchg i = false ∨ s.lp.alignCheck = false ∨ s.lp.mode = .real ∨ s.lp.mode = .v8086 →
    exec i { s with lp := { s.lp with cpl := c } } = withCpl c (exec i s)

/-- What an instruction does is independent of the other logical processors' state, their write buffers and checkpoints
included: they share memory and nothing else (20_memory.md R68, 60_exceptions.md R189).
The spec's own decisions it rests on: D14, D35. -/
def Obligations.ExecutionIgnoresOtherProcessors : Prop :=
  ∀ (i : Instr) (s : State) (b a : List LP),
    exec i { s with before := b, after := a } = withOthers b a (exec i s)

/-- A logical processor inside a transaction never writes the shared memory (20_memory.md R65).
The spec's own decisions it rests on: D14. -/
def Obligations.TransactionsWriteNoSharedMemory : Prop :=
  ∀ (i : Instr) (s t : State), s.lp.rtmActive = true → exec i s = .next t → t.mem = s.mem

/-- Two exchanges at the same place by two logical processors outside transactions: the later one gets what the earlier
one wrote, so of two that exchange a 1 with a 0 exactly one gets the 0 (20_memory.md R70, 41_xchg.md R159).
The spec's own decisions it rests on: D19, D23. -/
def Obligations.LaterExchangeReadsTheEarlier : Prop :=
  ∀ (s t v : State) (l : LP) (w : Width) (g h : RegNum) (rex rex' : Bool) (la : Word) (len len' : Nat),
    s.lp.rtmActive = false → l.rtmActive = false → l.mode = s.lp.mode →
    s.exchange w g rex la len = .next t → (t.withLp l).exchange w h rex' la len' = .next v →
    v.lp.regRead w h rex' = s.lp.regRead w g rex ∧
      (w = .w32 → s.lp.regRead w g rex = 1 → l.regRead w h rex' = 1 → s.memRead la 4 = some 0 →
        t.lp.regRead w g rex = 0 ∧ v.lp.regRead w h rex' = 1 ∧ v.memRead la 4 = some 1)

/-! ## The step -/

/-- A step runs the decoded instruction: on the chosen logical processor's turn, when the bytes at its pc decode to `i`,
the step is `exec i` of the state with that processor in focus; with one logical processor outside a transaction that
is the state itself (70_reset_and_hazards.md R204). Where every byte of an instruction is program text at pc and may be
fetched, the instruction at pc is that one, and the step runs it (10_state.md R28).
The spec's own decisions it rests on: D7, D19, D20. -/
def Obligations.StepRunsTheDecodedInstruction : Prop :=
  (∀ (s u : State) (i : Instr) (rest : List Byte), s.nextMove = .instrStep u →
    decode u.lp.ctx u.window = .ok (i, rest) → step s = exec i u) ∧
  (∀ (s : State) (i : Instr) (rest : List Byte), s.before = [] → s.after = [] → s.lp.fault = none →
    s.lp.rtmActive = false → s.lp.pc ≠ s.endAddr → decode s.lp.ctx s.window = .ok (i, rest) → step s = exec i s) ∧
  ∀ (s : State) (bytes : List Byte) (i : Instr), s.hw.wf = true → decode s.lp.ctx bytes = .ok (i, []) →
    inPlace s bytes → s.instrStep = exec i s ∧
      (s.before = [] → s.after = [] → s.lp.fault = none → s.lp.rtmActive = false → s.lp.pc ≠ s.endAddr →
        step s = exec i s)

/-- Inside a transaction the abort is the step at EndAddr and wherever the instruction is stuck; anywhere else the step is
an abort or the instruction at pc (40_xbegin.md R127, 70_reset_and_hazards.md R204, R205). For one logical processor.
The spec's own decisions it rests on: D10, D25. -/
def Obligations.StepsInsideATransaction : Prop :=
  ∀ (s : State), s.before = [] → s.after = [] → s.lp.fault = none → s.lp.rtmActive = true →
    (s.lp.pc = s.endAddr ∨ s.instrStep = .fault .outsideMemory → ∃ t, step s = .next t ∧ abortedFrom s t) ∧
    (∀ t, step s = .next t → abortedFrom s t ∨
      ∃ i rest d, decode s.lp.ctx s.window = .ok (i, rest) ∧ exec i { s with draws := d } = .next t) ∧
    ∀ f, step s ≠ .fault f

/-- The machine stops in a fault exactly when no logical processor has an enabled step, and the fault says why: every one
has ended; one is stuck outside the launch memory; or each has faulted or ended, and one has faulted. A refusal is that
of the InstrStep of a logical processor that has an enabled step (70_reset_and_hazards.md R204, R205, 00_scope.md R11,
20_memory.md R62).
The spec's own decisions it rests on: D16, D24, D25. -/
def Obligations.MachineStopsExactlyWhenNoneCanMove : Prop :=
  ∀ (s : State),
    ((∃ f, step s = .fault f) ↔ ∀ k, k < s.all.length → blocked (s.focus k)) ∧
    (step s = .fault .runEnded ↔ ∀ l ∈ s.all, l.pc = s.endAddr ∧ l.rtmActive = false ∧ l.fault = none) ∧
    (step s = .fault .outsideMemory ↔
      (∀ k, k < s.all.length → blocked (s.focus k)) ∧ ∃ k, k < s.all.length ∧ stuckOutside (s.focus k)) ∧
    (step s = .fault .allStopped ↔
      (∀ l ∈ s.all, l.fault ≠ none ∨ (l.pc = s.endAddr ∧ l.rtmActive = false)) ∧ ∃ l ∈ s.all, l.fault ≠ none) ∧
    ∀ r, step s = .refused r → ∃ k d : Nat, k < s.all.length ∧ fetches (s.focus k) ∧ ¬ blocked (s.focus k) ∧
      ({ s.focus k with draws := d } : State).instrStep = .refused r

/-- A logical processor whose fault is set takes no further step: it stays as it is, its fault never cleared
(60_exceptions.md R171, 10_state.md R41).
The spec's own decisions it rests on: D16. -/
def Obligations.FaultedProcessorsStayAsTheyAre : Prop :=
  ∀ (s t : State) (k : Nat) (l : LP), step s = .next t → s.all[k]? = some l → l.fault ≠ none → t.all[k]? = some l

/-- A step changes at most one logical processor (70_reset_and_hazards.md R204, 60_exceptions.md R189).
The spec's own decisions it rests on: D19, D35. -/
def Obligations.AStepChangesAtMostOneProcessor : Prop :=
  ∀ (s t : State), step s = .next t → t.all.length = s.all.length ∧ ∃ k : Nat, ∀ j : Nat, j ≠ k → t.all[j]? = s.all[j]?

/-- No step changes a constant of the hardware, the program text, EndAddr, or any logical processor's mode, code segment,
privilege level, alignment checking, segment and paging state (10_state.md R30 to R34, 60_exceptions.md R185).
The spec's own decisions it rests on: D22, D38. -/
def Obligations.StepKeepsTheMachine : Prop :=
  ∀ (s t : State), step s = .next t → sameMachine s t

/-- No step changes a byte of program text, and none adds an address to the shared memory or takes one away (20_memory.md
R72, R62).
The spec's own decisions it rests on: D20, D24. -/
def Obligations.StepKeepsTextAndLaunchAddresses : Prop :=
  ∀ (s t : State), step s = .next t →
    (∀ a, s.inText a = true → t.mem.read a = s.mem.read a) ∧
      ∀ a, (t.mem.read a).isSome = (s.mem.read a).isSome

/-- Every step keeps the invariant: RTM_ACTIVE = 1 exactly when RTM_NEST_COUNT >= 1, the count within its bound, memory
and write buffers canonical and empty outside transactions, pc[63:32] = 0 outside 64-bit mode, and inside a transaction
a fallback address that passed its check (10_state.md R39, R36, R38, R27).
The spec's own decisions it rests on: D5, D8, D14. -/
def Obligations.StepKeepsTheInvariant : Prop :=
  ∀ (s t : State), s.wf → step s = .next t → t.wf

/-- Every step keeps the program text out of the write buffers (20_memory.md R72).
The spec's own decisions it rests on: D20. -/
def Obligations.StepKeepsTextOutOfWriteBuffers : Prop :=
  ∀ (s t : State), s.textClean → step s = .next t → t.textClean

/-- The launch state the model resets to meets the launch premises on the launch state itself (NoFault, NotInTransaction,
ModeCoherent) and the invariants, and has the values that the table of launch values fixes (10_state.md R44,
70_reset_and_hazards.md R202). It places no program (log entry 19), so TextAdmitted, a premise on the program, is not
claimed of it. The other values are the model's choice (log entries 1 to 10) and none is stated here.
The spec's own decisions it rests on: D24. -/
def Obligations.ResetMeetsTheLaunchPremises : Prop :=
  State.reset.launchOk = true ∧ State.reset.wf ∧ State.reset.textClean ∧ State.reset.lp.nestCount = 0 ∧
    State.reset.lp.rtmActive = false ∧ State.reset.lp.wbuf = [] ∧ State.reset.lp.fault = none

/-- Nothing a transaction did survives its abort: from an outermost XBEGIN, however many steps the transaction takes, the
step that leaves it restores every register but register 0, flags and other_regs to their values at the XBEGIN, leaves
the shared memory as it was then, and continues at the fallback address computed there (40_xbegin.md R125, 20_memory.md
R67). For one logical processor.
The spec's own decisions it rests on: D13, D14, D15. -/
def Obligations.AbortedTransactionsLeaveNoTrace : Prop :=
  ∀ (s0 s1 t t' : State) (i : Instr) (n : Nat), s0.wf → s0.before = [] → s0.after = [] → isXchg i = false →
    s0.lp.nestCount = 0 → exec i s0 = .next s1 → s1.lp.rtmActive = true →
    (∀ m u, m ≤ n → Sys2Proof.core.run m s1 = .next u → u.lp.rtmActive = true) →
    Sys2Proof.core.run n s1 = .next t → step t = .next t' → t'.lp.rtmActive = false →
    (∀ r : RegNum, r ≠ 0 → t'.lp.x[r] = s0.lp.x[r]) ∧ t'.lp.flags = s0.lp.flags ∧
      t'.lp.otherRegs = s0.lp.otherRegs ∧ t'.mem = s0.mem ∧ t'.lp.pc = s1.lp.fallback ∧ t'.lp.wbuf = [] ∧
      t'.lp.nestCount = 0

/-- A fetch is refused where pc is no address of the program text, where outside 64-bit mode it lies above the highest
valid offset of the code segment, where in 64-bit mode it is not canonical, and where a later byte of the instruction
cannot be fetched: it is no program text, lies above that offset, is not canonical, or lies past the top of the address
space. Bytes that decode to nothing are refused as not admitted (10_state.md R28, 30_encoding.md R103). For one logical
processor outside a transaction.
The spec's own decisions it rests on: D1, D7, D20. -/
def Obligations.UnfetchableBytesAreRefused : Prop :=
  ∀ (s : State), s.before = [] → s.after = [] → s.lp.fault = none → s.lp.rtmActive = false → s.lp.pc ≠ s.endAddr →
    (s.inText s.lp.pc.toNat = false → step s = .refused .fetch) ∧
      (s.lp.mode ≠ .long64 → highestOffset s.lp < s.lp.pc.toNat → step s = .refused .fetch) ∧
      (s.lp.mode = .long64 → s.hw.wf = true → ¬ highBitsEqual s.hw.vaBits s.lp.pc → step s = .refused .fetch) ∧
      (∀ (bytes : List Byte) (i : Instr) (k : Nat), s.hw.wf = true → decode s.lp.ctx bytes = .ok (i, []) →
        k < bytes.length → (∀ j, j < k → s.mem.read (s.lp.pc.toNat + j) = bytes[j]?) →
        unfetchable s (s.lp.pc.toNat + k) → step s = .refused .fetch) ∧
      ∀ why, why ≠ .truncated → decode s.lp.ctx s.window = .error why → step s = .refused (.notAdmitted why)

/-! ## Operands, prefixes and runs -/

/-- The access of a memory operand is that of its segment, its effective address, computed with the instruction's own
length, and its width; its exceptions are those of the table for that access (41_xchg.md R149, 20_memory.md R60).
The spec's own decisions it rests on: D21. -/
def Obligations.OperandsGoThroughAccess : Prop :=
  ∀ (s : State) (w : Width) (m : Mem) (len : Nat),
    s.lp.operandFacts w m len = s.lp.accessFacts (segOf m) (s.lp.effAddr len m) w.bytes ∧
      s.operandExceptions w m len =
        accessExceptions s.hw s.lp (segOf m) (s.lp.accessFacts (segOf m) (s.lp.effAddr len m) w.bytes) w.bytes

/-- With the flat access model byte `k` of a memory operand is at the effective address plus `k`, modulo the width of the
mode's linear addresses, and the operand meets exactly the exceptions that R60 leaves the flat instance: in 64-bit mode
#SS(0) or #GP(0) for an address that is not canonical, and #AC(0) (20_memory.md R50, R58, R60, 41_xchg.md R154).
The spec's own decisions it rests on: D7, D21, D22; the model's: log entries 5, 20. -/
def Obligations.FlatOperandsAreAtTheirEffectiveAddress : Prop :=
  ∀ (s : State) (w : Width) (m : Mem) (len : Nat), s.hw.wf = true → s.lp.access = .flat →
    (∀ k, operandAddr s w m len k =
      ((s.lp.effAddr len m).toNat + k) % (if s.lp.mode = .long64 then 2 ^ 64 else 2 ^ 32)) ∧
    ∀ e, e ∈ s.operandExceptions w m len ↔
      (s.lp.mode = .long64 ∧ ¬ highBitsEqual s.hw.vaBits (s.lp.effAddr len m) ∧
          e = ⟨if segOf m = .ss then .ss else .gp, some 0⟩) ∨
        (e = ⟨.ac, some 0⟩ ∧ s.lp.alignCheck = true ∧ s.lp.mode ≠ .real ∧ (s.lp.mode = .v8086 ∨ s.lp.cpl = 3) ∧
          (s.lp.effAddr len m).toNat % w.bytes ≠ 0)

/-- With the segmented access model the linear address is the segment's base plus the effective address at the width of
the mode's linear addresses; the operand is outside the limit when its last byte is above it; a segment that is not
writable and a NULL selector are the record's; and a page fault is that of a listed range which holds a byte of the
operand, where there is one. CS is bounded as its fetches are. With the arbitrary access model the facts are the free
function's (20_memory.md R60). The formats are the model's choice: log entries 14, 15, 27. -/
def Obligations.SegmentedAccessFollowsTheRecords : Prop :=
  ∀ (lp : LP) (seg : SegReg) (ea : Word) (n : Nat),
    (∀ segs holes, lp.access = .segmented segs holes →
      let f := lp.accessFacts seg ea n
      let v := lp.segView segs seg
      f.linear = (if lp.mode = .long64 then v.base + ea else ((v.base + ea).setWidth 32).setWidth 64) ∧
        (f.outsideLimit = true ↔ v.bound < ea.toNat + n - 1) ∧ f.nonWritable = !v.writable ∧ f.nullSelector = v.null ∧
        (∀ code, f.pageFault = some code →
          ∃ h ∈ holes, h.code = code ∧ ∃ k, k < n ∧ h.region.has (addrAt lp.mode f.linear k) = true) ∧
        (f.pageFault = none → ∀ h ∈ holes, ∀ k, k < n → h.region.has (addrAt lp.mode f.linear k) = false) ∧
        v = match seg with
          | .cs => ⟨segs.cs.base, highestOffset lp, segs.cs.writable, false⟩
          | .ss => ⟨segs.ss.base, segs.ss.limit.toNat, segs.ss.writable, false⟩
          | .ds => ⟨segs.ds.base, segs.ds.limit.toNat, segs.ds.writable, segs.ds.null⟩
          | .es => ⟨segs.es.base, segs.es.limit.toNat, segs.es.writable, segs.es.null⟩
          | .fs => ⟨segs.fs.base, segs.fs.limit.toNat, segs.fs.writable, segs.fs.null⟩
          | .gs => ⟨segs.gs.base, segs.gs.limit.toNat, segs.gs.writable, segs.gs.null⟩) ∧
      ∀ key, lp.access = .arbitrary key →
        lp.accessFacts seg ea n =
          { Config.freeAccess key seg ea n with linear := linearOf lp.mode (Config.freeAccess key seg ea n).linear }

/-- A logical processor that has ended, or that is stuck outside the launch memory, takes no step: it stays as it is while
others move (70_reset_and_hazards.md R204, R205, 00_scope.md R11).
The spec's own decisions it rests on: D16, D24, D25. -/
def Obligations.EndedAndStuckProcessorsStayAsTheyAre : Prop :=
  ∀ (s t : State) (k : Nat) (l : LP), step s = .next t → s.all[k]? = some l →
    (l.pc = s.endAddr ∧ l.rtmActive = false) ∨ stuckOutside (s.focus k) → t.all[k]? = some l

/-- After legacy prefixes as R82 admits them and at most one REX byte where there is one: a repeated prefix, a second
segment override, 66 before opcode 86, 67 or a segment override before a form without a memory operand, F2 and F3, C7
without F8, and every other byte, a legacy prefix or a second REX byte after REX among them, are refused by name
(30_encoding.md R82, R83, R84, R103).
The spec's own decisions it rests on: D1, D29. -/
def Obligations.MisusedPrefixesAreRefused : Prop :=
  ∀ (c : CodeCtx) (pre rex bs : List Byte), legacyOnce pre → rexPart c rex →
    (∀ b, b ∈ [0x66#8, 0x67#8, 0xF0#8] → b ∈ pre → decode c (pre ++ b :: bs) = .error .repeatedPfx) ∧
    (∀ b, b ∈ segBytes → (∃ g ∈ pre, g ∈ segBytes) → decode c (pre ++ b :: bs) = .error .twoSegments) ∧
    (0x66#8 ∈ pre → decode c (pre ++ rex ++ 0x86#8 :: bs) = .error .pfxNotAdmitted) ∧
    ((0x67#8 ∈ pre ∨ ∃ g ∈ pre, g ∈ segBytes) →
      decode c (pre ++ rex ++ 0xC7#8 :: 0xF8#8 :: bs) = .error .pfxNotAdmitted ∧
        (∀ op : Byte, op.toNat / 8 = 0x12 → decode c (pre ++ rex ++ op :: bs) = .error .pfxNotAdmitted) ∧
        ∀ m : Byte, m.toNat / 64 = 3 →
          decode c (pre ++ rex ++ 0x86#8 :: m :: bs) = .error .pfxNotAdmitted ∧
            decode c (pre ++ rex ++ 0x87#8 :: m :: bs) = .error .pfxNotAdmitted) ∧
    decode c (pre ++ rex ++ 0xF2#8 :: bs) = .error .repPfx ∧ decode c (pre ++ rex ++ 0xF3#8 :: bs) = .error .repPfx ∧
    (∀ b : Byte, b ≠ 0xF8#8 → decode c (pre ++ rex ++ 0xC7#8 :: b :: bs) = .error .notXbegin) ∧
    ∀ op : Byte, op ∉ [0xC7#8, 0x86#8, 0x87#8, 0xF2#8, 0xF3#8] → op.toNat / 8 ≠ 0x12 →
      (rex = [] → op ∉ [0x66#8, 0x67#8, 0xF0#8] ∧ op ∉ segBytes ∧ (c.mode = .long64 → op.toNat / 16 ≠ 4)) →
      decode c (pre ++ rex ++ op :: bs) = .error (.opcode op)

/-- Operand size and address size in every mode, by CS.D and the prefixes (30_encoding.md R85, R86): in 64-bit mode from
REX.W, 66 and 67; elsewhere from CS.D and 66 or 67, CS.D counting as 0 in real-address and virtual-8086 mode. -/
def Obligations.OperandAndAddressSizes : Prop :=
  ∀ (d pfx w : Bool),
    operandSize ⟨.long64, d⟩ pfx w = (if w = true then .o64 else if pfx = true then .o16 else .o32) ∧
      addressSize ⟨.long64, d⟩ pfx = (if pfx = true then .a32 else .a64) ∧
      (∀ m, m ∈ [Mode.protected32, Mode.compat] →
        operandSize ⟨m, true⟩ pfx w = (if pfx = true then .o16 else .o32) ∧
          operandSize ⟨m, false⟩ pfx w = (if pfx = true then .o32 else .o16) ∧
          addressSize ⟨m, true⟩ pfx = (if pfx = true then .a16 else .a32) ∧
          addressSize ⟨m, false⟩ pfx = (if pfx = true then .a32 else .a16)) ∧
      ∀ m, m ∈ [Mode.real, Mode.v8086] →
        operandSize ⟨m, d⟩ pfx w = (if pfx = true then .o32 else .o16) ∧
          addressSize ⟨m, d⟩ pfx = (if pfx = true then .a32 else .a16)

/-- Every step of the machine is a step of the spec's relation: of one logical processor that is not faulted, an AbortStep
inside a transaction or an InstrStep away from EndAddr (70_reset_and_hazards.md R204).
The spec's own decisions it rests on: D10, D19. -/
def Obligations.EveryStepIsAStepOfTheRelation : Prop := ∀ (s t : State), step s = .next t → mayStep s t

/-- From a launch state that meets the premises TextAdmitted and TextImmutable no state of the run is refused, in any
schedule (70_reset_and_hazards.md R202, 00_scope.md R11).
The spec's own decisions it rests on: D1, D20, D24. -/
def Obligations.AdmittedRunsAreNeverRefused : Prop :=
  ∀ (s t : State), s.textAdmitted → s.textImmutable → Reached s t → ∀ r, step t ≠ .refused r

/-- Inside a transaction no step touches what its abort will use: a logical processor that stays inside keeps its
checkpoint and fallback address, one that leaves has the registers, flags and other_regs of the checkpoint but for register
0, its pc at the fallback address, an empty write buffer and the count 0; and a step that changes it leaves the shared
memory as it was (10_state.md R38, 40_xbegin.md R123, R125, 20_memory.md R65, R67).
The spec's own decisions it rests on: D13, D14, D15. -/
def Obligations.TransactionsKeepWhatTheirAbortUses : Prop :=
  ∀ (s t : State) (k : Nat) (l m : LP), s.wf → step s = .next t → s.all[k]? = some l → t.all[k]? = some m →
    l.rtmActive = true →
    (m.rtmActive = true → m.checkpoint = l.checkpoint ∧ m.fallback = l.fallback) ∧
      (m.rtmActive = false → (∀ r : RegNum, r ≠ 0 → m.x[r] = l.checkpoint.x[r]) ∧ m.flags = l.checkpoint.flags ∧
        m.otherRegs = l.checkpoint.otherRegs ∧ m.pc = l.fallback ∧ m.wbuf = [] ∧ m.nestCount = 0) ∧
      (m ≠ l → t.mem = s.mem)
end

