-- ==== Sys2Proof/Laws/Decode.lean ====
section
/-! SUPPORT. The pieces of the decoder read back the pieces of the encoder (30_encoding.md), one lemma per piece; and the
decoder's answer does not change when more bytes follow, so that an instruction cut short is truncated. -/

namespace Sys2Proof

/-! ## Fields -/

@[simp] theorem topField_fieldByte (t : Fin 4) (m l : Fin 8) : topField (fieldByte t m l) = t := by
  apply Fin.ext
  have := t.isLt; have := m.isLt; have := l.isLt
  simp only [topField, fieldByte, BitVec.toNat_ofNat]
  omega

@[simp] theorem midField_fieldByte (t : Fin 4) (m l : Fin 8) : midField (fieldByte t m l) = m := by
  apply Fin.ext
  have := t.isLt; have := m.isLt; have := l.isLt
  simp only [midField, fieldByte, BitVec.toNat_ofNat]
  omega

@[simp] theorem lowField_fieldByte (t : Fin 4) (m l : Fin 8) : lowField (fieldByte t m l) = l := by
  apply Fin.ext
  have := t.isLt; have := m.isLt; have := l.isLt
  simp only [lowField, fieldByte, BitVec.toNat_ofNat]
  omega

/-- A register number is its field with its REX bit. -/
@[simp] theorem extend_lowBits (r : RegNum) : extend (highBit r) (lowBits r) = r := by
  revert r; decide

/-- A register number below 8 needs no REX bit. -/
theorem extend_false_lowBits (r : RegNum) (h : r.val < 8) : extend false (lowBits r) = r := by
  revert r; decide

theorem highBit_of_lt (r : RegNum) (h : r.val < 8) : highBit r = false := by
  revert r; decide

/-! ## REX -/

theorem rexOfByte_rexByte (x : Rex) : rexOfByte (rexByte x) = x := by
  obtain ⟨w, r, x, b⟩ := x
  revert w r x b; decide

theorem rexByte_high (x : Rex) : (rexByte x).toNat / 16 = 4 := by
  obtain ⟨w, r, x, b⟩ := x
  revert w r x b; decide

/-- The REX byte the encoder writes is read back; with none, none is read. -/
theorem readRex_rexBytes (m : Mode) (present : Bool) (x : Rex) (b : Byte) (bs : List Byte)
    (hm : present = true → m = .long64) (hb : b.toNat / 16 ≠ 4) :
    readRex m (rexBytes present x ++ b :: bs) = (if present then some x else none, b :: bs) := by
  cases present with
  | false => simp [rexBytes, readRex, hb]
  | true => simp [rexBytes, readRex, hm rfl, rexByte_high, rexOfByte_rexByte]

/-! ## Legacy prefixes -/

/-- A byte that is no legacy prefix. -/
def notLegacy (b : Byte) : Prop := b ≠ 0x66#8 ∧ b ≠ 0x67#8 ∧ b ≠ 0xF0#8 ∧ segOfByte b = none

theorem readLegacy_stop (acc : Legacy) (b : Byte) (bs : List Byte) (h : notLegacy b) :
    readLegacy acc (b :: bs) = .ok (acc, b :: bs) := by
  obtain ⟨h1, h2, h3, h4⟩ := h
  simp [readLegacy, h1, h2, h3, h4]

theorem readLegacy_66 (acc : Legacy) (bs : List Byte) (h : acc.opsz = false) :
    readLegacy acc (0x66#8 :: bs) = readLegacy { acc with opsz := true } bs := by
  rw [readLegacy, if_pos rfl, h, if_neg Bool.false_ne_true]

theorem readLegacy_67 (acc : Legacy) (bs : List Byte) (h : acc.addr67 = false) :
    readLegacy acc (0x67#8 :: bs) = readLegacy { acc with addr67 := true } bs := by
  rw [readLegacy, if_neg (by decide), if_pos rfl, h, if_neg Bool.false_ne_true]

theorem readLegacy_F0 (acc : Legacy) (bs : List Byte) (h : acc.lock = false) :
    readLegacy acc (0xF0#8 :: bs) = readLegacy { acc with lock := true } bs := by
  rw [readLegacy, if_neg (by decide), if_neg (by decide), if_pos rfl, h, if_neg Bool.false_ne_true]

@[simp] theorem segOfByte_segByte (g : SegReg) : segOfByte (segByte g) = some g := by cases g <;> decide

theorem readLegacy_seg (acc : Legacy) (g : SegReg) (bs : List Byte) (h : acc.seg = none) :
    readLegacy acc (segByte g :: bs) = readLegacy { acc with seg := some g } bs := by
  rw [readLegacy, if_neg (by cases g <;> decide), if_neg (by cases g <;> decide), if_neg (by cases g <;> decide),
    segOfByte_segByte]
  simp [h]

/-- The prefixes the encoder writes are read back, up to the first byte that is none. -/
theorem readLegacy_legacyBytes (l : Legacy) (b : Byte) (bs : List Byte) (h : notLegacy b) :
    readLegacy Legacy.empty (legacyBytes l ++ b :: bs) = .ok (l, b :: bs) := by
  obtain ⟨o, a, k, g⟩ := l
  cases o <;> cases a <;> cases k <;> cases g <;>
    simp [legacyBytes, Legacy.empty, readLegacy_66, readLegacy_67, readLegacy_F0, readLegacy_seg, readLegacy_stop, h]

theorem notLegacy_rexByte (x : Rex) : notLegacy (rexByte x) := by
  obtain ⟨w, r, x, b⟩ := x
  unfold notLegacy
  revert w r x b; decide

/-! ## Immediates and displacements -/

@[simp] theorem read16_bytes16 (v : BitVec 16) (rest : List Byte) : read16 (bytes16 v ++ rest) = .ok (v, rest) := by
  simp only [bytes16, List.cons_append, List.nil_append, read16, le16]
  congr 2
  apply BitVec.eq_of_toNat_eq
  simp only [BitVec.toNat_append, BitVec.extractLsb'_toNat]
  have := v.isLt
  rw [← Nat.shiftLeft_add_eq_or_of_lt (by omega)]
  simp only [Nat.shiftLeft_eq, Nat.shiftRight_eq_div_pow]
  omega

@[simp] theorem read32_bytes32 (v : BitVec 32) (rest : List Byte) : read32 (bytes32 v ++ rest) = .ok (v, rest) := by
  simp only [bytes32, List.cons_append, List.nil_append, read32, le32]
  congr 2
  apply BitVec.eq_of_toNat_eq
  have := v.isLt
  simp only [BitVec.toNat_append, BitVec.extractLsb'_toNat]
  repeat rw [← Nat.shiftLeft_add_eq_or_of_lt (by omega)]
  simp only [Nat.shiftLeft_eq, Nat.shiftRight_eq_div_pow]
  omega

theorem readDisp_bytes {w : Nat} (full : List Byte → Except Reject (BitVec w × List Byte))
    (bytes : BitVec w → List Byte) (h : ∀ v rest, full (bytes v ++ rest) = .ok (v, rest)) (d : Disp w)
    (rest : List Byte) : readDisp full d.mod (d.bytes bytes ++ rest) = .ok (d, rest) := by
  cases d with
  | none => rfl
  | d8 v => rfl
  | full v => simp [Disp.mod, Disp.bytes, readDisp, h]

@[simp] theorem base16Of_field (b : Base16) : base16Of b.field = b := by cases b <;> rfl

/-- An index is read back from its field and its X bit. -/
theorem indexOf_indexField (rex : Bool) (i : Option RegNum) (h : indexOk rex i = true) :
    indexOf (indexHigh i) (indexField i) = i := by
  cases i with
  | none => decide
  | some r =>
    have h4 : r ≠ 4 := by
      rintro rfl
      simp [indexOk] at h
    simp [indexOf, indexHigh, indexField, h4]

/-! ## More bytes after what was read -/

/-- A reader that answers keeps its answer when more bytes follow, and what it leaves over grows by them; only `truncated`
may change. -/
def Extends {α : Type} (f : List Byte → Except Reject (α × List Byte)) : Prop :=
  ∀ bs more, (∀ v rest, f bs = .ok (v, rest) → f (bs ++ more) = .ok (v, rest ++ more)) ∧
    ∀ e, e ≠ .truncated → f bs = .error e → f (bs ++ more) = .error e

theorem Extends.error {α : Type} (e : Reject) : Extends (fun _ => (.error e : Except Reject (α × List Byte))) :=
  fun _ _ => ⟨fun _ _ h => (by cases h), fun _ _ h => h⟩

theorem Extends.pure {α : Type} (v : α) : Extends (fun bs => .ok (v, bs)) :=
  fun _ _ => ⟨fun _ _ h => (by cases h; rfl), fun _ _ h => (by cases h)⟩

/-- A reader's value changed by a function. -/
def mapRead {α β : Type} (g : α → β) : Except Reject (α × List Byte) → Except Reject (β × List Byte)
  | .ok (v, rest) => .ok (g v, rest)
  | .error e => .error e

theorem Extends.map {α β : Type} {f : List Byte → Except Reject (α × List Byte)}
    {h : List Byte → Except Reject (β × List Byte)} (hf : Extends f) (g : α → β)
    (hh : ∀ bs, h bs = mapRead g (f bs)) : Extends h := by
  intro bs more
  obtain ⟨h1, h2⟩ := hf bs more
  rw [hh, hh]
  cases hv : f bs with
  | ok v =>
    obtain ⟨v, rest⟩ := v
    rw [h1 v rest hv]
    exact ⟨fun _ _ h => (by cases h; rfl), fun _ _ h => (by cases h)⟩
  | error e =>
    refine ⟨fun _ _ h => (by cases h), fun e' he h => ?_⟩
    cases h
    rw [h2 e he hv]
    rfl

/-- The value and the register number of an `r/m` reader as one value. -/
def pairRead : Except Reject (RM × RegNum × List Byte) → Except Reject ((RM × RegNum) × List Byte)
  | .ok (rm, g, rest) => .ok ((rm, g), rest)
  | .error e => .error e

theorem Extends.ite {α : Type} {f g : List Byte → Except Reject (α × List Byte)} (p : Prop) [Decidable p]
    (hf : Extends f) (hg : Extends g) : Extends (fun bs => if p then f bs else g bs) := by
  by_cases h : p
  · simpa only [h, if_true] using hf
  · simpa only [h, if_false] using hg

/-- A reader of one byte first, truncated without one. -/
theorem Extends.head {α : Type} {f : Byte → List Byte → Except Reject (α × List Byte)} (hf : ∀ b, Extends (f b)) :
    Extends (fun bs => match bs with
      | [] => .error .truncated
      | b :: bs => f b bs) := by
  intro bs more
  cases bs with
  | nil => exact ⟨fun _ _ h => (by cases h), fun e he h => (by cases h; exact absurd rfl he)⟩
  | cons b bs => exact hf b bs more

theorem read8_extends : Extends read8 := by
  intro bs more
  match bs with
  | [] => exact ⟨fun _ _ h => (by cases h), fun e he h => (by cases h; exact absurd rfl he)⟩
  | b :: bs => exact ⟨fun _ _ h => (by cases h; rfl), fun e he h => (by cases h)⟩

theorem read16_extends : Extends read16 := by
  intro bs more
  match bs with
  | [] => exact ⟨fun _ _ h => (by cases h), fun e he h => (by cases h; exact absurd rfl he)⟩
  | [b] => exact ⟨fun _ _ h => (by cases h), fun e he h => (by cases h; exact absurd rfl he)⟩
  | b0 :: b1 :: bs => exact ⟨fun _ _ h => (by cases h; rfl), fun e he h => (by cases h)⟩

theorem read32_extends : Extends read32 := by
  intro bs more
  match bs with
  | [] => exact ⟨fun _ _ h => (by cases h), fun e he h => (by cases h; exact absurd rfl he)⟩
  | [b] => exact ⟨fun _ _ h => (by cases h), fun e he h => (by cases h; exact absurd rfl he)⟩
  | [b0, b1] => exact ⟨fun _ _ h => (by cases h), fun e he h => (by cases h; exact absurd rfl he)⟩
  | [b0, b1, b2] => exact ⟨fun _ _ h => (by cases h), fun e he h => (by cases h; exact absurd rfl he)⟩
  | b0 :: b1 :: b2 :: b3 :: bs => exact ⟨fun _ _ h => (by cases h; rfl), fun e he h => (by cases h)⟩

theorem readDisp_extends {w : Nat} {full : List Byte → Except Reject (BitVec w × List Byte)} (hf : Extends full)
    (mod : Fin 4) : Extends (readDisp full mod) := by
  match mod with
  | 0 => exact Extends.pure _
  | 1 => exact read8_extends.map Disp.d8 fun bs => by simp only [readDisp]; cases read8 bs <;> rfl
  | 2 => exact hf.map Disp.full fun bs => by simp only [readDisp]; cases full bs <;> rfl
  | 3 => exact hf.map Disp.full fun bs => by simp only [readDisp]; cases full bs <;> rfl

theorem readAddr16_extends (mod : Fin 4) (rm : Fin 8) : Extends (readAddr16 mod rm) :=
  Extends.ite _ (read16_extends.map Addr.abs16 fun bs => by cases read16 bs <;> rfl)
    ((readDisp_extends read16_extends mod).map (Addr.ind16 (base16Of rm)) fun bs => by
      cases readDisp read16 mod bs <;> rfl)

theorem readSib_extends (rex : Rex) (mod : Fin 4) : Extends (readSib rex mod) :=
  Extends.head fun s => Extends.ite _
    (read32_extends.map (Addr.sibAbs (indexOf rex.x (midField s)) (topField s)) fun bs => by cases read32 bs <;> rfl)
    ((readDisp_extends read32_extends mod).map
      (Addr.sib (extend rex.b (lowField s)) (indexOf rex.x (midField s)) (topField s)) fun bs => by
        cases readDisp read32 mod bs <;> rfl)

theorem readAddrWide_extends (m : Mode) (rex : Rex) (mod : Fin 4) (rm : Fin 8) :
    Extends (readAddrWide m rex mod rm) :=
  Extends.ite _ (readSib_extends rex mod) (Extends.ite _
    (read32_extends.map (fun v => if m = .long64 then Addr.ripRel v else .abs32 v) fun bs => by
      cases read32 bs <;> rfl)
    ((readDisp_extends read32_extends mod).map (Addr.ind (extend rex.b rm)) fun bs => by
      cases readDisp read32 mod bs <;> rfl))

theorem readModRM_extends (c : CodeCtx) (l : Legacy) (rex : Rex) :
    Extends (fun bs => pairRead (readModRM c l rex bs)) := by
  have key : ∀ m : Byte, Extends (fun bs => pairRead (readModRM c l rex (m :: bs))) := by
    intro m
    simp only [readModRM]
    by_cases h3 : topField m = 3
    · simp only [h3, if_true]
      by_cases hp : (l.addr67 || l.seg.isSome) = true
      · simp only [hp, if_true]
        exact Extends.error _
      · simp only [hp]
        exact Extends.pure _
    · simp only [h3, if_false]
      refine (Extends.ite (addressSize c l.addr67 = .a16) (readAddr16_extends (topField m) (lowField m))
        (readAddrWide_extends c.mode rex (topField m) (lowField m))).map
          (fun a => (RM.mem { addr67 := l.addr67, seg := l.seg, addr := a }, extend rex.r (midField m))) fun bs => ?_
      split <;> next h => simp only [h]; rfl
  intro bs more
  cases bs with
  | nil => exact ⟨fun _ _ h => (by cases h), fun e he h => (by cases h; exact absurd rfl he)⟩
  | cons m bs => exact key m bs more

/-- The forms of opcodes 86 and 87. -/
theorem form_extends {c : CodeCtx} {l : Legacy} {rex : Rex} (form : RM → RegNum → Instr) :
    Extends (fun bs => match readModRM c l rex bs with
      | .ok (rm, g, rest) => .ok (form rm g, rest)
      | .error e => .error e) :=
  (readModRM_extends c l rex).map (fun v => form v.1 v.2) fun bs => by
    cases readModRM c l rex bs <;> rfl

theorem readXbegin_extends (osz : OpSize) (l : Legacy) (p : Pfx) : Extends (readXbegin osz l p) :=
  Extends.head fun _ => Extends.ite _ (Extends.error _) (Extends.ite _ (Extends.error _)
    (Extends.ite _ (read16_extends.map (Instr.xbeginRel16 p) fun bs => by cases read16 bs <;> rfl)
      (read32_extends.map (Instr.xbeginRel32 p) fun bs => by cases read32 bs <;> rfl)))

theorem readShort_extends (osz : OpSize) (l : Legacy) (p : Pfx) (r : RegNum) : Extends (readShort osz l p r) := by
  refine Extends.ite _ (Extends.error _) ?_
  cases osz
  all_goals exact Extends.pure _

theorem readOpcode_extends (c : CodeCtx) (l : Legacy) (rex : Option Rex) : Extends (readOpcode c l rex) := by
  refine Extends.head fun op => ?_
  refine Extends.ite _ (readXbegin_extends _ _ _) (Extends.ite _ (readShort_extends _ _ _ _) ?_)
  refine Extends.ite _ (Extends.ite _ (Extends.error _) (form_extends _)) ?_
  refine Extends.ite _ (form_extends _) (Extends.ite _ (Extends.error _) (Extends.error _))

theorem readLegacy_extends (acc : Legacy) : Extends (readLegacy acc) := by
  intro bs
  induction bs generalizing acc with
  | nil => exact fun _ => ⟨fun _ _ h => (by cases h), fun e he h => (by cases h; exact absurd rfl he)⟩
  | cons b bs ih =>
    intro more
    rw [List.cons_append, readLegacy, readLegacy]
    split
    · split
      · exact ⟨fun _ _ h => (by cases h), fun _ _ h => h⟩
      · exact ih _ _
    · split
      · split
        · exact ⟨fun _ _ h => (by cases h), fun _ _ h => h⟩
        · exact ih _ _
      · split
        · split
          · exact ⟨fun _ _ h => (by cases h), fun _ _ h => h⟩
          · exact ih _ _
        · split
          · split
            · exact ⟨fun _ _ h => (by cases h), fun _ _ h => h⟩
            · exact ih _ _
          · exact ⟨fun _ _ h => (by cases h; rfl), fun _ _ h => by cases h⟩

/-- The decoder keeps its answer when more bytes follow (30_encoding.md R100). -/
theorem decode_extends (c : CodeCtx) : Extends (decode c) := by
  intro bs more
  unfold decode
  cases h : readLegacy Legacy.empty bs with
  | error e =>
    refine ⟨fun _ _ h' => (by cases h'), fun e' he h' => ?_⟩
    cases h'
    rw [(readLegacy_extends _ bs more).2 e he h]
  | ok v =>
    obtain ⟨l, r⟩ := v
    rw [(readLegacy_extends _ bs more).1 l r h]
    cases r with
    | nil => exact ⟨fun _ _ h => (by cases h), fun e he h => (by cases h; exact absurd rfl he)⟩
    | cons b r =>
      have hr : readRex c.mode (b :: r ++ more) =
          ((readRex c.mode (b :: r)).1, (readRex c.mode (b :: r)).2 ++ more) := by
        rw [List.cons_append, readRex, readRex]
        split <;> rfl
      simp only [hr]
      exact readOpcode_extends c l _ _ more

/-- A strict part of an instruction's bytes, from its first byte on, is truncated: it is no other instruction, and not
refused for another reason. -/
theorem decode_truncated {c : CodeCtx} {bytes : List Byte} {i : Instr} {n : Nat} (h : decode c bytes = .ok (i, []))
    (hn : n < bytes.length) : decode c (bytes.take n) = .error .truncated := by
  have ext := decode_extends c (bytes.take n) (bytes.drop n)
  rw [List.take_append_drop, h] at ext
  cases hd : decode c (bytes.take n) with
  | ok v =>
    have := ext.1 v.1 v.2 hd
    simp only [Except.ok.injEq, Prod.mk.injEq] at this
    have hl := congrArg List.length this.2
    simp at hl
    omega
  | error e =>
    by_cases he : e = .truncated
    · rw [he]
    · have := ext.2 e he hd
      cases this

end Sys2Proof
end

