-- ==== Sys2Proof/Laws/State.lean ====
section
/-! SUPPORT. What each update of the state does to each field: one lemma per field per update, true by unfolding the
update once, so that no later proof unfolds a record update. -/

namespace Sys2Proof.Machine

variable (lp l : LP) (s : State) (r : RegNum) (v : Word) (w : Width) (rex : Bool) (n : Nat) (e : Exc)

/-! ## `LP.setX` -/

@[simp] theorem setX_pc : (lp.setX r v).pc = lp.pc := rfl
@[simp] theorem setX_flags : (lp.setX r v).flags = lp.flags := rfl
@[simp] theorem setX_otherRegs : (lp.setX r v).otherRegs = lp.otherRegs := rfl
@[simp] theorem setX_mode : (lp.setX r v).mode = lp.mode := rfl
@[simp] theorem setX_csLimit : (lp.setX r v).csLimit = lp.csLimit := rfl
@[simp] theorem setX_csD : (lp.setX r v).csD = lp.csD := rfl
@[simp] theorem setX_cpl : (lp.setX r v).cpl = lp.cpl := rfl
@[simp] theorem setX_alignCheck : (lp.setX r v).alignCheck = lp.alignCheck := rfl
@[simp] theorem setX_access : (lp.setX r v).access = lp.access := rfl
@[simp] theorem setX_nestCount : (lp.setX r v).nestCount = lp.nestCount := rfl
@[simp] theorem setX_rtmActive : (lp.setX r v).rtmActive = lp.rtmActive := rfl
@[simp] theorem setX_fallback : (lp.setX r v).fallback = lp.fallback := rfl
@[simp] theorem setX_checkpoint : (lp.setX r v).checkpoint = lp.checkpoint := rfl
@[simp] theorem setX_wbuf : (lp.setX r v).wbuf = lp.wbuf := rfl
@[simp] theorem setX_fault : (lp.setX r v).fault = lp.fault := rfl

/-! ## `LP.regWrite`: it changes general registers alone -/

/-- A register write is a write of one whole register. -/
theorem regWrite_is_setX : ∃ r' v', lp.regWrite w r rex v = lp.setX r' v' := by
  unfold LP.regWrite
  cases w
  · by_cases h : highByteReg r rex = true
    · exact ⟨_, _, by simp only [h, if_true]; rfl⟩
    · exact ⟨_, _, if_neg h⟩
  all_goals exact ⟨_, _, rfl⟩

@[simp] theorem regWrite_pc : (lp.regWrite w r rex v).pc = lp.pc := by
  obtain ⟨_, _, h⟩ := regWrite_is_setX lp r v w rex; rw [h]; rfl
@[simp] theorem regWrite_flags : (lp.regWrite w r rex v).flags = lp.flags := by
  obtain ⟨_, _, h⟩ := regWrite_is_setX lp r v w rex; rw [h]; rfl
@[simp] theorem regWrite_otherRegs : (lp.regWrite w r rex v).otherRegs = lp.otherRegs := by
  obtain ⟨_, _, h⟩ := regWrite_is_setX lp r v w rex; rw [h]; rfl
@[simp] theorem regWrite_mode : (lp.regWrite w r rex v).mode = lp.mode := by
  obtain ⟨_, _, h⟩ := regWrite_is_setX lp r v w rex; rw [h]; rfl
@[simp] theorem regWrite_csLimit : (lp.regWrite w r rex v).csLimit = lp.csLimit := by
  obtain ⟨_, _, h⟩ := regWrite_is_setX lp r v w rex; rw [h]; rfl
@[simp] theorem regWrite_csD : (lp.regWrite w r rex v).csD = lp.csD := by
  obtain ⟨_, _, h⟩ := regWrite_is_setX lp r v w rex; rw [h]; rfl
@[simp] theorem regWrite_cpl : (lp.regWrite w r rex v).cpl = lp.cpl := by
  obtain ⟨_, _, h⟩ := regWrite_is_setX lp r v w rex; rw [h]; rfl
@[simp] theorem regWrite_alignCheck : (lp.regWrite w r rex v).alignCheck = lp.alignCheck := by
  obtain ⟨_, _, h⟩ := regWrite_is_setX lp r v w rex; rw [h]; rfl
@[simp] theorem regWrite_access : (lp.regWrite w r rex v).access = lp.access := by
  obtain ⟨_, _, h⟩ := regWrite_is_setX lp r v w rex; rw [h]; rfl
@[simp] theorem regWrite_nestCount : (lp.regWrite w r rex v).nestCount = lp.nestCount := by
  obtain ⟨_, _, h⟩ := regWrite_is_setX lp r v w rex; rw [h]; rfl
@[simp] theorem regWrite_rtmActive : (lp.regWrite w r rex v).rtmActive = lp.rtmActive := by
  obtain ⟨_, _, h⟩ := regWrite_is_setX lp r v w rex; rw [h]; rfl
@[simp] theorem regWrite_fallback : (lp.regWrite w r rex v).fallback = lp.fallback := by
  obtain ⟨_, _, h⟩ := regWrite_is_setX lp r v w rex; rw [h]; rfl
@[simp] theorem regWrite_checkpoint : (lp.regWrite w r rex v).checkpoint = lp.checkpoint := by
  obtain ⟨_, _, h⟩ := regWrite_is_setX lp r v w rex; rw [h]; rfl
@[simp] theorem regWrite_wbuf : (lp.regWrite w r rex v).wbuf = lp.wbuf := by
  obtain ⟨_, _, h⟩ := regWrite_is_setX lp r v w rex; rw [h]; rfl
@[simp] theorem regWrite_fault : (lp.regWrite w r rex v).fault = lp.fault := by
  obtain ⟨_, _, h⟩ := regWrite_is_setX lp r v w rex; rw [h]; rfl

/-! ## `LP.setPc` -/

@[simp] theorem setPc_x : (lp.setPc v).x = lp.x := rfl
@[simp] theorem setPc_pc : (lp.setPc v).pc = v := rfl
@[simp] theorem setPc_flags : (lp.setPc v).flags = lp.flags := rfl
@[simp] theorem setPc_otherRegs : (lp.setPc v).otherRegs = lp.otherRegs := rfl
@[simp] theorem setPc_mode : (lp.setPc v).mode = lp.mode := rfl
@[simp] theorem setPc_csLimit : (lp.setPc v).csLimit = lp.csLimit := rfl
@[simp] theorem setPc_csD : (lp.setPc v).csD = lp.csD := rfl
@[simp] theorem setPc_cpl : (lp.setPc v).cpl = lp.cpl := rfl
@[simp] theorem setPc_alignCheck : (lp.setPc v).alignCheck = lp.alignCheck := rfl
@[simp] theorem setPc_access : (lp.setPc v).access = lp.access := rfl
@[simp] theorem setPc_nestCount : (lp.setPc v).nestCount = lp.nestCount := rfl
@[simp] theorem setPc_rtmActive : (lp.setPc v).rtmActive = lp.rtmActive := rfl
@[simp] theorem setPc_fallback : (lp.setPc v).fallback = lp.fallback := rfl
@[simp] theorem setPc_checkpoint : (lp.setPc v).checkpoint = lp.checkpoint := rfl
@[simp] theorem setPc_wbuf : (lp.setPc v).wbuf = lp.wbuf := rfl
@[simp] theorem setPc_fault : (lp.setPc v).fault = lp.fault := rfl

/-! ## `State.withLp` -/

@[simp] theorem withLp_hw : (s.withLp l).hw = s.hw := rfl
@[simp] theorem withLp_before : (s.withLp l).before = s.before := rfl
@[simp] theorem withLp_lp : (s.withLp l).lp = l := rfl
@[simp] theorem withLp_after : (s.withLp l).after = s.after := rfl
@[simp] theorem withLp_mem : (s.withLp l).mem = s.mem := rfl
@[simp] theorem withLp_text : (s.withLp l).text = s.text := rfl
@[simp] theorem withLp_endAddr : (s.withLp l).endAddr = s.endAddr := rfl
@[simp] theorem withLp_draws : (s.withLp l).draws = s.draws := rfl

/-! ## `State.advance` -/

@[simp] theorem advance_hw : (s.advance n).hw = s.hw := rfl
@[simp] theorem advance_before : (s.advance n).before = s.before := rfl
@[simp] theorem advance_lp : (s.advance n).lp = s.lp.setPc (s.lp.nextPc n) := rfl
@[simp] theorem advance_after : (s.advance n).after = s.after := rfl
@[simp] theorem advance_mem : (s.advance n).mem = s.mem := rfl
@[simp] theorem advance_text : (s.advance n).text = s.text := rfl
@[simp] theorem advance_endAddr : (s.advance n).endAddr = s.endAddr := rfl
@[simp] theorem advance_draws : (s.advance n).draws = s.draws := rfl

/-! ## `State.regWrite` -/

@[simp] theorem sregWrite_hw : (s.regWrite w r rex v).hw = s.hw := rfl
@[simp] theorem sregWrite_before : (s.regWrite w r rex v).before = s.before := rfl
@[simp] theorem sregWrite_lp : (s.regWrite w r rex v).lp = s.lp.regWrite w r rex v := rfl
@[simp] theorem sregWrite_after : (s.regWrite w r rex v).after = s.after := rfl
@[simp] theorem sregWrite_mem : (s.regWrite w r rex v).mem = s.mem := rfl
@[simp] theorem sregWrite_text : (s.regWrite w r rex v).text = s.text := rfl
@[simp] theorem sregWrite_endAddr : (s.regWrite w r rex v).endAddr = s.endAddr := rfl
@[simp] theorem sregWrite_draws : (s.regWrite w r rex v).draws = s.draws := rfl

/-! ## `State.raise` -/

@[simp] theorem raise_hw : (s.raise e).hw = s.hw := rfl
@[simp] theorem raise_before : (s.raise e).before = s.before := rfl
@[simp] theorem raise_after : (s.raise e).after = s.after := rfl
@[simp] theorem raise_mem : (s.raise e).mem = s.mem := rfl
@[simp] theorem raise_text : (s.raise e).text = s.text := rfl
@[simp] theorem raise_endAddr : (s.raise e).endAddr = s.endAddr := rfl
@[simp] theorem raise_draws : (s.raise e).draws = s.draws := rfl
@[simp] theorem raise_x : (s.raise e).lp.x = s.lp.x := rfl
@[simp] theorem raise_pc : (s.raise e).lp.pc = s.lp.pc := rfl
@[simp] theorem raise_flags : (s.raise e).lp.flags = s.lp.flags := rfl
@[simp] theorem raise_otherRegs : (s.raise e).lp.otherRegs = s.lp.otherRegs := rfl
@[simp] theorem raise_mode : (s.raise e).lp.mode = s.lp.mode := rfl
@[simp] theorem raise_csLimit : (s.raise e).lp.csLimit = s.lp.csLimit := rfl
@[simp] theorem raise_csD : (s.raise e).lp.csD = s.lp.csD := rfl
@[simp] theorem raise_cpl : (s.raise e).lp.cpl = s.lp.cpl := rfl
@[simp] theorem raise_alignCheck : (s.raise e).lp.alignCheck = s.lp.alignCheck := rfl
@[simp] theorem raise_access : (s.raise e).lp.access = s.lp.access := rfl
@[simp] theorem raise_nestCount : (s.raise e).lp.nestCount = s.lp.nestCount := rfl
@[simp] theorem raise_rtmActive : (s.raise e).lp.rtmActive = s.lp.rtmActive := rfl
@[simp] theorem raise_fallback : (s.raise e).lp.fallback = s.lp.fallback := rfl
@[simp] theorem raise_checkpoint : (s.raise e).lp.checkpoint = s.lp.checkpoint := rfl
@[simp] theorem raise_wbuf : (s.raise e).lp.wbuf = s.lp.wbuf := rfl
@[simp] theorem raise_fault : (s.raise e).lp.fault = some { exc := e, pc := s.lp.pc } := rfl

/-! ## `LP.abort` -/

@[simp] theorem abort_flags : (lp.abort n).flags = lp.checkpoint.flags := rfl
@[simp] theorem abort_otherRegs : (lp.abort n).otherRegs = lp.checkpoint.otherRegs := rfl
@[simp] theorem abort_pc : (lp.abort n).pc = lp.fallback := rfl
@[simp] theorem abort_mode : (lp.abort n).mode = lp.mode := rfl
@[simp] theorem abort_csLimit : (lp.abort n).csLimit = lp.csLimit := rfl
@[simp] theorem abort_csD : (lp.abort n).csD = lp.csD := rfl
@[simp] theorem abort_cpl : (lp.abort n).cpl = lp.cpl := rfl
@[simp] theorem abort_alignCheck : (lp.abort n).alignCheck = lp.alignCheck := rfl
@[simp] theorem abort_access : (lp.abort n).access = lp.access := rfl
@[simp] theorem abort_nestCount : (lp.abort n).nestCount = 0 := rfl
@[simp] theorem abort_rtmActive : (lp.abort n).rtmActive = false := rfl
@[simp] theorem abort_fallback : (lp.abort n).fallback = lp.fallback := rfl
@[simp] theorem abort_checkpoint : (lp.abort n).checkpoint = lp.checkpoint := rfl
@[simp] theorem abort_wbuf : (lp.abort n).wbuf = [] := rfl
@[simp] theorem abort_fault : (lp.abort n).fault = lp.fault := rfl

/-! ## `State.rtmAbort` -/

@[simp] theorem rtmAbort_hw : s.rtmAbort.hw = s.hw := rfl
@[simp] theorem rtmAbort_before : s.rtmAbort.before = s.before := rfl
@[simp] theorem rtmAbort_lp : s.rtmAbort.lp = s.lp.abort s.draws := rfl
@[simp] theorem rtmAbort_after : s.rtmAbort.after = s.after := rfl
@[simp] theorem rtmAbort_mem : s.rtmAbort.mem = s.mem := rfl
@[simp] theorem rtmAbort_text : s.rtmAbort.text = s.text := rfl
@[simp] theorem rtmAbort_endAddr : s.rtmAbort.endAddr = s.endAddr := rfl
@[simp] theorem rtmAbort_draws : s.rtmAbort.draws = s.draws + 1 := rfl

/-! ## `LP.enterRtm` -/

@[simp] theorem enterRtm_x : (lp.enterRtm v).x = lp.x := rfl
@[simp] theorem enterRtm_pc : (lp.enterRtm v).pc = lp.pc := rfl
@[simp] theorem enterRtm_flags : (lp.enterRtm v).flags = lp.flags := rfl
@[simp] theorem enterRtm_otherRegs : (lp.enterRtm v).otherRegs = lp.otherRegs := rfl
@[simp] theorem enterRtm_mode : (lp.enterRtm v).mode = lp.mode := rfl
@[simp] theorem enterRtm_csLimit : (lp.enterRtm v).csLimit = lp.csLimit := rfl
@[simp] theorem enterRtm_csD : (lp.enterRtm v).csD = lp.csD := rfl
@[simp] theorem enterRtm_cpl : (lp.enterRtm v).cpl = lp.cpl := rfl
@[simp] theorem enterRtm_alignCheck : (lp.enterRtm v).alignCheck = lp.alignCheck := rfl
@[simp] theorem enterRtm_access : (lp.enterRtm v).access = lp.access := rfl
@[simp] theorem enterRtm_nestCount : (lp.enterRtm v).nestCount = 1 := rfl
@[simp] theorem enterRtm_rtmActive : (lp.enterRtm v).rtmActive = true := rfl
@[simp] theorem enterRtm_fallback : (lp.enterRtm v).fallback = v := rfl
@[simp] theorem enterRtm_checkpoint : (lp.enterRtm v).checkpoint = lp.recordRegs := rfl
@[simp] theorem enterRtm_wbuf : (lp.enterRtm v).wbuf = [] := rfl
@[simp] theorem enterRtm_fault : (lp.enterRtm v).fault = lp.fault := rfl

end Sys2Proof.Machine
end

