-- ==== Sys2Proof/Laws/Memory.lean ====
section
/-! SUPPORT. The laws of memory: a read after a write, the canonical form, and what a write of several bytes leaves
alone (20_memory.md R50 to R55, R65, R66). -/

namespace Sys2Proof.Machine

/-! ## One byte of a finite map -/

theorem Memory.read_write (m : Memory) (a b : Nat) (v : Byte) :
    (m.write a v).read b = if b = a then some v else m.read b := by
  induction m with
  | nil => simp [Memory.write, Memory.read]
  | cons c m ih =>
    obtain ⟨k, u⟩ := c
    simp only [Memory.write]
    split
    · simp [Memory.read]
    · split
      · next h => subst h; by_cases hb : b = a <;> simp [Memory.read, hb]
      · simp only [Memory.read, ih]
        by_cases hb : b = k
        · subst hb; have : b ≠ a := fun e => by omega
          simp [this]
        · simp [hb]

@[simp] theorem Memory.read_write_same (m : Memory) (a : Nat) (v : Byte) : (m.write a v).read a = some v := by
  simp [Memory.read_write]

theorem Memory.read_write_other (m : Memory) {a b : Nat} (v : Byte) (h : b ≠ a) :
    (m.write a v).read b = m.read b := by
  simp [Memory.read_write, h]

/-- Every cell of a map after a write is the written one or was there before. -/
theorem Memory.mem_write (m : Memory) (a : Nat) (v : Byte) (c : Host.Cell) (h : c ∈ m.write a v) :
    c = (a, v) ∨ c ∈ m := by
  induction m with
  | nil => simpa [Memory.write] using h
  | cons d m ih =>
    obtain ⟨k, u⟩ := d
    simp only [Memory.write] at h
    split at h
    · simpa using h
    · split at h
      · rcases List.mem_cons.1 h with h | h
        · exact .inl h
        · exact .inr (List.mem_cons_of_mem _ h)
      · rcases List.mem_cons.1 h with h | h
        · exact .inr (h ▸ List.mem_cons_self)
        · rcases ih h with h | h
          · exact .inl h
          · exact .inr (List.mem_cons_of_mem _ h)

/-- A write keeps the canonical form. -/
theorem Memory.wf_write (m : Memory) (a : Nat) (v : Byte) (h : m.wf) : (m.write a v).wf := by
  induction m with
  | nil => simp [Memory.write]
  | cons d m ih =>
    obtain ⟨k, u⟩ := d
    obtain ⟨hd, ht⟩ := List.pairwise_cons.1 h
    simp only [Memory.write]
    split
    · next hk =>
      refine List.pairwise_cons.2 ⟨fun c hc => ?_, h⟩
      rcases List.mem_cons.1 hc with rfl | hc
      · exact hk
      · exact Nat.lt_trans hk (hd c hc)
    · split
      · next hk => subst hk; exact List.pairwise_cons.2 ⟨hd, ht⟩
      · refine List.pairwise_cons.2 ⟨fun c hc => ?_, ih ht⟩
        rcases Memory.mem_write m a v c hc with rfl | hc
        · simp; omega
        · exact hd c hc

theorem putBytes_wf (bs : List Byte) : ∀ (m : Memory) (a : Nat), m.wf → (putBytes m a bs).wf := by
  induction bs with
  | nil => exact fun _ _ h => h
  | cons b bs ih => exact fun m a h => ih _ _ (Memory.wf_write m a b h)

/-- A byte outside the placed ones reads as before. -/
theorem putBytes_read_other (bs : List Byte) :
    ∀ (m : Memory) (a b : Nat), (b < a ∨ a + bs.length ≤ b) → (putBytes m a bs).read b = m.read b := by
  induction bs with
  | nil => exact fun _ _ _ _ => rfl
  | cons x bs ih =>
    intro m a b h
    simp only [List.length_cons] at h
    rw [putBytes, ih _ _ _ (by omega), Memory.read_write_other _ _ (by omega)]

theorem reset_mem_wf : State.reset.mem.wf := by decide

/-! ## One byte as the moving logical processor sees it -/

section
variable (s : State) (a b : Nat) (v : Byte)

@[simp] theorem writeByte_hw : (s.writeByte a v).hw = s.hw := by unfold State.writeByte; split <;> rfl
@[simp] theorem writeByte_before : (s.writeByte a v).before = s.before := by unfold State.writeByte; split <;> rfl
@[simp] theorem writeByte_after : (s.writeByte a v).after = s.after := by unfold State.writeByte; split <;> rfl
@[simp] theorem writeByte_text : (s.writeByte a v).text = s.text := by unfold State.writeByte; split <;> rfl
@[simp] theorem writeByte_endAddr : (s.writeByte a v).endAddr = s.endAddr := by unfold State.writeByte; split <;> rfl
@[simp] theorem writeByte_draws : (s.writeByte a v).draws = s.draws := by unfold State.writeByte; split <;> rfl

/-- Of the moving logical processor a byte write changes the write buffer alone, and that only inside a transaction. -/
theorem writeByte_lp :
    (s.writeByte a v).lp = { s.lp with wbuf := if s.lp.rtmActive then s.lp.wbuf.write a v else s.lp.wbuf } := by
  unfold State.writeByte
  split <;> rfl

/-- Inside a transaction a byte write leaves the shared memory alone (R65). -/
theorem writeByte_mem : (s.writeByte a v).mem = if s.lp.rtmActive then s.mem else s.mem.write a v := by
  unfold State.writeByte; split <;> simp_all

@[simp] theorem writeByte_rtmActive : (s.writeByte a v).lp.rtmActive = s.lp.rtmActive := by rw [writeByte_lp]
@[simp] theorem writeByte_mode : (s.writeByte a v).lp.mode = s.lp.mode := by rw [writeByte_lp]

theorem readByte_writeByte : (s.writeByte a v).readByte b = if b = a then some v else s.readByte b := by
  unfold State.readByte State.writeByte
  by_cases h : s.lp.rtmActive
  · simp only [h, if_true, Memory.read_write]
    by_cases hb : b = a <;> simp [hb]
  · simp [h, Memory.read_write]

end

/-! ## Several bytes -/

section
variable (s : State) (la v : Word) (k n : Nat)

/-- Of the moving logical processor a write changes the write buffer alone. -/
theorem writeBytes_lp : ∃ wb, (s.writeBytes la v k n).lp = { s.lp with wbuf := wb } := by
  induction n generalizing s k with
  | zero => exact ⟨s.lp.wbuf, rfl⟩
  | succ n ih =>
    obtain ⟨wb, h⟩ := ih (s.writeByte (addrAt s.lp.mode la k) (byteOf v k)) (k + 1)
    exact ⟨wb, by rw [State.writeBytes, h, writeByte_lp]⟩

@[simp] theorem writeBytes_hw : (s.writeBytes la v k n).hw = s.hw := by
  induction n generalizing s k with
  | zero => rfl
  | succ n ih => rw [State.writeBytes, ih]; simp
@[simp] theorem writeBytes_before : (s.writeBytes la v k n).before = s.before := by
  induction n generalizing s k with
  | zero => rfl
  | succ n ih => rw [State.writeBytes, ih]; simp
@[simp] theorem writeBytes_after : (s.writeBytes la v k n).after = s.after := by
  induction n generalizing s k with
  | zero => rfl
  | succ n ih => rw [State.writeBytes, ih]; simp
@[simp] theorem writeBytes_text : (s.writeBytes la v k n).text = s.text := by
  induction n generalizing s k with
  | zero => rfl
  | succ n ih => rw [State.writeBytes, ih]; simp
@[simp] theorem writeBytes_endAddr : (s.writeBytes la v k n).endAddr = s.endAddr := by
  induction n generalizing s k with
  | zero => rfl
  | succ n ih => rw [State.writeBytes, ih]; simp
@[simp] theorem writeBytes_draws : (s.writeBytes la v k n).draws = s.draws := by
  induction n generalizing s k with
  | zero => rfl
  | succ n ih => rw [State.writeBytes, ih]; simp

/-- A byte at none of the written addresses reads as before. -/
theorem readByte_writeBytes_other (b : Nat) (h : ∀ j, k ≤ j → j < k + n → b ≠ addrAt s.lp.mode la j) :
    (s.writeBytes la v k n).readByte b = s.readByte b := by
  induction n generalizing s k with
  | zero => rfl
  | succ n ih =>
    rw [State.writeBytes, ih _ _ (fun j h1 h2 => by simpa using h j (by omega) (by omega)), readByte_writeByte,
      if_neg (h k (Nat.le_refl k) (by omega))]

/-- Inside a transaction a write leaves the shared memory alone (R65). -/
theorem writeBytes_mem_active (h : s.lp.rtmActive = true) : (s.writeBytes la v k n).mem = s.mem := by
  induction n generalizing s k with
  | zero => rfl
  | succ n ih => rw [State.writeBytes, ih _ _ (by simpa using h), writeByte_mem, if_pos h]

/-- A byte of the shared memory at none of the written addresses is as before. -/
theorem writeBytes_mem_other (b : Nat) (h : ∀ j, k ≤ j → j < k + n → b ≠ addrAt s.lp.mode la j) :
    (s.writeBytes la v k n).mem.read b = s.mem.read b := by
  induction n generalizing s k with
  | zero => rfl
  | succ n ih =>
    rw [State.writeBytes, ih _ _ (fun j h1 h2 => by simpa using h j (by omega) (by omega)), writeByte_mem]
    split
    · rfl
    · exact Memory.read_write_other _ _ (h k (Nat.le_refl k) (by omega))

/-- A write keeps the canonical form of the shared memory and of the write buffer. -/
theorem writeBytes_wf (hm : s.mem.wf) (hw : s.lp.wbuf.wf) :
    (s.writeBytes la v k n).mem.wf ∧ (s.writeBytes la v k n).lp.wbuf.wf := by
  induction n generalizing s k with
  | zero => exact ⟨hm, hw⟩
  | succ n ih =>
    refine ih _ _ ?_ ?_
    · rw [writeByte_mem]; split
      · exact hm
      · exact Memory.wf_write _ _ _ hm
    · rw [writeByte_lp]
      dsimp only
      split
      · exact Memory.wf_write _ _ _ hw
      · exact hw

end

/-- The addresses of one operand of at most 8 bytes are distinct. -/
theorem addrAt_inj (m : Mode) (la : Word) {i j : Nat} (hi : i < 8) (hj : j < 8) (h : addrAt m la i = addrAt m la j) :
    i = j := by
  cases m <;> simp only [addrAt, low32, BitVec.toNat_setWidth, BitVec.toNat_add, BitVec.toNat_ofNat] at h <;> omega

/-- Byte `j` of an operand just written is byte `j` of the value. -/
theorem readByte_writeBytes_same (s : State) (la v : Word) (k n j : Nat) (h8 : k + n ≤ 8) (h1 : k ≤ j)
    (h2 : j < k + n) : (s.writeBytes la v k n).readByte (addrAt s.lp.mode la j) = some (byteOf v j) := by
  induction n generalizing s k with
  | zero => omega
  | succ n ih =>
    rw [State.writeBytes]
    by_cases hj : j = k
    · subst hj
      rw [readByte_writeBytes_other, readByte_writeByte, if_pos rfl]
      intro i hi1 hi2 he
      rw [writeByte_mode] at he
      have := addrAt_inj _ _ (by omega) (by omega) he
      omega
    · have := ih (s.writeByte (addrAt s.lp.mode la k) (byteOf v k)) (k + 1) (by omega) (by omega) (by omega)
      simpa using this

/-- What a read of several bytes answers. -/
theorem readBytes_eq_some (s : State) (la : Word) (k n : Nat) (bs : List Byte) (h : s.readBytes la k n = some bs) :
    bs.length = n ∧ ∀ j, j < n → s.readByte (addrAt s.lp.mode la (k + j)) = bs[j]? := by
  induction n generalizing k bs with
  | zero => simp [State.readBytes] at h; subst h; simp
  | succ n ih =>
    rw [State.readBytes] at h
    split at h
    · next b bs' hb hbs =>
      cases h
      obtain ⟨hl, hj⟩ := ih (k + 1) bs' hbs
      refine ⟨by simp [hl], fun j hlt => ?_⟩
      cases j with
      | zero => simpa using hb
      | succ j =>
        have := hj j (by omega)
        rw [show k + (j + 1) = k + 1 + j by omega, this]; simp
    · cases h

/-- A read of several bytes answers where each byte has a value. -/
theorem readBytes_isSome (s : State) (la : Word) (k n : Nat)
    (h : ∀ j, j < n → (s.readByte (addrAt s.lp.mode la (k + j))).isSome = true) :
    (s.readBytes la k n).isSome = true := by
  induction n generalizing k with
  | zero => rfl
  | succ n ih =>
    rw [State.readBytes]
    obtain ⟨b, hb⟩ := Option.isSome_iff_exists.1 (h 0 (by omega))
    obtain ⟨bs, hbs⟩ := Option.isSome_iff_exists.1
      (ih (k + 1) (fun j hj => by rw [show k + 1 + j = k + (j + 1) by omega]; exact h (j + 1) (by omega)))
    simp only [Nat.add_zero] at hb
    rw [hb, hbs]; rfl

end Sys2Proof.Machine
end

