-- ==== Sys2Proof/Laws/Exec.lean ====
section
/-! SUPPORT. Said once: everything an instruction can do to the state, and what each shared operation answers. The
proofs about instructions go through these lemmas instead of unfolding the meanings. -/

namespace Sys2Proof.Machine

/-- Everything that executing an instruction of `len` bytes can do to the state when it answers a next state. -/
inductive Effect (s : State) (len : Nat) : State → Prop
  /-- An exception is recorded; `d` is the counter after a free choice among several. -/
  | raised (e : Exc) (d : Nat) : Effect s len ({ s with draws := d }.raise e)
  /-- The outermost XBEGIN. -/
  | entered (fb : Word) (h0 : s.lp.nestCount = 0) (hmax : 0 < s.hw.maxNest)
      (hok : s.lp.fallbackOk s.hw fb = true) : Effect s len ((s.withLp (s.lp.enterRtm fb)).advance len)
  /-- A nested XBEGIN. -/
  | nested (h0 : s.lp.nestCount ≠ 0) (hmax : s.lp.nestCount < s.hw.maxNest) :
      Effect s len ((s.withLp { s.lp with nestCount := s.lp.nestCount + 1 }).advance len)
  /-- The nesting-limit abort. -/
  | aborted (hmax : s.hw.maxNest ≤ s.lp.nestCount) : Effect s len s.rtmAbort
  /-- General registers are written, no memory. -/
  | registers (x : Vector Word 16) : Effect s len ((s.withLp { s.lp with x := x }).advance len)
  /-- `n` bytes of memory are exchanged with a register. -/
  | exchanged (la v : Word) (n : Nat) (x : Vector Word 16) (hn : n ≤ 8) (ht : s.overlapsText la n = false)
      (hr : (s.memRead la n).isSome = true) :
      Effect s len (((s.memWrite la n v).withLp { (s.memWrite la n v).lp with x := x }).advance len)

theorem setX_eq (lp : LP) (r : RegNum) (v : Word) : lp.setX r v = { lp with x := (lp.setX r v).x } := rfl

/-- A register write changes the register file alone. -/
theorem regWrite_eq (lp : LP) (w : Width) (r : RegNum) (rex : Bool) (v : Word) :
    lp.regWrite w r rex v = { lp with x := (lp.regWrite w r rex v).x } := by
  obtain ⟨_, _, h⟩ := regWrite_is_setX lp r v w rex
  rw [h]; rfl

theorem raiseOneOf_effect (s : State) (e : Exc) (es : List Exc) (len : Nat) : Effect s len (s.raiseOneOf e es) := by
  cases es with
  | nil => exact .raised e s.draws
  | cons e' es => exact .raised _ (s.draws + 1)

theorem xbegin_effect {s t : State} {lock osz16 : Bool} {len : Nat} {off : Word}
    (h : s.xbegin lock osz16 len off = .next t) : Effect s len t := by
  unfold State.xbegin at h
  split at h
  · cases h; exact .raised excUd s.draws
  · split at h
    · next hmax =>
      split at h
      · next h0 =>
        split at h
        · next hok => cases h; exact .entered _ h0 (by omega) hok
        · cases h; exact .raised excGp0 s.draws
      · next h0 => cases h; exact .nested h0 hmax
    · next hmax => cases h; exact .aborted (by omega)

theorem xchgRR_effect {s t : State} {w : Width} {a b : RegNum} {rex lock : Bool} {len : Nat}
    (h : s.xchgRR w a b rex lock len = .next t) : Effect s len t := by
  unfold State.xchgRR at h
  split at h
  · cases h; exact .raised excUd s.draws
  · cases h
    have e := regWrite_eq (s.lp.regWrite w a rex (s.lp.regRead w b rex)) w b rex (s.lp.regRead w a rex)
    have e' := regWrite_eq s.lp w a rex (s.lp.regRead w b rex)
    unfold State.regWrite
    simp only [withLp_lp]
    rw [e, e']
    exact .registers _

theorem xchgShort_effect {s t : State} {w : Width} {r : RegNum} {rex lock : Bool} {len : Nat}
    (h : s.xchgShort w r rex lock len = .next t) : Effect s len t := by
  unfold State.xchgShort at h
  split at h
  · split at h
    · cases h; exact .raised excUd s.draws
    · cases h; exact .registers s.lp.x
  · exact xchgRR_effect h

/-- The exchange with memory answers a next state exactly where it is neither refused nor stuck. -/
theorem exchange_next {s t : State} {w : Width} {g : RegNum} {rex : Bool} {la : Word} {len : Nat} :
    s.exchange w g rex la len = .next t ↔
      s.overlapsText la w.bytes = false ∧ ∃ tm, s.memRead la w.bytes = some tm ∧
        t = ((s.memWrite la w.bytes (s.lp.regRead w g rex)).regWrite w g rex tm).advance len := by
  unfold State.exchange
  by_cases ht : s.overlapsText la w.bytes = true
  · simp [ht]
  · simp only [ht]
    cases hm : s.memRead la w.bytes with
    | none => simp
    | some tm => simp [eq_comm]

theorem exchange_effect {s t : State} {w : Width} {g : RegNum} {rex : Bool} {la : Word} {len : Nat}
    (h : s.exchange w g rex la len = .next t) : Effect s len t := by
  obtain ⟨ht, tm, hm, rfl⟩ := exchange_next.1 h
  unfold State.regWrite
  rw [regWrite_eq]
  exact .exchanged la _ w.bytes _ (by cases w <;> decide) ht (by rw [hm]; rfl)

theorem xchgModRM_effect {s t : State} {w : Width} {rm : RM} {g : RegNum} {rex lock : Bool} {len : Nat}
    (h : s.xchgModRM w rm g rex lock len = .next t) : Effect s len t := by
  cases rm with
  | reg r => exact xchgRR_effect h
  | mem m =>
    simp only [State.xchgModRM, State.xchgRM] at h
    split at h
    · cases h; exact raiseOneOf_effect _ _ _ _
    · exact exchange_effect h

/-- Whatever an instruction does is one of the effects. -/
theorem exec_effect {i : Instr} {s t : State} (h : exec i s = .next t) : Effect s i.len t := by
  cases i with
  | xbeginRel16 p imm => exact xbegin_effect h
  | xbeginRel32 p imm => exact xbegin_effect h
  | xchgAxR16 p r => exact xchgShort_effect h
  | xchgEaxR32 p r => exact xchgShort_effect h
  | xchgRaxR64 p r => exact xchgShort_effect h
  | xchgRm8R8 p rm g => exact xchgModRM_effect h
  | xchgRm8R8Rex p rm g => exact xchgModRM_effect h
  | xchgRm16R16 p rm g => exact xchgModRM_effect h
  | xchgRm32R32 p rm g => exact xchgModRM_effect h
  | xchgRm64R64 p rm g => exact xchgModRM_effect h

/-- Outside 64-bit mode the next pc fits in 32 bits (10_state.md R28). -/
theorem nextPc_lt (lp : LP) (len : Nat) (h : lp.mode ≠ .long64) : (lp.nextPc len).toNat < 2 ^ 32 := by
  unfold LP.nextPc
  split
  · contradiction
  · simp only [low32, BitVec.toNat_setWidth]; omega

/-- The bound of the code segment fits in 32 bits. -/
theorem csBound_lt (lp : LP) : lp.csBound < 2 ^ 32 := by
  unfold LP.csBound
  split
  · decide
  · decide
  · exact lp.csLimit.isLt

/-! ## Where an instruction is stuck -/

theorem xbegin_not_fault (s : State) (lock osz16 : Bool) (len : Nat) (off : Word) (f : Fault) :
    s.xbegin lock osz16 len off ≠ .fault f := by
  unfold State.xbegin
  repeat' split
  all_goals simp

theorem xchgRR_not_fault (s : State) (w : Width) (a b : RegNum) (rex lock : Bool) (len : Nat) (f : Fault) :
    s.xchgRR w a b rex lock len ≠ .fault f := by
  unfold State.xchgRR
  split <;> simp

theorem xchgShort_not_fault (s : State) (w : Width) (r : RegNum) (rex lock : Bool) (len : Nat) (f : Fault) :
    s.xchgShort w r rex lock len ≠ .fault f := by
  unfold State.xchgShort
  split
  · split <;> simp
  · exact xchgRR_not_fault _ _ _ _ _ _ _ _

theorem xchgModRM_fault {s : State} {w : Width} {rm : RM} {g : RegNum} {rex lock : Bool} {len : Nat} {f : Fault}
    (h : s.xchgModRM w rm g rex lock len = .fault f) : f = .outsideMemory := by
  cases rm with
  | reg r => exact absurd h (xchgRR_not_fault _ _ _ _ _ _ _ _)
  | mem m =>
    simp only [State.xchgModRM, State.xchgRM, State.exchange] at h
    repeat' split at h
    all_goals simp at h
    exact h.symm

/-- The only way an instruction stops the machine is an operand outside the launch memory (20_memory.md R62). -/
theorem exec_fault {i : Instr} {s : State} {f : Fault} (h : exec i s = .fault f) : f = .outsideMemory := by
  cases i with
  | xbeginRel16 p imm => exact absurd h (xbegin_not_fault _ _ _ _ _ _)
  | xbeginRel32 p imm => exact absurd h (xbegin_not_fault _ _ _ _ _ _)
  | xchgAxR16 p r => exact absurd h (xchgShort_not_fault _ _ _ _ _ _ _)
  | xchgEaxR32 p r => exact absurd h (xchgShort_not_fault _ _ _ _ _ _ _)
  | xchgRaxR64 p r => exact absurd h (xchgShort_not_fault _ _ _ _ _ _ _)
  | xchgRm8R8 p rm g => exact xchgModRM_fault h
  | xchgRm8R8Rex p rm g => exact xchgModRM_fault h
  | xchgRm16R16 p rm g => exact xchgModRM_fault h
  | xchgRm32R32 p rm g => exact xchgModRM_fault h
  | xchgRm64R64 p rm g => exact xchgModRM_fault h

/-- The counter of draws is no part of what memory answers. -/
theorem readBytes_draws (s : State) (d : Nat) (la : Word) (k n : Nat) :
    ({ s with draws := d } : State).readBytes la k n = s.readBytes la k n := by
  induction n generalizing k with
  | zero => rfl
  | succ n ih =>
    simp only [State.readBytes, ih]
    rfl

theorem memRead_draws (s : State) (d : Nat) (la : Word) (n : Nat) :
    ({ s with draws := d } : State).memRead la n = s.memRead la n := by
  unfold State.memRead
  rw [readBytes_draws]

theorem xchgModRM_fault_draws {s : State} {w : Width} {rm : RM} {g : RegNum} {rex lock : Bool} {len : Nat} {f : Fault}
    (d : Nat) (h : s.xchgModRM w rm g rex lock len = .fault f) :
    ({ s with draws := d } : State).xchgModRM w rm g rex lock len = .fault f := by
  cases rm with
  | reg r => exact absurd h (xchgRR_not_fault _ _ _ _ _ _ _ _)
  | mem m =>
    simp only [State.xchgModRM, State.xchgRM] at h ⊢
    rw [show ({ s with draws := d } : State).operandExceptions w m len = s.operandExceptions w m len from rfl]
    split at h
    · cases h
    · simp only [State.exchange] at h ⊢
      rw [memRead_draws]
      rw [show ({ s with draws := d } : State).overlapsText (s.lp.operandFacts w m len).linear w.bytes =
        s.overlapsText (s.lp.operandFacts w m len).linear w.bytes from rfl]
      split at h
      · cases h
      · next hov =>
        rw [if_neg hov]
        split at h
        · exact h
        · cases h

/-- Whether an instruction is stuck does not depend on the counter of draws. -/
theorem exec_fault_draws {i : Instr} {s : State} {f : Fault} (d : Nat) (h : exec i s = .fault f) :
    exec i { s with draws := d } = .fault f := by
  cases i with
  | xbeginRel16 p imm => exact absurd h (xbegin_not_fault _ _ _ _ _ _)
  | xbeginRel32 p imm => exact absurd h (xbegin_not_fault _ _ _ _ _ _)
  | xchgAxR16 p r => exact absurd h (xchgShort_not_fault _ _ _ _ _ _ _)
  | xchgEaxR32 p r => exact absurd h (xchgShort_not_fault _ _ _ _ _ _ _)
  | xchgRaxR64 p r => exact absurd h (xchgShort_not_fault _ _ _ _ _ _ _)
  | xchgRm8R8 p rm g => exact xchgModRM_fault_draws d h
  | xchgRm8R8Rex p rm g => exact xchgModRM_fault_draws d h
  | xchgRm16R16 p rm g => exact xchgModRM_fault_draws d h
  | xchgRm32R32 p rm g => exact xchgModRM_fault_draws d h
  | xchgRm64R64 p rm g => exact xchgModRM_fault_draws d h

end Sys2Proof.Machine
end

