-- ==== Sys2Proof/Laws/PerInstr.lean ====
section
/-! SUPPORT. Statements for all instructions, made one instruction at a time: the length of an encoding, and its bound
(30_encoding.md R81). -/

namespace Sys2Proof.Laws

/-! ## The pieces of an encoding -/

theorem legacyBytes_length (l : Legacy) :
    (legacyBytes l).length = l.opsz.toNat + l.addr67.toNat + l.lock.toNat + l.seg.isSome.toNat := by
  obtain ⟨a, b, c, d⟩ := l
  cases a <;> cases b <;> cases c <;> cases d <;> rfl

theorem rexBytes_length (present : Bool) (x : Rex) : (rexBytes present x).length = present.toNat := by
  cases present <;> rfl

theorem disp16_length (d : Disp 16) : (d.bytes bytes16).length = d.len 2 := by cases d <;> rfl

theorem disp32_length (d : Disp 32) : (d.bytes bytes32).length = d.len 4 := by cases d <;> rfl

/-- Beside its ModRM byte an `r/m` operand adds its prefixes and its tail. -/
theorem rm_length (p : Pfx) (rm : RM) :
    (legacyBytes (rm.legacy p)).length + rm.tail.length = p.opsz.toNat + p.lock.toNat + rm.len := by
  cases rm with
  | reg r => simp [RM.legacy, RM.tail, RM.len, legacyBytes_length]
  | mem m =>
    have ht : (RM.mem m).tail.length = m.addr.len := by
      obtain ⟨a, g, addr⟩ := m
      cases addr with
      | ind16 b d => exact disp16_length d
      | ind b d => exact disp32_length d
      | sib b i s d => simp [RM.tail, Addr.len, disp32_length, Nat.add_comm]
      | _ => rfl
    simp only [ht, RM.legacy, RM.len, legacyBytes_length]
    omega

theorem encodeModRM_length (p : Pfx) (w : Bool) (op : Byte) (rm : RM) (g : RegNum) :
    (encodeModRM p w op rm g).length = p.len + 2 + rm.len := by
  have h := rm_length p rm
  simp only [encodeModRM, List.length_append, rexBytes_length, Pfx.len, List.length_cons, List.length_nil]
  omega

theorem encodeShort_length (p : Pfx) (w : Bool) (r : RegNum) : (encodeShort p w r).length = p.len + 1 := by
  simp only [encodeShort, List.length_append, rexBytes_length, legacyBytes_length, Pfx.len, List.length_cons,
    List.length_nil]
  simp

theorem encodeXbegin_length (p : Pfx) (w : Bool) (imm : List Byte) :
    (encodeXbegin p w imm).length = p.len + 2 + imm.length := by
  simp only [encodeXbegin, List.length_append, rexBytes_length, legacyBytes_length, Pfx.len, List.length_cons,
    List.length_nil]
  simp

theorem pfx_len_le (p : Pfx) : p.len ≤ 3 := by
  have := Bool.toNat_le p.opsz
  have := Bool.toNat_le p.lock
  have := Bool.toNat_le p.rex
  unfold Pfx.len
  omega

theorem rm_len_le (rm : RM) : rm.len ≤ 7 := by
  cases rm with
  | reg r => exact Nat.zero_le _
  | mem m =>
    have h1 := Bool.toNat_le m.addr67
    have h2 := Bool.toNat_le m.seg.isSome
    have hd16 : ∀ d : Disp 16, d.len 2 ≤ 2 := by intro d; cases d <;> simp [Disp.len]
    have hd32 : ∀ d : Disp 32, d.len 4 ≤ 4 := by intro d; cases d <;> simp [Disp.len]
    have h3 : m.addr.len ≤ 5 := by
      cases m.addr with
      | ind16 b d => have := hd16 d; simp only [Addr.len]; omega
      | ind b d => have := hd32 d; simp only [Addr.len]; omega
      | sib b i s d => have := hd32 d; simp only [Addr.len]; omega
      | _ => simp [Addr.len]
    simp only [RM.len]
    omega

/-! ## The encoding of an instruction has the instruction's length -/

namespace EncodeLength

/-- The encoder writes as many bytes as the instruction's length counts. -/
def Statement (i : Instr) : Prop := (encode i).length = i.len

theorem xbeginRel16 (p : Pfx) (imm : BitVec 16) : Statement (.xbeginRel16 p imm) :=
  encodeXbegin_length p false (bytes16 imm)
theorem xbeginRel32 (p : Pfx) (imm : BitVec 32) : Statement (.xbeginRel32 p imm) :=
  encodeXbegin_length p p.opsz (bytes32 imm)
theorem xchgAxR16 (p : Pfx) (r : RegNum) : Statement (.xchgAxR16 p r) := encodeShort_length p false r
theorem xchgEaxR32 (p : Pfx) (r : RegNum) : Statement (.xchgEaxR32 p r) := encodeShort_length p false r
theorem xchgRaxR64 (p : Pfx) (r : RegNum) : Statement (.xchgRaxR64 p r) := encodeShort_length p true r
theorem xchgRm8R8 (p : Pfx) (rm : RM) (g : RegNum) : Statement (.xchgRm8R8 p rm g) :=
  encodeModRM_length p false _ rm g
theorem xchgRm8R8Rex (p : Pfx) (rm : RM) (g : RegNum) : Statement (.xchgRm8R8Rex p rm g) :=
  encodeModRM_length p false _ rm g
theorem xchgRm16R16 (p : Pfx) (rm : RM) (g : RegNum) : Statement (.xchgRm16R16 p rm g) :=
  encodeModRM_length p false _ rm g
theorem xchgRm32R32 (p : Pfx) (rm : RM) (g : RegNum) : Statement (.xchgRm32R32 p rm g) :=
  encodeModRM_length p false _ rm g
theorem xchgRm64R64 (p : Pfx) (rm : RM) (g : RegNum) : Statement (.xchgRm64R64 p rm g) :=
  encodeModRM_length p true _ rm g

end EncodeLength

/-! ## The length of every instruction is between 1 and 12 -/

namespace LenBound

/-- "the longest is 4 legacy prefixes, REX, opcode, ModRM, SIB and a 4-byte displacement: 12 bytes" (R81). -/
def Statement (i : Instr) : Prop := 1 ≤ i.len ∧ i.len ≤ 12

/-- The bound of the forms with a ModRM byte. -/
theorem modRM (p : Pfx) (rm : RM) : 1 ≤ p.len + 2 + rm.len ∧ p.len + 2 + rm.len ≤ 12 := by
  have := pfx_len_le p
  have := rm_len_le rm
  omega

theorem xbeginRel16 (p : Pfx) (imm : BitVec 16) : Statement (.xbeginRel16 p imm) := by
  have := pfx_len_le p
  simp only [Statement, Instr.len]
  omega
theorem xbeginRel32 (p : Pfx) (imm : BitVec 32) : Statement (.xbeginRel32 p imm) := by
  have := pfx_len_le p
  simp only [Statement, Instr.len]
  omega
theorem xchgAxR16 (p : Pfx) (r : RegNum) : Statement (.xchgAxR16 p r) := by
  have := pfx_len_le p
  simp only [Statement, Instr.len]
  omega
theorem xchgEaxR32 (p : Pfx) (r : RegNum) : Statement (.xchgEaxR32 p r) := xchgAxR16 p r
theorem xchgRaxR64 (p : Pfx) (r : RegNum) : Statement (.xchgRaxR64 p r) := xchgAxR16 p r
theorem xchgRm8R8 (p : Pfx) (rm : RM) (g : RegNum) : Statement (.xchgRm8R8 p rm g) := modRM p rm
theorem xchgRm8R8Rex (p : Pfx) (rm : RM) (g : RegNum) : Statement (.xchgRm8R8Rex p rm g) := modRM p rm
theorem xchgRm16R16 (p : Pfx) (rm : RM) (g : RegNum) : Statement (.xchgRm16R16 p rm g) := modRM p rm
theorem xchgRm32R32 (p : Pfx) (rm : RM) (g : RegNum) : Statement (.xchgRm32R32 p rm g) := modRM p rm
theorem xchgRm64R64 (p : Pfx) (rm : RM) (g : RegNum) : Statement (.xchgRm64R64 p rm g) := modRM p rm

end LenBound

end Sys2Proof.Laws
end

