-- ==== Sys2Proof/Laws/Registers.lean ====
section
/-! SUPPORT. The laws of the general registers (10_state.md R20 to R24): what a register write leaves, and what a read
after it gives; and the next pc in the form the statements use (R28). -/

namespace Sys2Proof.Machine

/-- A whole-register write sets that register and no other. -/
theorem getElem_setX (lp : LP) (r q : RegNum) (v : Word) :
    (lp.setX r v).x[q] = if q = r then v else lp.x[q] := by
  show (lp.x.set r.val v r.isLt)[q.val] = _
  rw [Vector.getElem_set]
  by_cases h : q = r
  · subst h; simp
  · have : r.val ≠ q.val := fun e => h (Fin.ext e.symm)
    simp [h, this]

/-- The byte register a number names, as the operations find it (R22). -/
theorem byteHome_eq (r : RegNum) (rex : Bool) :
    byteHome r rex = if highByteReg r rex then (highByteHome r, true) else (r, false) := by
  revert r rex; decide

/-- A register write leaves every register alone but the one the operand is part of. -/
theorem getElem_regWrite_other (lp : LP) (w : Width) (r : RegNum) (rex : Bool) (v : Word) (q : RegNum)
    (h : q ≠ regHome w r rex) : (lp.regWrite w r rex v).x[q] = lp.x[q] := by
  cases w with
  | w8 =>
    simp only [regHome, byteHome_eq] at h
    unfold LP.regWrite
    cases hb : highByteReg r rex
    · rw [hb] at h
      exact (getElem_setX _ _ _ _).trans (if_neg h)
    · rw [hb] at h
      exact (getElem_setX _ _ _ _).trans (if_neg h)
  | w16 => exact (getElem_setX _ _ _ _).trans (if_neg h)
  | w32 => exact (getElem_setX _ _ _ _).trans (if_neg h)
  | w64 => exact (getElem_setX _ _ _ _).trans (if_neg h)

/-- A read of width `w` fits in `w` bytes. -/
theorem regRead_lt (lp : LP) (w : Width) (r : RegNum) (rex : Bool) :
    (lp.regRead w r rex).toNat < 2 ^ (8 * w.bytes) := by
  unfold LP.regRead
  cases w
  · dsimp only
    split <;> simp [Width.bytes] <;> omega
  · simp [Width.bytes]; omega
  · simp [Width.bytes]; omega
  · exact (lp.x[r]).isLt

/-- `next_pc` in the form the statements use (R28). -/
theorem nextPc_eq_pcAfter (lp : LP) (len : Nat) : lp.nextPc len = pcAfter lp len := by
  unfold LP.nextPc pcAfter
  cases lp.mode <;> simp only [low32] <;> (apply BitVec.eq_of_toNat_eq; simp)

/-- Advancing changes the pc alone. -/
theorem advance_eq (s : State) (len : Nat) :
    s.advance len = { s with lp := { s.lp with pc := pcAfter s.lp len } } := by
  unfold State.advance State.withLp LP.setPc
  rw [nextPc_eq_pcAfter]

/-! ## The bits of a partial register write -/

section
variable (o v : BitVec 64)

/-- The bits of a register whose low 16 bits are replaced (R24). -/
theorem getLsbD_write16 (i : Nat) (hi : i < 64) :
    BitVec.getLsbD (w := 64) (o.extractLsb' 16 48 ++ v.extractLsb' 0 16) i =
      if i < 16 then v.getLsbD i else o.getLsbD i := by
  refine (BitVec.getLsbD_append (x := o.extractLsb' 16 48) (y := v.extractLsb' 0 16)).trans ?_
  by_cases h : i < 16
  · simp [h]
  · simp [h, show i - 16 < 48 by omega, show 16 + (i - 16) = i by omega]

/-- The bits of a register whose low 8 bits are replaced (R24). -/
theorem getLsbD_write8 (i : Nat) (hi : i < 64) :
    BitVec.getLsbD (w := 64) (o.extractLsb' 8 56 ++ v.extractLsb' 0 8) i =
      if i < 8 then v.getLsbD i else o.getLsbD i := by
  refine (BitVec.getLsbD_append (x := o.extractLsb' 8 56) (y := v.extractLsb' 0 8)).trans ?_
  by_cases h : i < 8
  · simp [h]
  · simp [h, show i - 8 < 56 by omega, show 8 + (i - 8) = i by omega]

/-- The bits of a register whose bits 15:8 are replaced (R24). -/
theorem getLsbD_writeHigh8 (i : Nat) (hi : i < 64) :
    BitVec.getLsbD (w := 64) (o.extractLsb' 16 48 ++ v.extractLsb' 0 8 ++ o.extractLsb' 0 8) i =
      if i < 8 then o.getLsbD i else if i < 16 then v.getLsbD (i - 8) else o.getLsbD i := by
  refine (BitVec.getLsbD_append (x := o.extractLsb' 16 48 ++ v.extractLsb' 0 8) (y := o.extractLsb' 0 8)).trans ?_
  rw [BitVec.getLsbD_append]
  by_cases h : i < 8
  · simp [h]
  · by_cases h2 : i < 16
    · simp [h, h2, show i - 8 < 8 by omega]
    · simp [h, h2, show ¬ i - 8 < 8 by omega, show i - 8 - 8 < 48 by omega, show 16 + (i - 8 - 8) = i by omega]

end

end Sys2Proof.Machine
end

