-- ==== Sys2Proof/Laws/Schedule.lean ====
section
/-! SUPPORT. The logical processors as one list, and what choosing the mover does to it. -/

namespace Sys2Proof.Machine

/-- Changing the focus leaves every logical processor in its place. -/
@[simp] theorem focus_all (s : State) (k : Nat) : (s.focus k).all = s.all := by
  unfold State.focus
  split
  · rfl
  · next l rest h =>
    show s.all.take k ++ l :: rest = s.all
    rw [← h, List.take_append_drop]

theorem focus_fixed (s : State) (k : Nat) :
    (s.focus k).hw = s.hw ∧ (s.focus k).mem = s.mem ∧ (s.focus k).text = s.text ∧
      (s.focus k).endAddr = s.endAddr ∧ (s.focus k).draws = s.draws := by
  unfold State.focus
  split <;> exact ⟨rfl, rfl, rfl, rfl, rfl⟩

/-- In focus stands the logical processor of that position. -/
theorem focus_lp (s : State) (k : Nat) (l : LP) (h : s.all[k]? = some l) :
    (s.focus k).lp = l ∧ (s.focus k).before.length = k := by
  obtain ⟨hk, hl⟩ := List.getElem?_eq_some_iff.1 h
  have hd : s.all.drop k = l :: s.all.drop (k + 1) := by rw [List.drop_eq_getElem_cons hk, hl]
  unfold State.focus
  rw [hd]
  exact ⟨rfl, by simp; omega⟩

/-- A fetch does not depend on the counter of draws. -/
theorem fetchBytes_draws (s : State) (d a n : Nat) :
    ({ s with draws := d } : State).fetchBytes a n = s.fetchBytes a n := by
  induction n generalizing a with
  | zero => rfl
  | succ n ih =>
    simp only [State.fetchBytes, ih]
    rfl

@[simp] theorem fetchDecode_draws (s : State) (d : Nat) :
    ({ s with draws := d } : State).fetchDecode = s.fetchDecode := by
  unfold State.fetchDecode State.window
  rw [fetchBytes_draws]

/-- An InstrStep that is not enabled is stuck outside the launch memory, whatever the counter of draws. -/
theorem instrStep_fault {s : State} {f : Fault} (h : s.instrStep = .fault f) :
    f = .outsideMemory ∧ ∀ d, ({ s with draws := d } : State).instrStep = .fault f := by
  unfold State.instrStep at h
  split at h
  · cases h
  · next i hi =>
    refine ⟨exec_fault h, fun d => ?_⟩
    unfold State.instrStep
    rw [fetchDecode_draws, hi]
    exact exec_fault_draws d h

theorem instrStuck_iff (s : State) : s.instrStuck = true ↔ s.instrStep = .fault .outsideMemory := by
  unfold State.instrStuck
  split
  · next f h => exact ⟨fun _ => by rw [h, (instrStep_fault h).1], fun _ => rfl⟩
  · next h => exact ⟨fun hc => by simp at hc, fun hc => absurd hc (h _)⟩

@[simp] theorem instrStuck_draws (s : State) (d : Nat) : ({ s with draws := d } : State).instrStuck = s.instrStuck := by
  rw [Bool.eq_iff_iff, instrStuck_iff, instrStuck_iff]
  exact ⟨fun h => (instrStep_fault h).2 s.draws, fun h => (instrStep_fault h).2 d⟩

@[simp] theorem canMove_draws (s : State) (d : Nat) : ({ s with draws := d } : State).canMove = s.canMove := by
  unfold State.canMove
  rw [instrStuck_draws]

/-- Advancing the counter of draws and changing the focus commute. -/
theorem focus_draws (s : State) (d k : Nat) :
    ({ s with draws := d } : State).focus k = { s.focus k with draws := d } := by
  unfold State.focus
  rw [show ({ s with draws := d } : State).all = s.all from rfl]
  split <;> rfl

theorem mem_movers (s : State) (k : Nat) : k ∈ s.movers ↔ k < s.all.length ∧ (s.focus k).canMove = true := by
  unfold State.movers
  rw [List.mem_filter, List.mem_range]

/-- No logical processor is a mover exactly when none can move. -/
theorem movers_eq_nil (s : State) : s.movers = [] ↔ ∀ k, k < s.all.length → (s.focus k).canMove = false := by
  rw [List.eq_nil_iff_forall_not_mem]
  exact forall_congr' fun k => by rw [mem_movers]; simp

/-- The chosen mover is one that can move, in focus, the counter of draws perhaps advanced. -/
theorem pickMover_cases {s u : State} (h : s.pickMover = some u) :
    ∃ k d, k ∈ s.movers ∧ u = { s.focus k with draws := d } := by
  unfold State.pickMover at h
  split at h
  · cases h
  · next k hm =>
    cases h
    exact ⟨k, (s.focus k).draws, by rw [hm]; exact List.mem_singleton.2 rfl, rfl⟩
  · next k ks _ hm =>
    cases h
    refine ⟨_, s.draws + 1, ?_, focus_draws s _ _⟩
    rw [hm]
    have hlt : Config.freeMover s.draws % (ks.length + 1) < (k :: ks).length := Nat.mod_lt _ (by simp)
    rw [List.getD_eq_getElem?_getD, List.getElem?_eq_getElem hlt]
    exact List.getElem_mem hlt

theorem pickMover_none (s : State) : s.pickMover = none ↔ s.movers = [] := by
  unfold State.pickMover
  split <;> simp_all

/-- The move of the logical processor in focus changes nothing but the counter of draws. -/
theorem moveOf_cases (s : State) :
    (s.moveOf = .instrStep s ∧ s.lp.rtmActive = false) ∨
      ∃ d, s.lp.rtmActive = true ∧ (s.moveOf = .abortStep { s with draws := d } ∨
        (s.moveOf = .instrStep { s with draws := d } ∧ s.lp.pc ≠ s.endAddr ∧ s.instrStuck = false)) := by
  unfold State.moveOf
  by_cases ha : s.lp.rtmActive = true
  · rw [if_pos ha]
    refine .inr ?_
    split
    · exact ⟨s.draws, ha, .inl rfl⟩
    · next hp =>
      rw [not_or, Bool.not_eq_true] at hp
      split
      · exact ⟨s.draws + 1, ha, .inl rfl⟩
      · exact ⟨s.draws + 1, ha, .inr ⟨rfl, hp.1, hp.2⟩⟩
  · exact .inl ⟨by simp [ha], by simpa using ha⟩

/-- What a machine with an enabled step does: one of those that can move, in focus, aborts its transaction, or takes its
InstrStep, which is not stuck. -/
theorem step_of_pick {s v : State} (h : s.pickMover = some v) :
    ∃ k d, k ∈ s.movers ∧
      (((s.focus k).lp.rtmActive = true ∧ step s = .next ({ s.focus k with draws := d } : State).rtmAbort) ∨
        ((s.focus k).lp.pc ≠ s.endAddr ∧ (s.focus k).instrStuck = false ∧
          step s = ({ s.focus k with draws := d } : State).instrStep)) := by
  obtain ⟨k, d, hk, rfl⟩ := pickMover_cases h
  have hc := ((mem_movers s k).1 hk).2
  have he : (s.focus k).endAddr = s.endAddr := (focus_fixed s k).2.2.2.1
  refine ⟨k, ?_⟩
  unfold step State.nextMove
  rw [h]
  rcases moveOf_cases { s.focus k with draws := d } with ⟨hm, ha⟩ | ⟨d', ha, hm | ⟨hm, hp, hst⟩⟩
  · refine ⟨d, hk, .inr ?_⟩
    simp only [State.canMove, show (s.focus k).lp.rtmActive = false from ha, Bool.false_or, Bool.and_eq_true,
      decide_eq_true_eq, Bool.not_eq_true'] at hc
    exact ⟨by rw [← he]; exact hc.2.1, hc.2.2, by simp only [hm]⟩
  · exact ⟨d', hk, .inl ⟨ha, by simp only [hm]⟩⟩
  · exact ⟨d', hk, .inr ⟨by rw [← he]; exact hp, by rwa [instrStuck_draws] at hst, by simp only [hm]⟩⟩

/-- What a step does when it answers a next state: with the chosen logical processor in focus, an abort inside a
transaction, or the decoded instruction. -/
theorem step_cases {s t : State} (h : step s = .next t) :
    ∃ k d u, k ∈ s.movers ∧ u = { s.focus k with draws := d } ∧
      ((u.lp.rtmActive = true ∧ t = u.rtmAbort) ∨
        ∃ i, u.fetchDecode = .ok i ∧ exec i u = .next t ∧ u.lp.pc ≠ u.endAddr) := by
  cases hp : s.pickMover with
  | none =>
    unfold step State.nextMove at h
    rw [hp] at h
    cases h
  | some v =>
    obtain ⟨k, d, hk, ⟨ha, hs⟩ | ⟨hpc, -, hs⟩⟩ := step_of_pick hp
    · rw [hs] at h
      cases h
      exact ⟨k, d, _, hk, rfl, .inl ⟨ha, rfl⟩⟩
    · rw [hs] at h
      unfold State.instrStep at h
      split at h
      · cases h
      · next i hi =>
        refine ⟨k, d, _, hk, rfl, .inr ⟨i, hi, h, ?_⟩⟩
        rw [show ({ s.focus k with draws := d } : State).endAddr = s.endAddr from (focus_fixed s k).2.2.2.1]
        exact hpc

end Sys2Proof.Machine
end

