-- ==== Sys2Proof/Laws/Step.lean ====
section
/-! SUPPORT. What a step answers when it is no next state, and the step of a machine of one logical processor
(70_reset_and_hazards.md R204). -/

namespace Sys2Proof.Machine

/-- With nothing before it the moving logical processor is at position 0. -/
theorem focus_zero (s : State) (h : s.before = []) : s.focus 0 = s := by
  obtain ⟨hw, before, lp, after, mem, text, endAddr, draws⟩ := s
  subst h
  rfl

/-- The only logical processor is the one that moves, where it can. -/
theorem pickMover_single (s : State) (hb : s.before = []) (ha : s.after = []) (hc : s.canMove = true) :
    s.pickMover = some s := by
  have hm : s.movers = [0] := by
    unfold State.movers State.all
    rw [hb, ha]
    simp [focus_zero s hb, hc]
  unfold State.pickMover
  rw [hm]
  simp [focus_zero s hb]

/-- A step faults exactly where no logical processor can move, for the reason why. -/
theorem step_fault_iff (s : State) (f : Fault) : step s = .fault f ↔ s.movers = [] ∧ f = s.stopReason := by
  cases hp : s.pickMover with
  | none =>
    have hm := (pickMover_none s).1 hp
    unfold step State.nextMove
    rw [hp]
    simp [hm, eq_comm]
  | some v =>
    have hm : s.movers ≠ [] := fun hc => by rw [(pickMover_none s).2 hc] at hp; cases hp
    simp only [hm, false_and, iff_false]
    intro h
    obtain ⟨k, d, hk, ⟨-, hs⟩ | ⟨-, hst, hs⟩⟩ := step_of_pick hp
    · rw [hs] at h; cases h
    · rw [hs] at h
      have hf := (instrStep_fault h).2 (s.focus k).draws
      rw [(instrStep_fault h).1] at hf
      rw [(instrStuck_iff (s.focus k)).2 hf] at hst
      cases hst

/-- A run of one step more begins with a step. -/
theorem run_succ (n : Nat) (s : State) :
    Sys2Proof.core.run (n + 1) s =
      match step s with
      | .next t => Sys2Proof.core.run n t
      | .fault f => .fault f
      | .refused r => .refused r := by
  cases h : step s <;> simp [Host.Core.run, Sys2Proof.core, h]

end Sys2Proof.Machine
end

