-- ==== Sys2Proof/Laws/Values.lean ====
section
/-! SUPPORT. Words as bytes (20_memory.md R53, R54): what a read of several bytes answers, byte by byte, and when two
words of a width are equal. -/

namespace Sys2Proof.Machine

/-- Byte `k` of the word made of a list of bytes is the list's. -/
theorem byteOf_wordOfBytes (bs : List Byte) : ∀ k, bs.length ≤ 8 → k < bs.length →
    some (byteOf (wordOfBytes bs) k) = bs[k]? := by
  induction bs with
  | nil => exact fun k _ h => absurd h (Nat.not_lt_zero k)
  | cons b bs ih =>
    intro k h8 hk
    simp only [List.length_cons] at h8 hk
    cases k with
    | zero =>
      simp only [List.getElem?_cons_zero, Option.some.injEq, byteOf, wordOfBytes]
      apply BitVec.eq_of_getLsbD_eq
      intro i hi
      simp
    | succ k =>
      rw [List.getElem?_cons_succ, ← ih k (by omega) (by omega)]
      simp only [Option.some.injEq, byteOf, wordOfBytes]
      apply BitVec.eq_of_getLsbD_eq
      intro i hi
      have hb : BitVec.getLsbD b (8 * (k + 1) + i) = false := BitVec.getLsbD_of_ge _ _ (by omega)
      simp [hi, hb, show 8 * (k + 1) + i - 8 = 8 * k + i by omega, show 8 * (k + 1) + i < 64 by omega,
        show ¬ 8 * (k + 1) + i < 8 by omega]
      rfl

/-- The word made of `n` bytes fits in `n` bytes. -/
theorem wordOfBytes_lt (bs : List Byte) : (wordOfBytes bs).toNat < 2 ^ (8 * bs.length) := by
  induction bs with
  | nil => simp [wordOfBytes]
  | cons b bs ih =>
    simp only [wordOfBytes, BitVec.toNat_or, List.length_cons]
    apply Nat.or_lt_two_pow
    · simp only [BitVec.toNat_shiftLeft, Nat.shiftLeft_eq]
      refine Nat.lt_of_le_of_lt (Nat.mod_le _ _) ?_
      rw [show 8 * (bs.length + 1) = 8 * bs.length + 8 by omega, Nat.pow_add]
      exact Nat.mul_lt_mul_of_pos_right ih (by decide)
    · simp only [BitVec.toNat_setWidth]
      refine Nat.lt_of_le_of_lt (Nat.mod_le _ _) ?_
      exact Nat.lt_of_lt_of_le b.isLt (Nat.pow_le_pow_right (by decide) (by omega))

/-- Two words that fit in `n` bytes are equal when those bytes are. -/
theorem word_eq_of_bytes (u v : Word) (n : Nat) (hu : u.toNat < 2 ^ (8 * n)) (hv : v.toNat < 2 ^ (8 * n))
    (h : ∀ k, k < n → byteOf u k = byteOf v k) : u = v := by
  apply BitVec.eq_of_getLsbD_eq
  intro i hi
  by_cases h2 : i < 8 * n
  · have := congrArg (fun b => BitVec.getLsbD b (i % 8)) (h (i / 8) (by omega))
    simp only [byteOf] at this
    simp [show i % 8 < 8 by omega] at this
    rwa [show 8 * (i / 8) + i % 8 = i by omega] at this
  · have hp : 2 ^ (8 * n) ≤ 2 ^ i := Nat.pow_le_pow_right (by decide) (by omega)
    have a : u.getLsbD i = false := Nat.testBit_lt_two_pow (Nat.lt_of_lt_of_le hu hp)
    have b : v.getLsbD i = false := Nat.testBit_lt_two_pow (Nat.lt_of_lt_of_le hv hp)
    rw [a, b]

theorem trunc_lt (w : Width) (v : Word) : (w.trunc v).toNat < 2 ^ (8 * w.bytes) := by
  have := v.isLt
  cases w <;> simp [Width.trunc, Width.bytes] <;> omega

theorem trunc_eq_self (w : Width) (v : Word) (h : v.toNat < 2 ^ (8 * w.bytes)) : w.trunc v = v := by
  apply BitVec.eq_of_toNat_eq
  have := v.isLt
  cases w <;> simp [Width.trunc, Width.bytes] at h ⊢ <;> omega

/-- A width has at most 8 bytes. -/
theorem width_le (w : Width) : w.bytes ≤ 8 := by cases w <;> decide

/-- What a read of several bytes answers: a word of that many bytes, each as the memory holds it. -/
theorem memRead_eq_some {s : State} {la v : Word} {n : Nat} (h8 : n ≤ 8) :
    s.memRead la n = some v ↔
      v.toNat < 2 ^ (8 * n) ∧ ∀ k, k < n → s.readByte (addrAt s.lp.mode la k) = some (byteOf v k) := by
  have fwd : ∀ v, s.memRead la n = some v →
      v.toNat < 2 ^ (8 * n) ∧ ∀ k, k < n → s.readByte (addrAt s.lp.mode la k) = some (byteOf v k) := by
    intro v h
    unfold State.memRead at h
    split at h
    · next bs hbs =>
      cases h
      obtain ⟨hl, hj⟩ := readBytes_eq_some _ _ _ _ _ hbs
      subst hl
      refine ⟨wordOfBytes_lt bs, fun k hk => ?_⟩
      have := hj k hk
      rw [Nat.zero_add] at this
      rw [this, byteOf_wordOfBytes bs k h8 hk]
    · cases h
  refine ⟨fwd v, fun ⟨hv, hb⟩ => ?_⟩
  obtain ⟨bs, hbs⟩ := Option.isSome_iff_exists.1
    (readBytes_isSome s la 0 n (by intro j hj; rw [Nat.zero_add, hb j hj]; rfl))
  have hr : s.memRead la n = some (wordOfBytes bs) := by unfold State.memRead; rw [hbs]
  obtain ⟨ha, hk⟩ := fwd _ hr
  rw [hr, word_eq_of_bytes _ v n ha hv]
  intro k hlt
  exact Option.some.inj ((hk k hlt).symm.trans (hb k hlt))

/-- A read of several bytes has no answer where one of them has no value. -/
theorem memRead_eq_none {s : State} {la : Word} {n k : Nat} (hk : k < n)
    (h : s.readByte (addrAt s.lp.mode la k) = none) : s.memRead la n = none := by
  unfold State.memRead
  split
  · next bs hbs =>
    obtain ⟨hl, hj⟩ := readBytes_eq_some _ _ _ _ _ hbs
    have := hj k hk
    rw [Nat.zero_add, h, List.getElem?_eq_getElem (by omega)] at this
    cases this
  · rfl

/-- An operand overlaps the program text where one of its bytes is text. -/
theorem overlapsText_iff (s : State) (la : Word) (n : Nat) :
    s.overlapsText la n = true ↔ ∃ k, k < n ∧ s.inText (addrAt s.lp.mode la k) = true := by
  unfold State.overlapsText
  simp

/-- Outside a transaction a write leaves the write buffer alone (R65). -/
theorem writeBytes_wbuf_inactive (s : State) (la v : Word) (k n : Nat) (h : s.lp.rtmActive = false) :
    (s.writeBytes la v k n).lp.wbuf = s.lp.wbuf := by
  induction n generalizing s k with
  | zero => rfl
  | succ n ih =>
    rw [State.writeBytes, ih _ _ (by simpa using h), writeByte_lp]
    simp [h]

end Sys2Proof.Machine
end

