-- ==== Sys2Proof/Tests/Slice0.lean ====
section
/-! SUPPORT. The model's own tests: ill-formed terms refused, words written out from the encoding tables decoded, single
steps with results from 95_test_vectors.md (each test names its vector), and for the hypotheses of every statement a
state and operands that meet them. -/

namespace Sys2Proof.Tests

open Sys2Proof Sys2Proof.Machine

/-! ## Helpers -/

/-- A machine of one logical processor with code at its pc and data in memory. -/
def machine (lp : LP) (code : List Byte) (data : Memory) : State :=
  { State.reset with
    lp := lp
    mem := putBytes data lp.pc.toNat code
    text := [{ base := lp.pc.toNat, size := code.length }] }

/-- The launch logical processor of the test vectors, at 0x1000 in 64-bit mode. -/
def cpu : LP := LP.reset

/-- The same in another mode. -/
def cpuIn (m : Mode) (d : Bool) (limit : BitVec 32) (pc : Word) : LP :=
  { LP.reset with mode := m, csD := d, csLimit := limit, pc := pc }

/-- A logical processor inside a transaction. -/
def inTx (lp : LP) (count : Nat) (fallback : Word) : LP :=
  { lp with nestCount := count, rtmActive := true, fallback := fallback, checkpoint := lp.recordRegs }

/-- The answer is a next state with a property. -/
def nextIs (o : Result) (p : State → Bool) : Bool :=
  match o with
  | .next t => p t
  | _ => false

/-- The answer is a refusal with a property. -/
def refusedIs (o : Result) (p : Refusal → Bool) : Bool :=
  match o with
  | .refused r => p r
  | _ => false

/-- The answer is a fault of that name. -/
def faultIs (o : Result) (f : Fault) : Bool :=
  match o with
  | .fault g => decide (g = f)
  | _ => false

theorem exists_next {o : Result} (h : nextIs o (fun _ => true) = true) : ∃ t, o = .next t := by
  cases o with
  | next t => exact ⟨t, rfl⟩
  | fault f => cases h
  | refused r => cases h

/-- The instruction decoded, the bytes after it dropped. -/
def decoded (c : CodeCtx) (bytes : List Byte) : Option Instr :=
  match decode c bytes with
  | .ok (i, _) => some i
  | .error _ => none

/-- Why bytes are refused. -/
def rejected (c : CodeCtx) (bytes : List Byte) : Option Reject :=
  match decode c bytes with
  | .ok _ => none
  | .error e => some e

def long : CodeCtx := { mode := .long64, csD := false }
def prot32 : CodeCtx := { mode := .protected32, csD := true }
def prot16 : CodeCtx := { mode := .protected32, csD := false }
def real : CodeCtx := { mode := .real, csD := false }

def noPfx : Pfx := { opsz := false, lock := false, rex := false }
def p66 : Pfx := { opsz := true, lock := false, rex := false }
def pLock : Pfx := { opsz := false, lock := true, rex := false }
def pRex : Pfx := { opsz := false, lock := false, rex := true }

/-- `[register + disp]` without prefixes. -/
def at0 (b : RegNum) (d : Disp 32) : Mem := { addr67 := false, seg := none, addr := .ind b d }

/-! ## Ill-formed terms -/

/-- A REX byte outside 64-bit mode (R84). -/
theorem test_ill_rex_outside_long : Instr.wf prot32 (.xchgEaxR32 pRex 3) = false := by decide
/-- rel16 with 32-bit operand size (R88). -/
theorem test_ill_rel16_size : Instr.wf long (.xbeginRel16 noPfx 0) = false := by decide
/-- rel32 with 16-bit operand size (R88). -/
theorem test_ill_rel32_size : Instr.wf long (.xbeginRel32 p66 0) = false := by decide
/-- AX with 32-bit operand size (R85). -/
theorem test_ill_ax_size : Instr.wf long (.xchgAxR16 noPfx 3) = false := by decide
/-- EAX with 16-bit operand size (R85). -/
theorem test_ill_eax_size : Instr.wf real (.xchgEaxR32 noPfx 3) = false := by decide
/-- RAX without REX (R90). -/
theorem test_ill_rax_rex : Instr.wf long (.xchgRaxR64 noPfx 3) = false := by decide
/-- Register 8 without REX (R25). -/
theorem test_ill_reach : Instr.wf long (.xchgEaxR32 noPfx 8) = false := by decide
/-- 66 before opcode 86 (R82). -/
theorem test_ill_byte_66 : Instr.wf long (.xchgRm8R8 p66 (.reg 0) 1) = false := by decide
/-- The form without REX with a REX byte, and the other way round (R93). -/
theorem test_ill_byte_rex :
    Instr.wf long (.xchgRm8R8 pRex (.reg 0) 1) = false ∧ Instr.wf long (.xchgRm8R8Rex noPfx (.reg 0) 1) = false := by
  decide
/-- Opcode 87 at the wrong operand size (R85). -/
theorem test_ill_wide_size :
    Instr.wf long (.xchgRm16R16 noPfx (.reg 0) 1) = false ∧ Instr.wf real (.xchgRm32R32 noPfx (.reg 0) 1) = false ∧
      Instr.wf long (.xchgRm64R64 noPfx (.reg 0) 1) = false := by
  decide
/-- Addressing of another address size (R86). -/
theorem test_ill_address_size :
    Instr.wf long (.xchgRm32R32 noPfx (.mem ⟨false, none, .abs16 0⟩) 1) = false ∧
      Instr.wf real (.xchgRm16R16 noPfx (.mem (at0 3 .none)) 1) = false := by
  decide
/-- BP alone needs a displacement (R94). -/
theorem test_ill_bp : Instr.wf real (.xchgRm16R16 noPfx (.mem ⟨false, none, .ind16 .bp .none⟩) 1) = false := by decide
/-- A base of number 4 needs a SIB byte, one of number 5 a displacement (R95, R96). -/
theorem test_ill_base :
    Instr.wf long (.xchgRm32R32 noPfx (.mem (at0 4 .none)) 1) = false ∧
      Instr.wf long (.xchgRm32R32 noPfx (.mem (at0 5 .none)) 1) = false ∧
      Instr.wf long (.xchgRm32R32 noPfx (.mem ⟨false, none, .sib 5 none 0 .none⟩) 1) = false := by
  decide
/-- Number 4 is no index, number 12 needs REX (R95, R96). -/
theorem test_ill_index :
    Instr.wf long (.xchgRm32R32 noPfx (.mem ⟨false, none, .sib 3 (some 4) 0 .none⟩) 1) = false ∧
      Instr.wf long (.xchgRm32R32 noPfx (.mem ⟨false, none, .sibAbs (some 12) 0 0⟩) 1) = false := by
  decide
/-- A displacement alone outside, and relative to the pc inside, 64-bit mode only (R95, R96). -/
theorem test_ill_disp_only :
    Instr.wf long (.xchgRm32R32 noPfx (.mem ⟨false, none, .abs32 0⟩) 1) = false ∧
      Instr.wf prot32 (.xchgRm32R32 noPfx (.mem ⟨false, none, .ripRel 0⟩) 1) = false := by
  decide

/-! ## Words from the encoding tables (30_encoding.md R87 to R99; E vectors) -/

/-- E6: C7 F8 iw. -/
theorem test_decode_xbeginRel16 : decoded real [0xC7, 0xF8, 0x00, 0x10] = some (.xbeginRel16 noPfx 0x1000) := by decide
/-- E1: C7 F8 id. -/
theorem test_decode_xbeginRel32 :
    decoded long [0xC7, 0xF8, 0x0A, 0, 0, 0] = some (.xbeginRel32 noPfx 0x0000000A) := by decide
/-- E4: REX.W overrides 66. -/
theorem test_decode_xbegin_rexw :
    decoded long [0x66, 0x48, 0xC7, 0xF8, 0x10, 0, 0, 0] = some (.xbeginRel32 ⟨true, false, true⟩ 0x10) := by decide
/-- E7: 66 makes it rel32 in real-address mode. -/
theorem test_decode_xbegin_real66 :
    decoded real [0x66, 0xC7, 0xF8, 0, 0, 1, 0] = some (.xbeginRel32 p66 0x00010000) := by decide
/-- E9, second: 66 93. -/
theorem test_decode_xchgAxR16 : decoded long [0x66, 0x93] = some (.xchgAxR16 p66 3) := by decide
/-- E9, fourth: 41 93. -/
theorem test_decode_xchgEaxR32 : decoded long [0x41, 0x93] = some (.xchgEaxR32 pRex 11) := by decide
/-- E9, fifth: 49 93. -/
theorem test_decode_xchgRaxR64 : decoded long [0x49, 0x93] = some (.xchgRaxR64 pRex 11) := by decide
/-- E28, first: 86 E0. -/
theorem test_decode_xchgRm8R8 : decoded long [0x86, 0xE0] = some (.xchgRm8R8 noPfx (.reg 0) 4) := by decide
/-- E28, third: 48 86 E0, REX.W does not widen opcode 86. -/
theorem test_decode_xchgRm8R8Rex : decoded long [0x48, 0x86, 0xE0] = some (.xchgRm8R8Rex pRex (.reg 0) 4) := by decide
/-- E13: 66 87 4B 04. -/
theorem test_decode_xchgRm16R16 :
    decoded long [0x66, 0x87, 0x4B, 0x04] = some (.xchgRm16R16 p66 (.mem (at0 3 (.d8 4))) 1) := by decide
/-- E11: 87 D9. -/
theorem test_decode_xchgRm32R32 : decoded long [0x87, 0xD9] = some (.xchgRm32R32 noPfx (.reg 1) 3) := by decide
/-- E21: 4A 87 04 23, R12 as an index. -/
theorem test_decode_xchgRm64R64 :
    decoded long [0x4A, 0x87, 0x04, 0x23] =
      some (.xchgRm64R64 pRex (.mem ⟨false, none, .sib 3 (some 12) 0 .none⟩) 0) := by decide
/-- E15, E17, E18: pc-relative, [RSP], [RBP+0]. -/
theorem test_decode_forms64 :
    decoded long [0x87, 0x05, 0x10, 0, 0, 0] = some (.xchgRm32R32 noPfx (.mem ⟨false, none, .ripRel 0x10⟩) 0) ∧
      decoded long [0x87, 0x04, 0x24] = some (.xchgRm32R32 noPfx (.mem ⟨false, none, .sib 4 none 0 .none⟩) 0) ∧
      decoded long [0x87, 0x45, 0x00] = some (.xchgRm32R32 noPfx (.mem (at0 5 (.d8 0))) 0) := by decide
/-- E25, E26, E27: 16-bit addressing, and 32-bit addressing by 67. -/
theorem test_decode_forms16 :
    decoded prot16 [0x87, 0x06, 0x34, 0x12] = some (.xchgRm16R16 noPfx (.mem ⟨false, none, .abs16 0x1234⟩) 0) ∧
      decoded prot16 [0x87, 0x42, 0x02] =
        some (.xchgRm16R16 noPfx (.mem ⟨false, none, .ind16 .bpSi (.d8 2)⟩) 0) ∧
      decoded prot16 [0x67, 0x87, 0x03] = some (.xchgRm16R16 noPfx (.mem ⟨true, none, .ind 3 .none⟩) 0) := by decide
/-- E23, E29: segment override, LOCK. -/
theorem test_decode_prefixes :
    decoded long [0x64, 0x87, 0x03] = some (.xchgRm32R32 noPfx (.mem ⟨false, some .fs, .ind 3 .none⟩) 0) ∧
      decoded long [0xF0, 0x87, 0x03] = some (.xchgRm32R32 pLock (.mem (at0 3 .none)) 0) := by decide
/-- E30 to E38: refused by name. -/
theorem test_decode_refused :
    rejected long [0xC7, 0xF9, 0, 0, 0, 0] = some .notXbegin ∧ rejected long [0x88, 0x03] = some (.opcode 0x88) ∧
      rejected long [0x66, 0x86, 0xE0] = some .pfxNotAdmitted ∧ rejected long [0xF3, 0x90] = some .repPfx ∧
      rejected long [0x66, 0x66, 0x93] = some .repeatedPfx ∧ rejected long [0x2E, 0x3E, 0x87, 0x03] = some .twoSegments ∧
      rejected long [0x48, 0x66, 0x93] = some (.opcode 0x66) ∧ rejected long [0x40, 0x41, 0x93] = some (.opcode 0x41) ∧
      rejected prot32 [0x41, 0x93] = some (.opcode 0x41) ∧ rejected long [0x67, 0x87, 0xD9] = some .pfxNotAdmitted ∧
      rejected long [0x87] = some .truncated := by decide
/-- The encoder writes the words of the tables: E21, E26, E4. -/
theorem test_encode :
    encode (.xchgRm64R64 pRex (.mem ⟨false, none, .sib 3 (some 12) 0 .none⟩) 0) = [0x4A, 0x87, 0x04, 0x23] ∧
      encode (.xchgRm16R16 noPfx (.mem ⟨false, none, .ind16 .bpSi (.d8 2)⟩) 0) = [0x87, 0x42, 0x02] ∧
      encode (.xbeginRel32 ⟨true, false, true⟩ 0x10) = [0x66, 0x48, 0xC7, 0xF8, 0x10, 0, 0, 0] := by decide
/-- A word as the opcode table numbers it: C7 is bits 7:0, F8 bits 15:8. -/
theorem test_table_word : decodeTableWord 16 0xF8C7 = some (.xbeginRel32 noPfx 0) := by decide

/-! ## Primitives -/

/-- T9 and T10: canonical addresses at VA_BITS 48 and 57. -/
theorem test_canonical :
    canonical 48 0x00007FFFFFFFFFFF = true ∧ canonical 48 0x0000800000000000 = false ∧
      canonical 48 0xFFFF7FFFFFFFFFFF = false ∧ canonical 48 0xFFFF800000000000 = true ∧
      canonical 57 0x00FFFFFFFFFFFFFF = true ∧ canonical 57 0x0100000000000000 = false := by decide
/-- T1 and T5: AH is bits 15:8 of register 0. -/
theorem test_high_byte :
    (cpu.setX 0 0x1122334455667788).regRead .w8 4 false = 0x77 ∧
      ((cpu.setX 0 0x1122334455667788).regWrite .w8 4 false 0xAA).x[0] = 0x112233445566AA88 := by decide
/-- T7: an unaligned read, little-endian. -/
theorem test_memRead :
    (machine cpu [] [(0x2000, 0x78), (0x2001, 0x56), (0x2002, 0x34)]).memRead 0x2001 2 = some 0x3456 := by decide

/-! ## Single steps, at most two for an instruction -/

/-- B15: the fallback address FFFFH is in bounds. -/
theorem test_step_xbeginRel16_real :
    nextIs (step (machine (cpuIn .real false 0 0xF000) [0xC7, 0xF8, 0xFB, 0x0F] []))
      (fun t => t.lp.fallback == 0xFFFF && t.lp.nestCount == 1 && t.lp.rtmActive && t.lp.pc == 0xF004) = true := by
  decide
/-- B14: the offset -32768 leaves the limit, #GP(0); B4 has the sign extension in 64-bit mode. -/
theorem test_step_xbeginRel16_gp :
    nextIs (step (machine (cpuIn .protected32 true 0x000FFFFF 0x2000) [0x66, 0xC7, 0xF8, 0x00, 0x80] []))
      (fun t => decide (t.lp.fault = some { exc := excGp0, pc := 0x2000 }) && t.lp.nestCount == 0 &&
        t.lp.pc == 0x2000) = true := by
  decide
/-- B8 and B9: the last canonical fallback address, and the first that is not. -/
theorem test_step_xbeginRel32_canonical :
    nextIs (step (machine { cpu with pc := 0x00007FFFFFFFFFF0 } [0xC7, 0xF8, 0x09, 0, 0, 0] []))
        (fun t => t.lp.fallback == 0x00007FFFFFFFFFFF && t.lp.rtmActive) = true ∧
      nextIs (step (machine { cpu with pc := 0x00007FFFFFFFFFF0 } [0xC7, 0xF8, 0x0A, 0, 0, 0] []))
        (fun t => decide (t.lp.fault = some { exc := excGp0, pc := 0x00007FFFFFFFFFF0 }) && !t.lp.rtmActive) =
        true := by
  decide
/-- B25, B24: the nesting-limit abort keeps bits 63:32 of RAX outside 64-bit mode and empties the write buffer. -/
theorem test_exec_xbeginRel32_abort :
    nextIs (exec (.xbeginRel32 noPfx 0)
        { machine { inTx ((cpuIn .protected32 true 0xFFFFF 0x2000).setX 3 7) 3 0x3000 with
            x := Vector.replicate 16 9, wbuf := [(0x2000, 0xAA)] } [] [(0x2000, 0x11)] with endAddr := 1 })
      (fun t => t.lp.pc == 0x3000 && t.lp.x[3] == 7 && t.lp.wbuf.isEmpty && t.lp.nestCount == 0 && !t.lp.rtmActive &&
        decide (t.mem = [(0x2000, 0x11)])) = true := by
  decide
/-- X14: 66 93. -/
theorem test_step_xchgAxR16 :
    nextIs (step (machine ((cpu.setX 0 0x1111111111112222).setX 3 0x3333333333334444) [0x66, 0x93] []))
      (fun t => t.lp.x[0] == 0x1111111111114444 && t.lp.x[3] == 0x3333333333332222 && t.lp.pc == 0x1002) = true := by
  decide
/-- X19: 93 in real-address mode is 16 bits wide. -/
theorem test_step_xchgAxR16_real :
    nextIs (step (machine (((cpuIn .real false 0 0x100).setX 0 0x11112222).setX 3 0x33334444) [0x93] []))
      (fun t => t.lp.x[0] == 0x11114444 && t.lp.x[3] == 0x33332222) = true := by
  decide
/-- X7: 90 writes no register. -/
theorem test_step_xchgEaxR32_nop :
    nextIs (step (machine (cpu.setX 0 0xDEADBEEF00000001) [0x90] []))
      (fun t => t.lp.x[0] == 0xDEADBEEF00000001 && t.lp.pc == 0x1001) = true := by
  decide
/-- X16: 41 90 is the exchange with register 8. -/
theorem test_step_xchgEaxR32 :
    nextIs (step (machine ((cpu.setX 0 0xAAAAAAAA00000001).setX 8 0xBBBBBBBB00000002) [0x41, 0x90] []))
      (fun t => t.lp.x[0] == 2 && t.lp.x[8] == 1) = true := by
  decide
/-- X18: REX.W overrides 66. -/
theorem test_step_xchgRaxR64 :
    nextIs (step (machine ((cpu.setX 0 0x0123456789ABCDEF).setX 3 0xFEDCBA9876543210) [0x66, 0x48, 0x93] []))
      (fun t => t.lp.x[0] == 0xFEDCBA9876543210 && t.lp.x[3] == 0x0123456789ABCDEF) = true := by
  decide
/-- X21: LOCK on register 0 raises #UD. -/
theorem test_step_xchgRaxR64_lock :
    nextIs (step (machine cpu [0xF0, 0x48, 0x90] []))
      (fun t => decide (t.lp.fault = some { exc := excUd, pc := 0x1000 }) && t.lp.pc == 0x1000) = true := by
  decide
/-- X10: 86 FB exchanges BH with BL. -/
theorem test_step_xchgRm8R8 :
    nextIs (step (machine (cpu.setX 3 0x1111111111115566) [0x86, 0xFB] []))
      (fun t => t.lp.x[3] == 0x1111111111116655) = true := by
  decide
/-- M5: AH with a byte of memory. -/
theorem test_step_xchgRm8R8_mem :
    nextIs (step (machine ((cpu.setX 3 0x2000).setX 0 0xA1B2) [0x86, 0x23] [(0x2000, 0x7F)]))
      (fun t => t.lp.x[0] == 0x7FB2 && decide (t.mem.read 0x2000 = some 0xA1)) = true := by
  decide
/-- X9: 40 86 E0 exchanges AL with SPL. -/
theorem test_step_xchgRm8R8Rex :
    nextIs (step (machine ((cpu.setX 0 0xAA).setX 4 0x7FF0) [0x40, 0x86, 0xE0] []))
      (fun t => t.lp.x[0] == 0xF0 && t.lp.x[4] == 0x7FAA) = true := by
  decide
/-- M6: SPL with a byte of memory. -/
theorem test_step_xchgRm8R8Rex_mem :
    nextIs (step (machine ((cpu.setX 3 0x2000).setX 4 0x7FF0) [0x40, 0x86, 0x23] [(0x2000, 0x11)]))
      (fun t => t.lp.x[4] == 0x7F11 && decide (t.mem.read 0x2000 = some 0xF0)) = true := by
  decide
/-- M21: 16-bit addressing wraps, the segment is SS. -/
theorem test_step_xchgRm16R16 :
    nextIs (step (machine ((((cpuIn .protected32 false 0xFFFFFF 0x1000).setX 5 0xFFFF).setX 6 2).setX 0 0x1234)
        [0x87, 0x42, 0x02] [(3, 0xCD), (4, 0xAB)]))
      (fun t => t.lp.x[0] == 0xABCD && decide (t.mem.read 3 = some 0x34) && decide (t.mem.read 4 = some 0x12)) =
      true := by
  decide
/-- M20: no alignment check in real-address mode. -/
theorem test_step_xchgRm16R16_real :
    nextIs (step (machine ((({ cpuIn .real false 0 0x100 with alignCheck := true } : LP).setX 3 0x2001).setX 0 0xBBAA)
        [0x87, 0x07] [(0x2001, 0x01), (0x2002, 0x02)]))
      (fun t => t.lp.x[0] == 0x0201 && decide (t.mem.read 0x2001 = some 0xAA)) = true := by
  decide
/-- X6: 87 C0 clears bits 63:32. -/
theorem test_step_xchgRm32R32 :
    nextIs (step (machine (cpu.setX 0 0xDEADBEEF00000001) [0x87, 0xC0] [])) (fun t => t.lp.x[0] == 1) = true := by
  decide
/-- M7 with M24: the address comes from the old register, and inside a transaction the write goes to the buffer. -/
theorem test_exec_xchgRm32R32_mem :
    nextIs (exec (.xchgRm32R32 noPfx (.mem (at0 0 .none)) 0)
        (machine (inTx (cpu.setX 0 0x2000) 1 0x1010) []
          [(0x2000, 0xEF), (0x2001, 0xBE), (0x2002, 0xAD), (0x2003, 0xDE)]))
      (fun t => t.lp.x[0] == 0xDEADBEEF && decide (t.mem.read 0x2001 = some 0xBE) &&
        decide (t.lp.wbuf = [(0x2000, 0x00), (0x2001, 0x20), (0x2002, 0x00), (0x2003, 0x00)])) = true := by
  decide
/-- X4: 4C 87 C0 exchanges RAX with R8. -/
theorem test_step_xchgRm64R64 :
    nextIs (step (machine ((cpu.setX 0 0xAAAAAAAAAAAAAAAA).setX 8 0x8888888888888888) [0x4C, 0x87, 0xC0] []))
      (fun t => t.lp.x[0] == 0x8888888888888888 && t.lp.x[8] == 0xAAAAAAAAAAAAAAAA) = true := by
  decide
/-- M18: an address that is no multiple of 8, #AC(0). -/
theorem test_step_xchgRm64R64_ac :
    nextIs (step (machine (({ cpu with alignCheck := true } : LP).setX 3 0x2004) [0x48, 0x87, 0x03] []))
      (fun t => decide (t.lp.fault = some { exc := { name := .ac, code := some 0 }, pc := 0x1000 }) &&
        t.lp.pc == 0x1000) = true := by
  decide
/-- M22 and M23: stuck outside the launch memory, refused on program text. -/
theorem test_step_stops :
    faultIs (step (machine (cpu.setX 3 0x9000) [0x87, 0x03] [])) .outsideMemory = true ∧
      refusedIs (step (machine (cpu.setX 3 0x0FFF) [0x87, 0x03] [])) (fun r => decide (r = .textOverlap)) = true := by
  decide
/-- One logical processor stuck as in M22, another with `93`: the machine goes on, and the stuck one stays as it is (R11,
R204). -/
theorem test_step_beside_stuck :
    nextIs (step { machine (cpu.setX 3 7) [0x93] [] with
          before := [{ cpu.setX 3 0x9000 with pc := 0x1001 }]
          mem := [(0x1000, 0x93), (0x1001, 0x87), (0x1002, 0x03)]
          text := [{ base := 0x1000, size := 3 }] })
      (fun t => t.lp.x[0] == 7 && decide (t.before = [{ cpu.setX 3 0x9000 with pc := 0x1001 }])) = true := by
  decide
/-- R127: inside a transaction the stuck exchange of M22 leaves the AbortStep as the only step. -/
theorem test_step_stuck_inTx :
    nextIs (step (machine (inTx (cpu.setX 3 0x9000) 1 0x3000) [0x87, 0x03] []))
      (fun t => t.lp.pc == 0x3000 && !t.lp.rtmActive && t.lp.x[3] == 0x9000) = true := by
  decide
/-- A word placed where the next step fetches runs as the first instruction after reset. -/
theorem test_withFetchWord :
    nextIs (step (State.reset.withFetchWord 16 0xF8C7)) (fun t => t.lp.rtmActive && t.lp.pc == 0x1006) = true := by
  decide

/-! ## Witnesses: states and operands that meet the hypotheses of the statements -/

/-- A well-formed instruction of every constructor (EncodeThenDecodeGivesInstruction). -/
theorem witness_wf :
    Instr.wf real (.xbeginRel16 noPfx 0x8000) = true ∧ Instr.wf long (.xbeginRel32 ⟨true, true, true⟩ 0) = true ∧
      Instr.wf long (.xchgAxR16 ⟨true, false, true⟩ 15) = true ∧ Instr.wf prot16 (.xchgEaxR32 p66 7) = true ∧
      Instr.wf long (.xchgRaxR64 pRex 15) = true ∧
      Instr.wf real (.xchgRm8R8 pLock (.mem ⟨false, some .es, .abs16 0xFFFF⟩) 7) = true ∧
      Instr.wf long (.xchgRm8R8Rex pRex (.reg 15) 4) = true ∧
      Instr.wf long (.xchgRm16R16 ⟨true, true, true⟩ (.mem ⟨true, some .gs, .sib 13 (some 12) 3 (.full 0)⟩) 15) = true ∧
      Instr.wf prot32 (.xchgRm32R32 noPfx (.mem ⟨false, none, .abs32 0⟩) 0) = true ∧
      Instr.wf long (.xchgRm64R64 pRex (.mem ⟨false, none, .ripRel 0⟩) 0) = true := by decide

/-- Bytes that decode, with bytes after them (DecodedInstructionsAreWellFormed, DecodeTakesTheInstructionsLength). -/
theorem witness_decode :
    decode long [0x66, 0x67, 0xF0, 0x65, 0x4F, 0x87, 0xBC, 0xE5, 0, 0, 0, 0x80, 0xAA] =
      .ok (.xchgRm64R64 ⟨true, true, true⟩ (.mem ⟨true, some .gs, .sib 13 (some 12) 3 (.full 0x80000000)⟩) 15,
        [0xAA]) := by decide

/-- OtherBytesAreRefused: a second byte other than F8, and a first byte of the last clause at its edges, in 64-bit mode
and outside it. -/
theorem witness_otherBytes :
    (0xF9 : Byte) ≠ 0xF8 ∧
      ((0x88 : Byte) ∉ ([0x26, 0x2E, 0x36, 0x3E, 0x64, 0x65, 0x66, 0x67, 0xF0, 0xF2, 0xF3, 0xC7, 0x86, 0x87] : List Byte) ∧
        (0x88 : Byte).toNat / 8 ≠ 0x12 ∧ (long.mode = .long64 → (0x88 : Byte).toNat / 16 ≠ 4)) ∧
      ((0x4F : Byte) ∉ ([0x26, 0x2E, 0x36, 0x3E, 0x64, 0x65, 0x66, 0x67, 0xF0, 0xF2, 0xF3, 0xC7, 0x86, 0x87] : List Byte) ∧
        (0x4F : Byte).toNat / 8 ≠ 0x12 ∧ (real.mode = .long64 → (0x4F : Byte).toNat / 16 ≠ 4)) := by decide

/-- CanonicalMeansHighBitsEqual at both bounds of VA_BITS. -/
theorem witness_vaBits : (1 ≤ 1 ∧ 1 ≤ 64) ∧ (1 ≤ 64 ∧ 64 ≤ 64) := by decide

theorem reset_hw : State.reset.hw.wf = true ∧ State.reset.hw.hasRtm = true := by decide

/-- Outermost XBEGIN in 64-bit mode with a canonical fallback address (XbeginRel32EntersTransaction,
XbeginRel16EntersTransaction). -/
theorem witness_enter64 :
    let s := machine cpu [] []
    s.hw.wf = true ∧ s.hw.hasRtm = true ∧ noPfx.lock = false ∧ s.lp.nestCount = 0 ∧ s.lp.mode = .long64 ∧
      (∀ k, k < 64 → s.hw.vaBits - 1 ≤ k → (fallback64 s.lp 6 10).getLsbD k = (fallback64 s.lp 6 10).getLsbD 63) ∧
      ∀ k, k < 64 → s.hw.vaBits - 1 ≤ k → (fallback64 s.lp 5 16).getLsbD k = (fallback64 s.lp 5 16).getLsbD 63 := by
  decide

/-- Outermost XBEGIN outside 64-bit mode with a fallback address at the bound, for rel32 and rel16: CS.limit in protected
and compatibility mode, FFFFH in real-address and virtual-8086 mode. -/
theorem witness_enter32 :
    (let s := machine (cpuIn .protected32 true 0x3006 0x2000) [] [];
      s.hw.wf = true ∧ s.hw.hasRtm = true ∧ noPfx.lock = false ∧ s.lp.nestCount = 0 ∧ s.lp.mode ≠ .long64 ∧
        (fallback32 s.lp s.hw 6 false 0x1000).toNat = s.lp.csLimit.toNat ∧
        (fallback32 s.lp s.hw 4 true ((0x1002 : BitVec 16).signExtend 32)).toNat = s.lp.csLimit.toNat) ∧
      (let s := machine (cpuIn .compat true 0x3006 0x2000) [] [];
        (fallback32 s.lp s.hw 6 false 0x1000).toNat = s.lp.csLimit.toNat ∧
          (fallback32 s.lp s.hw 4 true ((0x1002 : BitVec 16).signExtend 32)).toNat = s.lp.csLimit.toNat) ∧
      (let s := machine (cpuIn .real false 0 0xF000) [] [];
        (fallback32 s.lp s.hw 6 false 0x0FF9).toNat = 0xFFFF ∧
          (fallback32 s.lp s.hw 4 true ((0x0FFB : BitVec 16).signExtend 32)).toNat = 0xFFFF) ∧
      (let s := machine (cpuIn .v8086 false 0 0xF000) [] [];
        (fallback32 s.lp s.hw 6 false 0x0FF9).toNat = 0xFFFF ∧
          (fallback32 s.lp s.hw 4 true ((0x0FFB : BitVec 16).signExtend 32)).toNat = 0xFFFF) := by
  decide

/-- Fallback addresses just outside, one for each mode's test and both forms (XbeginBadFallbackRaisesGp). -/
theorem witness_badFallback :
    (let s := machine { cpu with pc := 0x00007FFFFFFFFFF0 } [] [];
      s.lp.nestCount = 0 ∧
        (fallback64 s.lp 6 10).getLsbD 47 ≠ (fallback64 s.lp 6 10).getLsbD 63 ∧
        (fallback64 s.lp 4 12).getLsbD 47 ≠ (fallback64 s.lp 4 12).getLsbD 63) ∧
      (let s := machine (cpuIn .real false 0 0xF000) [] [];
        0xFFFF < (fallback32 s.lp s.hw 6 false 0x0FFA).toNat ∧
          0xFFFF < (fallback32 s.lp s.hw 4 true ((0x0FFC : BitVec 16).signExtend 32)).toNat) ∧
      (let s := machine (cpuIn .v8086 false 0 0xF000) [] [];
        0xFFFF < (fallback32 s.lp s.hw 6 false 0x0FFA).toNat ∧
          0xFFFF < (fallback32 s.lp s.hw 4 true ((0x0FFC : BitVec 16).signExtend 32)).toNat) ∧
      (let s := machine (cpuIn .protected32 true 0x3005 0x2000) [] [];
        s.lp.csLimit.toNat < (fallback32 s.lp s.hw 6 false 0x1000).toNat ∧
          s.lp.csLimit.toNat < (fallback32 s.lp s.hw 4 true ((0x1002 : BitVec 16).signExtend 32)).toNat) ∧
      (let s := machine (cpuIn .compat true 0x3005 0x2000) [] [];
        s.lp.csLimit.toNat < (fallback32 s.lp s.hw 6 false 0x1000).toNat ∧
          s.lp.csLimit.toNat < (fallback32 s.lp s.hw 4 true ((0x1002 : BitVec 16).signExtend 32)).toNat) := by
  decide

/-- A nested XBEGIN of each form answers a next state (XbeginBadFallbackRaisesGp, its last clause). -/
theorem witness_nestedAnswers :
    (machine (inTx cpu 2 0x1010) [] []).lp.nestCount ≠ 0 ∧
      (∃ t, exec (.xbeginRel16 p66 10) (machine (inTx cpu 2 0x1010) [] []) = .next t) ∧
      ∃ t, exec (.xbeginRel32 noPfx 10) (machine (inTx cpu 2 0x1010) [] []) = .next t :=
  ⟨by decide, exists_next (by decide), exists_next (by decide)⟩

/-- A processor without RTM, and a LOCK prefix (XbeginWithoutRtmOrWithLockRaisesUd, XchgLockWithoutMemoryRaisesUd,
XchgAxSwaps and the other register exchanges). -/
theorem witness_ud :
    ({ State.reset with hw := { State.reset.hw with hasRtm := false } } : State).hw.hasRtm = false ∧
      pLock.lock = true ∧ noPfx.lock = false := by decide

/-- Nesting counts at both edges of the nested case (NestedXbeginOnlyCounts, XbeginFrame). -/
theorem witness_nested :
    let s := machine (inTx cpu 1 0x1010) [] []
    let t := machine (inTx cpu 2 0x1010) [] []
    s.hw.hasRtm = true ∧ (1 ≤ s.lp.nestCount ∧ s.lp.nestCount < s.hw.maxNest) ∧
      (1 ≤ t.lp.nestCount ∧ t.lp.nestCount + 1 = t.hw.maxNest) := by decide

/-- A well-formed state at the nesting limit (XbeginAtNestingLimitAborts). -/
theorem witness_limit :
    let s := machine (inTx cpu 3 0x1010) [] []
    s.wf ∧ s.hw.hasRtm = true ∧ s.lp.nestCount = s.hw.maxNest := by
  refine ⟨⟨by decide, by decide, fun l hl => ?_⟩, by decide, by decide⟩
  have : l = inTx cpu 3 0x1010 := by simpa [State.all, machine, State.reset] using hl
  subst this
  exact ⟨by decide, by decide, by decide, by decide, by decide, by decide⟩

/-- An XBEGIN that answers a next state below the limit, outermost and nested (XbeginFrame). -/
theorem witness_xbeginFrame :
    isXchg (.xbeginRel32 noPfx 10) = false ∧ (machine cpu [] []).lp.nestCount < (machine cpu [] []).hw.maxNest ∧
      (∃ t, exec (.xbeginRel32 noPfx 10) (machine cpu [] []) = .next t) ∧
      ∃ t, exec (.xbeginRel16 p66 10) (machine (inTx cpu 2 0x1010) [] []) = .next t :=
  ⟨by decide, by decide, exists_next (by decide), exists_next (by decide)⟩

/-- Eight bytes of data. -/
def data8 : Memory :=
  [(0x2000, 1), (0x2001, 2), (0x2002, 3), (0x2003, 4), (0x2004, 5), (0x2005, 6), (0x2006, 7), (0x2007, 8)]

/-- A logical processor whose RBX points at the data. -/
def pointing : LP := (cpu.setX 3 0x2000).setX 1 0x1122334455667788

/-- Memory operands ready for the exchange, at every width, outside and inside a transaction, and at an unaligned
address (XchgMemoryExchanges, LaterExchangeReadsTheEarlier). -/
theorem witness_memReady :
    (machine pointing [] data8).operandExceptions .w64 (at0 3 .none) 3 = [] ∧
      (∀ k, k < 8 → (machine pointing [] data8).inText (operandAddr (machine pointing [] data8) .w64 (at0 3 .none) 3 k) = false ∧
        ((machine pointing [] data8).readByte (operandAddr (machine pointing [] data8) .w64 (at0 3 .none) 3 k)).isSome = true) ∧
      (machine pointing [] data8).operandExceptions .w8 (at0 3 (.d8 7)) 3 = [] ∧
      (∀ k, k < 1 → (machine pointing [] data8).inText (operandAddr (machine pointing [] data8) .w8 (at0 3 (.d8 7)) 3 k) = false ∧
        ((machine pointing [] data8).readByte (operandAddr (machine pointing [] data8) .w8 (at0 3 (.d8 7)) 3 k)).isSome = true) := by
  decide

theorem witness_memReady_inTx :
    (machine (inTx pointing 1 0x1010) [] data8).operandExceptions .w32 (at0 3 (.d8 1)) 3 = [] ∧
      (∀ k, k < 4 →
        (machine (inTx pointing 1 0x1010) [] data8).inText
          (operandAddr (machine (inTx pointing 1 0x1010) [] data8) .w32 (at0 3 (.d8 1)) 3 k) = false ∧
        ((machine (inTx pointing 1 0x1010) [] data8).readByte
          (operandAddr (machine (inTx pointing 1 0x1010) [] data8) .w32 (at0 3 (.d8 1)) 3 k)).isSome = true) ∧
      (machine (inTx pointing 1 0x1010) [] data8).operandExceptions .w16 (at0 3 (.d8 6)) 4 = [] ∧
      (∀ k, k < 2 →
        (machine (inTx pointing 1 0x1010) [] data8).inText
          (operandAddr (machine (inTx pointing 1 0x1010) [] data8) .w16 (at0 3 (.d8 6)) 4 k) = false ∧
        ((machine (inTx pointing 1 0x1010) [] data8).readByte
          (operandAddr (machine (inTx pointing 1 0x1010) [] data8) .w16 (at0 3 (.d8 6)) 4 k)).isSome = true) := by
  decide

/-- XCHGs that answer a next state: a memory form, a form that faults, a short form, a register form (XchgFrame,
XchgNeitherAffectsNorReadsFlags). -/
theorem witness_xchgFrame :
    isXchg (.xchgRm64R64 pRex (.mem (at0 3 .none)) 1) = true ∧
      (∃ t, exec (.xchgRm64R64 pRex (.mem (at0 3 .none)) 1) (machine pointing [] data8) = .next t) ∧
      nextIs (exec (.xchgEaxR32 pLock 3) (machine pointing [] [])) (fun t => decide (t.lp.fault ≠ none)) = true ∧
      (∃ t, exec (.xchgAxR16 p66 3) (machine pointing [] []) = .next t) ∧
      ∃ t, exec (.xchgRm8R8 noPfx (.reg 0) 4) (machine pointing [] []) = .next t :=
  ⟨by decide, exists_next (by decide), by decide, exists_next (by decide), exists_next (by decide)⟩

/-- A memory operand that meets one exception, at every width, and one that meets two: M12, M18, F3
(XchgMemoryExceptionIsRecorded). -/
theorem witness_memExceptions :
    let bad := machine (cpu.setX 3 0x0000800000000000) [] []
    let odd := machine (({ cpu with alignCheck := true } : LP).setX 3 0x0000800000000001) [] []
    bad.operandExceptions .w8 (at0 3 .none) 2 = [excGp0] ∧ bad.operandExceptions .w16 (at0 3 .none) 3 = [excGp0] ∧
      bad.operandExceptions .w32 (at0 3 .none) 2 = [excGp0] ∧ bad.operandExceptions .w64 (at0 3 .none) 3 = [excGp0] ∧
      odd.operandExceptions .w32 (at0 3 .none) 2 = [excGp0, { name := .ac, code := some 0 }] := by decide

/-- An allowed operand whose last byte is program text, and one whose last byte has no value (XchgMemoryStops). -/
theorem witness_memStops :
    let text := machine (cpu.setX 3 0x0FFD) [0x90] []
    let hole := machine (cpu.setX 3 0x2005) [] data8
    text.operandExceptions .w32 (at0 3 .none) 2 = [] ∧
      text.inText (operandAddr text .w32 (at0 3 .none) 2 3) = true ∧
      hole.operandExceptions .w32 (at0 3 .none) 2 = [] ∧
      (∀ k, k < 4 → hole.inText (operandAddr hole .w32 (at0 3 .none) 2 k) = false) ∧
      hole.readByte (operandAddr hole .w32 (at0 3 .none) 2 3) = none := by decide

/-- Addresses of the three sizes (EffectiveAddress16, EffectiveAddress32, EffectiveAddress64). -/
theorem witness_addressSizes :
    addressSize real false = .a16 ∧ addressSize prot32 true = .a16 ∧ addressSize real true = .a32 ∧
      addressSize prot32 false = .a32 ∧ addressSize long true = .a32 ∧ addressSize long false = .a64 ∧
      cpu.mode = .long64 := by decide

/-- An override and none (SegmentOfAnOperand). -/
theorem witness_segments :
    ({ at0 3 .none with seg := some .fs } : Mem).seg = some .fs ∧ (at0 3 .none).seg = none := by decide

/-- An address outside the written bytes (ReadAfterWriteSeesTheBytes). -/
theorem witness_outside : ∀ k, k < 8 → 0x2008 ≠ addrAt cpu.mode 0x2000 k := by decide

/-- An XBEGIN, alignment checking off, and the two modes without the level (PrivilegeLevelMattersOnlyForAlignment). -/
theorem witness_noAlignCheck :
    isXchg (.xbeginRel16 p66 0) = false ∧ (machine cpu [] []).lp.alignCheck = false ∧
      (cpuIn .real false 0 0).mode = .real ∧ (cpuIn .v8086 false 0 0).mode = .v8086 := by decide

/-- An XCHG that stores, inside a transaction (TransactionsWriteNoSharedMemory). -/
theorem witness_inTx :
    (machine (inTx pointing 1 0x1010) [] data8).lp.rtmActive = true ∧
      ∃ t, exec (.xchgRm64R64 pRex (.mem (at0 3 .none)) 1) (machine (inTx pointing 1 0x1010) [] data8) = .next t :=
  ⟨by decide, exists_next (by decide)⟩

/-- The semaphore of R159: two logical processors exchange a 1 with the doubleword 0 (LaterExchangeReadsTheEarlier). -/
theorem witness_semaphore :
    let s := machine ((cpu.setX 3 0x2000).setX 0 1) [] [(0x2000, 0), (0x2001, 0), (0x2002, 0), (0x2003, 0)]
    s.lp.rtmActive = false ∧ s.lp.regRead .w32 0 false = 1 ∧ s.memRead 0x2000 4 = some 0 ∧
      nextIs (s.exchange .w32 0 false 0x2000 2)
        (fun t => nextIs ((t.withLp s.lp).exchange .w32 0 false 0x2000 2) (fun _ => true)) = true := by decide

/-- Two logical processors of which the second alone can move. -/
def pair : State :=
  { machine cpu [0x93] [] with
    before := [{ cpu with fault := some { exc := excUd, pc := 0x1000 } }] }

/-- The step of one logical processor, and of one of two (StepRunsTheDecodedInstruction). -/
theorem witness_runs :
    (pair.nextMove = .instrStep pair ∧ decode pair.lp.ctx pair.window = .ok (.xchgEaxR32 noPfx 3, [])) ∧
      ((machine cpu [0x93] []).before = [] ∧ (machine cpu [0x93] []).after = [] ∧
        (machine cpu [0x93] []).lp.fault = none ∧ (machine cpu [0x93] []).lp.rtmActive = false ∧
        (machine cpu [0x93] []).lp.pc ≠ (machine cpu [0x93] []).endAddr ∧
        decode (machine cpu [0x93] []).lp.ctx (machine cpu [0x93] []).window = .ok (.xchgEaxR32 noPfx 3, [])) := by
  decide

/-- Every byte of an instruction in place to be fetched, the last one at the bound, outside 64-bit mode and in it
(StepRunsTheDecodedInstruction). -/
theorem witness_inPlace :
    decode prot32 [0x87, 0xC0] = .ok (.xchgRm32R32 noPfx (.reg 0) 0, []) ∧
      inPlace (machine (cpuIn .protected32 true 0x2001 0x2000) [0x87, 0xC0] []) [0x87, 0xC0] ∧
      inPlace (machine (cpuIn .real false 0 0xFFFE) [0x87, 0xC0] []) [0x87, 0xC0] ∧
      inPlace (machine { cpu with pc := 0x00007FFFFFFFFFFE } [0x87, 0xC0] []) [0x87, 0xC0] := by
  refine ⟨by decide, ?_, ?_, ?_⟩
  · intro k hk
    have hk' : k = 0 ∨ k = 1 := by simp only [List.length_cons, List.length_nil] at hk; omega
    rcases hk' with rfl | rfl
    · exact ⟨by decide, fun h => h.elim (by decide) fun h => h.elim (by decide) fun h =>
        absurd (show 0x2001 < 0x2000 from h) (by decide)⟩
    · exact ⟨by decide, fun h => h.elim (by decide) fun h => h.elim (by decide) fun h =>
        absurd (show 0x2001 < 0x2001 from h) (by decide)⟩
  · intro k hk
    have hk' : k = 0 ∨ k = 1 := by simp only [List.length_cons, List.length_nil] at hk; omega
    rcases hk' with rfl | rfl
    · exact ⟨by decide, fun h => h.elim (by decide) fun h => h.elim (by decide) fun h =>
        absurd (show 0xFFFF < 0xFFFE from h) (by decide)⟩
    · exact ⟨by decide, fun h => h.elim (by decide) fun h => h.elim (by decide) fun h =>
        absurd (show 0xFFFF < 0xFFFF from h) (by decide)⟩
  · have canon : ∀ a : Nat, (∀ k, k < 64 → 47 ≤ k → (BitVec.ofNat 64 a).getLsbD k = (BitVec.ofNat 64 a).getLsbD 63) →
        highBitsEqual 48 (BitVec.ofNat 64 a) := fun a h k h1 h2 => h k h2 h1
    intro k hk
    have hk' : k = 0 ∨ k = 1 := by simp only [List.length_cons, List.length_nil] at hk; omega
    rcases hk' with rfl | rfl
    · refine ⟨by decide, fun h => ?_⟩
      rcases h with h | h | h | h
      · revert h; decide
      · revert h; decide
      · revert h; decide
      · exact h (canon 0x00007FFFFFFFFFFE (by decide))
    · refine ⟨by decide, fun h => ?_⟩
      rcases h with h | h | h | h
      · revert h; decide
      · revert h; decide
      · revert h; decide
      · exact h (canon 0x00007FFFFFFFFFFF (by decide))

/-- A transaction at EndAddr: its step is the abort (StepsInsideATransaction). -/
def atEnd : State := { machine (inTx cpu 1 0x1010) [] [] with endAddr := 0x1000 }

theorem witness_insideTx :
    atEnd.before = [] ∧ atEnd.after = [] ∧ atEnd.lp.fault = none ∧ atEnd.lp.rtmActive = true ∧
      atEnd.lp.pc = atEnd.endAddr ∧ ∃ t, step atEnd = .next t :=
  ⟨rfl, rfl, rfl, rfl, rfl, exists_next (by decide)⟩

/-- A logical processor that is stuck outside the launch memory (M22). -/
def stuckLP : LP := cpu.setX 3 0x9000

/-- Inside a transaction, away from EndAddr (StepsInsideATransaction). -/
theorem witness_stuckInsideTx :
    faultIs (machine (inTx stuckLP 1 0x1010) [0x87, 0x03] []).instrStep .outsideMemory = true ∧
      (machine (inTx stuckLP 1 0x1010) [0x87, 0x03] []).lp.rtmActive = true := by decide

theorem is_fault {o : Result} {f : Fault} (h : faultIs o f = true) : o = .fault f := by
  cases o with
  | fault g => simpa [faultIs] using h
  | next t => cases h
  | refused r => cases h

/-- The run's end, a machine whose logical processors have faulted, one that is stuck, and a refused step
(MachineStopsExactlyWhenNoneCanMove). -/
theorem witness_stopped :
    faultIs (step { machine cpu [] [] with endAddr := 0x1000 }) .runEnded = true ∧
      faultIs (step (machine { cpu with fault := some { exc := excUd, pc := 0x1000 } } [] [])) .allStopped = true ∧
      faultIs (step (machine stuckLP [0x87, 0x03] [])) .outsideMemory = true ∧
      refusedIs (step (machine cpu [0xC3] [])) (fun r => decide (r = .notAdmitted (.opcode 0xC3))) = true := by
  decide

/-- Beside one that steps, a logical processor that has ended and one that is stuck
(EndedAndStuckProcessorsStayAsTheyAre). -/
def besideStopped (l : LP) : State :=
  { machine cpu [0x93] [] with
    before := [l]
    mem := [(0x1000, 0x93), (0x1001, 0x87), (0x1002, 0x03)]
    text := [{ base := 0x1000, size := 3 }]
    endAddr := 0x2000 }

theorem witness_endedAndStuck :
    (∃ t, step (besideStopped { cpu with pc := 0x2000 }) = .next t) ∧
      (besideStopped { cpu with pc := 0x2000 }).all[0]? = some { cpu with pc := 0x2000 } ∧
      (∃ t, step (besideStopped { stuckLP with pc := 0x1001 }) = .next t) ∧
      stuckOutside ((besideStopped { stuckLP with pc := 0x1001 }).focus 0) :=
  ⟨exists_next (by decide), rfl, exists_next (by decide), ⟨by decide, by decide⟩, by decide, is_fault (by decide)⟩

/-- A step beside a faulted logical processor (FaultedProcessorsStayAsTheyAre, AStepChangesAtMostOneProcessor,
StepKeepsTheMachine, StepKeepsTextAndLaunchAddresses). -/
theorem witness_pairStep :
    (∃ t, step pair = .next t) ∧
      pair.all[0]? = some { cpu with fault := some { exc := excUd, pc := 0x1000 } } ∧
      pair.inText 0x1000 = true :=
  ⟨exists_next (by decide), rfl, by decide⟩

/-- A well-formed, text-clean state that steps (StepKeepsTheInvariant, StepKeepsTextOutOfWriteBuffers). -/
theorem witness_invariant :
    (machine cpu [0x93] []).wf ∧ (machine cpu [0x93] []).textClean ∧ ∃ t, step (machine cpu [0x93] []) = .next t := by
  have one : ∀ l, l ∈ (machine cpu [0x93] []).all → l = cpu := by
    intro l hl
    simpa [State.all, machine, State.reset] using hl
  refine ⟨⟨by decide, by decide, fun l hl => ?_⟩, fun l hl a _ => ?_, exists_next (by decide)⟩
  · rw [one l hl]
    exact ⟨by decide, by decide, by decide, by decide, by decide, by decide⟩
  · rw [one l hl]
    rfl

/-- A faulted logical processor inside a transaction beside one that steps. -/
def besideTx : State :=
  { machine cpu [0x93] [] with
    before := [{ inTx cpu 1 0x1010 with fault := some { exc := excUd, pc := 0x1000 } }] }

/-- A transaction whose step leaves it, and one that a step leaves inside (TransactionsKeepWhatTheirAbortUses). -/
theorem witness_keepsAbort :
    (atEnd.wf ∧ atEnd.all[0]? = some atEnd.lp ∧ atEnd.lp.rtmActive = true ∧
        ∃ t m, step atEnd = .next t ∧ t.all[0]? = some m ∧ m.rtmActive = false) ∧
      besideTx.wf ∧ ∃ l, besideTx.all[0]? = some l ∧ l.rtmActive = true ∧
        ∃ t m, step besideTx = .next t ∧ t.all[0]? = some m ∧ m.rtmActive = true := by
  have firstOf : ∀ (o : Result) (b : Bool),
      nextIs o (fun t => decide (t.all.head?.map LP.rtmActive = some b)) = true →
        ∃ t m, o = .next t ∧ t.all[0]? = some m ∧ m.rtmActive = b := by
    intro o b h
    cases o with
    | next t => ?_
    | fault f => cases h
    | refused r => cases h
    have h' : t.all.head?.map LP.rtmActive = some b := of_decide_eq_true h
    rw [List.head?_eq_getElem?, Option.map_eq_some_iff] at h'
    obtain ⟨m, h1, h2⟩ := h'
    exact ⟨t, m, rfl, h1, h2⟩
  refine ⟨⟨⟨by decide, by decide, fun l hl => ?_⟩, rfl, rfl, firstOf _ _ (by decide)⟩,
    ⟨by decide, by decide, fun l hl => ?_⟩, _, rfl, rfl, firstOf _ _ (by decide)⟩
  · obtain rfl : l = atEnd.lp := by simpa [State.all, atEnd, machine, State.reset] using hl
    exact ⟨by decide, by decide, by decide, by decide, by decide, by decide⟩
  · have hl' : l = { inTx cpu 1 0x1010 with fault := some { exc := excUd, pc := 0x1000 } } ∨ l = cpu := by
      simpa [State.all, besideTx, machine, State.reset] using hl
    rcases hl' with rfl | rfl <;> exact ⟨by decide, by decide, by decide, by decide, by decide, by decide⟩

/-- A transaction that begins and is aborted at EndAddr, the instruction after its XBEGIN
(AbortedTransactionsLeaveNoTrace). -/
def begins : State := { machine cpu [] [] with endAddr := 0x1006 }

theorem witness_noTrace :
    begins.wf ∧ begins.before = [] ∧ begins.after = [] ∧ isXchg (.xbeginRel32 noPfx 10) = false ∧
      begins.lp.nestCount = 0 ∧
      nextIs (exec (.xbeginRel32 noPfx 10) begins)
        (fun s1 => s1.lp.rtmActive && nextIs (step s1) (fun t => !t.lp.rtmActive)) = true := by
  refine ⟨⟨by decide, by decide, fun l hl => ?_⟩, rfl, rfl, rfl, rfl, by decide⟩
  have : l = cpu := by simpa [State.all, begins, machine, State.reset] using hl
  subst this
  exact ⟨by decide, by decide, by decide, by decide, by decide, by decide⟩

/-- Its premises about the steps inside the transaction, at no step: the run of none stays in the transaction
(AbortedTransactionsLeaveNoTrace). -/
theorem witness_noTrace_run :
    nextIs (exec (.xbeginRel32 noPfx 10) begins)
      (fun s1 => nextIs (Sys2Proof.core.run 0 s1) (fun u => u.lp.rtmActive)) = true := by decide

/-- A pc outside the program text, one above the limit, one that is not canonical, and bytes that are no admitted
instruction (UnfetchableBytesAreRefused). -/
theorem witness_unfetchable :
    (machine cpu [] []).inText (machine cpu [] []).lp.pc.toNat = false ∧
      (machine cpu [] []).lp.pc ≠ (machine cpu [] []).endAddr ∧
      (cpuIn .protected32 true 0x1FFF 0x2000).mode ≠ .long64 ∧
      highestOffset (cpuIn .protected32 true 0x1FFF 0x2000) < (cpuIn .protected32 true 0x1FFF 0x2000).pc.toNat ∧
      highestOffset (cpuIn .real false 0xFFFFFFFF 0x10000) < (cpuIn .real false 0xFFFFFFFF 0x10000).pc.toNat ∧
      (0x0000800000000000 : Word).getLsbD 47 ≠ (0x0000800000000000 : Word).getLsbD 63 ∧
      decode (machine cpu [0xC3] []).lp.ctx (machine cpu [0xC3] []).window = .error (.opcode 0xC3) := by decide

/-- The second byte of `87 C0` outside the text, above the limit, not canonical, and past the top of the address space,
the first byte in place (UnfetchableBytesAreRefused). -/
theorem witness_cutShort :
    decode long [0x87, 0xC0] = .ok (.xchgRm32R32 noPfx (.reg 0) 0, []) ∧
      decode prot32 [0x87, 0xC0] = .ok (.xchgRm32R32 noPfx (.reg 0) 0, []) ∧
      (machine cpu [0x87] []).mem.read 0x1000 = some 0x87 ∧ (machine cpu [0x87] []).inText 0x1001 = false ∧
      (machine (cpuIn .protected32 true 0x2000 0x2000) [0x87, 0xC0] []).mem.read 0x2000 = some 0x87 ∧
      highestOffset (cpuIn .protected32 true 0x2000 0x2000) < 0x2001 ∧
      (BitVec.ofNat 64 (0x00007FFFFFFFFFFF + 1)).getLsbD 47 ≠ (BitVec.ofNat 64 (0x00007FFFFFFFFFFF + 1)).getLsbD 63 ∧
      (machine { cpu with pc := 0xFFFFFFFFFFFFFFFF } [0x87, 0xC0] []).mem.read 0xFFFFFFFFFFFFFFFF = some 0x87 ∧
      2 ^ 64 ≤ (0xFFFFFFFFFFFFFFFF : Word).toNat + 1 := by decide

/-- The three access models (FlatOperandsAreAtTheirEffectiveAddress, SegmentedAccessFollowsTheRecords), and a page-fault
range. -/
def someSegments : Segments :=
  let d : DataSegment := { base := 0x100, limit := 0xFFF, writable := true, null := false }
  { cs := { base := 0, writable := false }, ss := { base := 0, limit := 0xFF, writable := true }, ds := d, es := d,
    fs := d, gs := { d with null := true } }

theorem witness_accessModels :
    (machine cpu [] []).hw.wf = true ∧ (machine cpu [] []).lp.access = .flat ∧
      (let lp : LP := { cpu with mode := .protected32, access := .segmented someSegments [⟨⟨0x1100, 4⟩, 6⟩] };
        (lp.accessFacts .ds 0xFFC 4).outsideLimit = false ∧ (lp.accessFacts .ds 0xFFD 4).outsideLimit = true ∧
          (lp.accessFacts .ds 0xFFD 4).linear = 0x10FD ∧ (lp.accessFacts .ds 0xFFD 4).pageFault = some 6 ∧
          (lp.accessFacts .ds 0xFFC 4).pageFault = none ∧ (lp.accessFacts .gs 0 1).nullSelector = true) ∧
      ({ cpu with access := .arbitrary 5 } : LP).access = .arbitrary 5 := by decide

/-- Prefixes as R82 admits them, all four kinds before a REX byte, and none (MisusedPrefixesAreRefused). -/
theorem witness_prefixes :
    legacyOnce [0x66#8, 0x65#8, 0xF0#8, 0x67#8] ∧ legacyOnce [] ∧ rexPart long [0x4F#8] ∧ rexPart real [] ∧
      (0x65#8 : Byte) ∈ segBytes :=
  ⟨⟨by decide, by decide, by decide, by decide, by decide⟩, ⟨by decide, by decide, by decide, by decide, by decide⟩,
    .inr ⟨0x4F#8, rfl, rfl, by decide⟩, .inl rfl, by decide⟩

/-- Bytes of each clause, at its edges (MisusedPrefixesAreRefused; R82, R83). -/
theorem test_misused :
    rejected long [0x66, 0x67, 0x66] = some .repeatedPfx ∧ rejected real [0x26, 0x66, 0x65] = some .twoSegments ∧
      rejected long [0x66, 0x4F, 0x86] = some .pfxNotAdmitted ∧ rejected long [0x67, 0x48, 0x97] = some .pfxNotAdmitted ∧
      rejected long [0x65, 0x87, 0xC0] = some .pfxNotAdmitted ∧ rejected long [0x4F, 0xF3] = some .repPfx ∧
      rejected long [0x48, 0x66] = some (.opcode 0x66) ∧ rejected long [0x48, 0x40] = some (.opcode 0x40) ∧
      rejected real [0x66, 0x40] = some (.opcode 0x40) := by decide

/-! ### A run that meets the launch premises -/

/-- One `93`, and the end of the run after it. -/
def short : State := { machine cpu [0x93] [] with endAddr := 0x1001 }

/-- Every state of its run has the one logical processor, which has not moved or has ended. -/
def onShort (t : State) : Prop :=
  (∃ d, t = { short with draws := d }) ∨ (t.before = [] ∧ t.after = [] ∧ t.lp.pc = t.endAddr ∧ t.lp.rtmActive = false)

theorem onShort_pos {t : State} (h : onShort t) {k : Nat} (hk : k < t.all.length) : k = 0 ∧ t.focus k = t := by
  have hb : t.before = [] ∧ t.after = [] := by
    rcases h with ⟨d, rfl⟩ | ⟨hb, ha, -⟩
    · exact ⟨rfl, rfl⟩
    · exact ⟨hb, ha⟩
  have hk0 : k = 0 := by simpa [State.all, hb.1, hb.2] using hk
  subst hk0
  exact ⟨rfl, focus_zero t hb.1⟩

theorem short_fetch (d : Nat) : ({ short with draws := d } : State).fetchDecode = .ok (.xchgEaxR32 noPfx 3) := by
  rw [fetchDecode_draws]
  decide

theorem onShort_step {t u : State} (h : onShort t) (hs : mayStep t u) : onShort u := by
  obtain ⟨k, d, hk, -, hstep⟩ := hs
  rw [(onShort_pos h hk).2] at hstep
  rcases h with ⟨e, rfl⟩ | ⟨-, -, hpc, hrtm⟩
  · rcases hstep with ⟨ha, -⟩ | ⟨-, hi⟩
    · cases ha
    · have hi' : ({ short with draws := d } : State).instrStep = .next u := hi
      unfold State.instrStep at hi'
      rw [short_fetch] at hi'
      cases hi'
      exact .inr ⟨rfl, rfl, rfl, rfl⟩
  · rcases hstep with ⟨ha, -⟩ | ⟨hne, -⟩
    · rw [hrtm] at ha; cases ha
    · exact absurd hpc hne

theorem reached_short {t : State} (h : Reached short t) : onShort t := by
  induction h with
  | launch => exact .inl ⟨0, rfl⟩
  | step _ hs ih => exact onShort_step ih hs

/-- A launch state with a program that meets the five premises, and runs (AdmittedRunsAreNeverRefused;
70_reset_and_hazards.md R202). -/
theorem witness_launchPremises : short.launchPremises ∧ ∃ t, step short = .next t := by
  have fetched : ∀ (t : State) (k : Nat), Reached short t → k < t.all.length → fetches (t.focus k) →
      (t.focus k).fetchDecode = .ok (.xchgEaxR32 noPfx 3) := by
    intro t k hr hk hf
    have h := reached_short hr
    rw [(onShort_pos h hk).2] at hf ⊢
    rcases h with ⟨d, rfl⟩ | ⟨-, -, hpc, -⟩
    · exact short_fetch d
    · exact absurd hpc hf.2
  refine ⟨⟨by decide, by decide, by decide, ?_, ?_⟩, exists_next (by decide)⟩
  · exact fun t k hr hk hf => ⟨_, fetched t k hr hk hf⟩
  · intro t k i w m hr hk hf hi hm
    rw [fetched t k hr hk hf] at hi
    cases hi
    cases hm

end Sys2Proof.Tests
end

/-! # Proofs about XBEGIN

What XBEGIN answers where it raises #UD and where it is at the nesting limit, and what the abort procedure makes of the
general registers (40_xbegin.md R125, R126, R128). -/

section
namespace Sys2Proof.Machine

/-! ## The cases of `State.xbegin` that do not look at the immediate -/

/-- The check of R128 comes before every other one. -/
theorem xbegin_eq_raise_ud (s : State) (lock osz16 : Bool) (len : Nat) (off : Word)
    (h : s.hw.hasRtm = false ∨ lock = true) : s.xbegin lock osz16 len off = .next (recorded s .ud none) := by
  have hud : (!s.hw.hasRtm || lock) = true := by simpa using h
  exact if_pos hud

/-- At the nesting limit XBEGIN is the abort procedure, whatever its length and offset (R126). -/
theorem xbegin_eq_rtmAbort (s : State) (osz16 : Bool) (len : Nat) (off : Word) (hrtm : s.hw.hasRtm = true)
    (hmax : s.hw.maxNest ≤ s.lp.nestCount) : s.xbegin false osz16 len off = .next s.rtmAbort := by
  unfold State.xbegin
  rw [if_neg (by simp [hrtm]), if_neg (Nat.not_lt.2 hmax)]

/-! ## The abort procedure (R125) -/

/-- The abort restores every general register but register 0. -/
theorem getElem_abort_other (lp : LP) (n : Nat) (r : RegNum) (h : r ≠ 0) :
    (lp.abort n).x[r] = lp.checkpoint.x[r] := by
  have h0 : (0 : Nat) ≠ r.val := fun e => h (Fin.ext e.symm)
  exact Vector.getElem_set_ne (by decide) r.isLt h0

/-- What the abort leaves in register 0. -/
theorem getElem_abort_zero (lp : LP) (n : Nat) :
    (lp.abort n).x[0] = abortRax lp.mode lp.checkpoint.x[0] n := Vector.getElem_set_self _

/-- A shift to the upper half does not see what stands in the lower one. -/
theorem upperHalf_append_ushiftRight (v : Word) (low : BitVec 32) : (v.extractLsb' 32 32 ++ low) >>> 32 = v >>> 32 := by
  have upper : (v.extractLsb' 32 32 ++ low).extractLsb' 32 32 = v.extractLsb' 32 32 :=
    BitVec.extractLsb'_append_eq_left
  simp only [BitVec.ushiftRight_eq_extractLsb'_of_lt (show 32 < 64 by decide)]
  exact congrArg (0#32 ++ ·) upper

/-- Outside 64-bit mode the upper half of register 0 is the checkpoint's, whatever the abort status. -/
theorem abortRax_ushiftRight (m : Mode) (v : Word) (n : Nat) (h : m ≠ .long64) :
    abortRax m v n >>> 32 = v >>> 32 := by
  cases m with
  | long64 => exact absurd rfl h
  | real => exact upperHalf_append_ushiftRight v _
  | v8086 => exact upperHalf_append_ushiftRight v _
  | protected32 => exact upperHalf_append_ushiftRight v _
  | compat => exact upperHalf_append_ushiftRight v _

/-- The state after the abort procedure is the one R125 describes. -/
theorem rtmAbort_abortedFrom (s : State) : abortedFrom s s.rtmAbort := by
  have upper (hm : s.lp.mode ≠ .long64) : s.rtmAbort.lp.x[0] >>> 32 = s.lp.checkpoint.x[0] >>> 32 := by
    rw [rtmAbort_lp, getElem_abort_zero]
    exact abortRax_ushiftRight _ _ _ hm
  have others : othersUnchanged s s.rtmAbort := ⟨rfl, rfl, rfl, rfl, rfl⟩
  exact ⟨getElem_abort_other s.lp s.draws, upper, rfl, rfl, rfl, rfl, rfl, rfl, rfl, rfl, rfl, rfl, rfl, others⟩

/-! ## The invariant at the nesting limit -/

/-- In a well-formed state MAX_RTM_NEST_COUNT is at least 1 (R36), so at the limit a transaction is active (R39). -/
theorem rtmActive_of_nestCount_eq_maxNest {s : State} (hwf : s.wf) (hmax : s.lp.nestCount = s.hw.maxNest) :
    s.lp.rtmActive = true := by
  obtain ⟨hhw, -, hall⟩ := hwf
  obtain ⟨hactive, -⟩ := hall s.lp (by simp [State.all])
  have hpos : 1 ≤ s.hw.maxNest := by
    simp only [Hw.wf, Bool.and_eq_true, decide_eq_true_eq] at hhw
    omega
  exact hactive.2 (hmax ▸ hpos)

/-! ## The obligations -/

/-- Settles O12: at the limit both forms are the abort procedure, whose state is fixed without the immediate. -/
theorem xbeginAtNestingLimitAborts : Obligations.XbeginAtNestingLimitAborts := by
  intro s p hwf hrtm hlock hmax
  have aborts : ∀ osz16 len off, s.xbegin p.lock osz16 len off = .next s.rtmAbort := by
    intro osz16 len off
    rw [hlock]
    exact xbegin_eq_rtmAbort s osz16 len off hrtm (Nat.le_of_eq hmax.symm)
  exact ⟨rtmActive_of_nestCount_eq_maxNest hwf hmax, s.rtmAbort, rtmAbort_abortedFrom s,
    fun _ => aborts _ _ _, fun _ => aborts _ _ _⟩

/-- Settles O10: both forms go through the one check of R128. -/
theorem xbeginWithoutRtmOrWithLockRaisesUd : Obligations.XbeginWithoutRtmOrWithLockRaisesUd :=
  fun s p _ _ h => ⟨xbegin_eq_raise_ud s p.lock _ _ _ h, xbegin_eq_raise_ud s p.lock _ _ _ h⟩

end Sys2Proof.Machine
end

/-! # XCHG and the flags

XCHG affects no flag and reads none (41_xchg.md R151). Each operation XCHG is made of commutes with setting the flags
value: that no flag is read says so, and that none is affected is the case of the value already there. -/

section
namespace Sys2Proof.Machine

/-! ## Setting the flags value -/

/-- The state with another flags value in the logical processor that moves (10_state.md R29). -/
def State.setFlags (s : State) (f : Nat) : State := { s with lp := { s.lp with flags := f } }

section
variable (s : State) (f : Nat)

@[simp] theorem withFlags_next : withFlags f (.next s) = .next (s.setFlags f) := rfl

/-! ## What XCHG reads of a state with another flags value -/

@[simp] theorem setFlags_mode : (s.setFlags f).lp.mode = s.lp.mode := rfl
@[simp] theorem setFlags_regRead (w : Width) (r : RegNum) (rex : Bool) :
    (s.setFlags f).lp.regRead w r rex = s.lp.regRead w r rex := rfl
@[simp] theorem setFlags_readByte (a : Nat) : (s.setFlags f).readByte a = s.readByte a := rfl
@[simp] theorem setFlags_overlapsText (la : Word) (n : Nat) :
    (s.setFlags f).overlapsText la n = s.overlapsText la n := rfl
@[simp] theorem setFlags_operandFacts (w : Width) (m : Mem) (len : Nat) :
    (s.setFlags f).lp.operandFacts w m len = s.lp.operandFacts w m len := rfl
@[simp] theorem setFlags_operandExceptions (w : Width) (m : Mem) (len : Nat) :
    (s.setFlags f).operandExceptions w m len = s.operandExceptions w m len := rfl

@[simp] theorem setFlags_readBytes (la : Word) (k n : Nat) :
    (s.setFlags f).readBytes la k n = s.readBytes la k n := by
  induction n generalizing k with
  | zero => rfl
  | succ n ih => simp [State.readBytes, ih]

@[simp] theorem setFlags_memRead (la : Word) (n : Nat) : (s.setFlags f).memRead la n = s.memRead la n := by
  simp [State.memRead]

/-! ## The operations of XCHG on a state with another flags value -/

@[simp] theorem setFlags_advance (len : Nat) : (s.setFlags f).advance len = (s.advance len).setFlags f := rfl
@[simp] theorem setFlags_raise (e : Exc) : (s.setFlags f).raise e = (s.raise e).setFlags f := rfl

@[simp] theorem setFlags_regWrite (w : Width) (r : RegNum) (rex : Bool) (v : Word) :
    (s.setFlags f).regWrite w r rex v = (s.regWrite w r rex v).setFlags f := by
  have lpWrite : ({ s.lp with flags := f } : LP).regWrite w r rex v = { s.lp.regWrite w r rex v with flags := f } := by
    cases w with
    | w8 => cases h : highByteReg r rex <;> simp only [LP.regWrite, h] <;> rfl
    | w16 => rfl
    | w32 => rfl
    | w64 => rfl
  exact congrArg s.withLp lpWrite

@[simp] theorem setFlags_writeByte (a : Nat) (b : Byte) :
    (s.setFlags f).writeByte a b = (s.writeByte a b).setFlags f := by
  cases h : s.lp.rtmActive <;> simp [State.writeByte, State.setFlags, h]

@[simp] theorem setFlags_writeBytes (la v : Word) (k n : Nat) :
    (s.setFlags f).writeBytes la v k n = (s.writeBytes la v k n).setFlags f := by
  induction n generalizing s k with
  | zero => rfl
  | succ n ih => simp [State.writeBytes, ih]

@[simp] theorem setFlags_memWrite (la v : Word) (n : Nat) :
    (s.setFlags f).memWrite la n v = (s.memWrite la n v).setFlags f := setFlags_writeBytes s f la v 0 n

@[simp] theorem setFlags_raiseOneOf (e : Exc) (es : List Exc) :
    (s.setFlags f).raiseOneOf e es = (s.raiseOneOf e es).setFlags f := by
  cases es <;> rfl

/-! ## The forms of XCHG on a state with another flags value -/

theorem xchgRR_setFlags (w : Width) (a b : RegNum) (rex lock : Bool) (len : Nat) :
    (s.setFlags f).xchgRR w a b rex lock len = withFlags f (s.xchgRR w a b rex lock len) := by
  cases lock <;> simp [State.xchgRR]

theorem xchgShort_setFlags (w : Width) (r : RegNum) (rex lock : Bool) (len : Nat) :
    (s.setFlags f).xchgShort w r rex lock len = withFlags f (s.xchgShort w r rex lock len) := by
  by_cases hr : r = 0
  · cases lock <;> simp [State.xchgShort, hr]
  · simp [State.xchgShort, hr, xchgRR_setFlags]

theorem exchange_setFlags (w : Width) (g : RegNum) (rex : Bool) (la : Word) (len : Nat) :
    (s.setFlags f).exchange w g rex la len = withFlags f (s.exchange w g rex la len) := by
  by_cases ht : s.overlapsText la w.bytes = true
  · simp [State.exchange, ht, withFlags]
  · cases hm : s.memRead la w.bytes with
    | none => simp [State.exchange, ht, hm, withFlags]
    | some tm => simp [State.exchange, ht, hm]

theorem xchgModRM_setFlags (w : Width) (rm : RM) (g : RegNum) (rex lock : Bool) (len : Nat) :
    (s.setFlags f).xchgModRM w rm g rex lock len = withFlags f (s.xchgModRM w rm g rex lock len) := by
  cases rm with
  | reg r => exact xchgRR_setFlags s f w r g rex lock len
  | mem m =>
    cases he : s.operandExceptions w m len with
    | cons e es => simp [State.xchgModRM, State.xchgRM, he]
    | nil => simp [State.xchgModRM, State.xchgRM, he, exchange_setFlags]

/-- XCHG reads no flag (R151). -/
theorem exec_setFlags_of_isXchg {i : Instr} (hi : isXchg i = true) :
    exec i (s.setFlags f) = withFlags f (exec i s) := by
  cases i with
  | xbeginRel16 p imm => cases hi
  | xbeginRel32 p imm => cases hi
  | xchgAxR16 p r => exact xchgShort_setFlags ..
  | xchgEaxR32 p r => exact xchgShort_setFlags ..
  | xchgRaxR64 p r => exact xchgShort_setFlags ..
  | xchgRm8R8 p rm g => exact xchgModRM_setFlags ..
  | xchgRm8R8Rex p rm g => exact xchgModRM_setFlags ..
  | xchgRm16R16 p rm g => exact xchgModRM_setFlags ..
  | xchgRm32R32 p rm g => exact xchgModRM_setFlags ..
  | xchgRm64R64 p rm g => exact xchgModRM_setFlags ..

end

/-! ## No flag is affected -/

/-- No instruction changes the other logical processors. -/
theorem exec_others {i : Instr} {s t : State} (h : exec i s = .next t) :
    t.before = s.before ∧ t.after = s.after := by
  cases exec_effect h with
  | raised e d => exact ⟨rfl, rfl⟩
  | entered fb => exact ⟨rfl, rfl⟩
  | nested => exact ⟨rfl, rfl⟩
  | aborted => exact ⟨rfl, rfl⟩
  | registers x => exact ⟨rfl, rfl⟩
  | exchanged la v n x => exact ⟨writeBytes_before s la v 0 n, writeBytes_after s la v 0 n⟩

/-- XCHG keeps the flags value: to set the value already there changes nothing before XCHG, and so nothing after it. -/
theorem flags_of_exec_xchg {i : Instr} {s t : State} (hi : isXchg i = true) (h : exec i s = .next t) :
    t.lp.flags = s.lp.flags := by
  have own : exec i s = withFlags s.lp.flags (exec i s) := exec_setFlags_of_isXchg s s.lp.flags hi
  rw [h, withFlags_next] at own
  exact congrArg (·.lp.flags) (Host.Outcome.next.inj own)

/-- XCHG affects no flag of any logical processor (R151). -/
theorem flagsUnaffected_of_exec_xchg {i : Instr} {s t : State} (hi : isXchg i = true) (h : exec i s = .next t) :
    flagsUnaffected s t := by
  obtain ⟨hbefore, hafter⟩ := exec_others h
  exact ⟨flags_of_exec_xchg hi h, congrArg (List.map LP.flags) hbefore, congrArg (List.map LP.flags) hafter⟩

/-- Settles O31: every form commutes with setting the flags value, and so keeps the value it has. -/
theorem xchgNeitherAffectsNorReadsFlags : Obligations.XchgNeitherAffectsNorReadsFlags :=
  fun _ s f hi => ⟨fun _ h => flagsUnaffected_of_exec_xchg hi h, exec_setFlags_of_isXchg s f hi⟩

end Sys2Proof.Machine
end

/-! # What every step keeps

What one step does to the state with its mover in focus (70_reset_and_hazards.md R204), and from it the invariants:
what an instruction can do is read off its effect, once for each part of the state. -/

section
namespace Sys2Proof.Machine

/-! ## What an instruction leaves of the machine -/

/-- The logical processor after an exchange with memory: registers, pc and write buffer are new. -/
theorem exchanged_lp (s : State) (la v : Word) (n len : Nat) (x : Vector Word 16) :
    ∃ wb, (((s.memWrite la n v).withLp { (s.memWrite la n v).lp with x := x }).advance len).lp =
      { s.lp with x := x, wbuf := wb, pc := s.lp.nextPc len } := by
  obtain ⟨wb, h⟩ := writeBytes_lp s la v 0 n
  refine ⟨wb, ?_⟩
  rw [advance_lp, withLp_lp, State.memWrite, h]
  rfl

/-- An instruction changes its own logical processor, memory and the counter of draws alone. -/
theorem Effect.othersUnchanged {s t : State} {len : Nat} (h : Effect s len t) : othersUnchanged s t := by
  cases h with
  | raised e d => exact ⟨rfl, rfl, rfl, rfl, rfl⟩
  | entered fb => exact ⟨rfl, rfl, rfl, rfl, rfl⟩
  | nested => exact ⟨rfl, rfl, rfl, rfl, rfl⟩
  | aborted => exact ⟨rfl, rfl, rfl, rfl, rfl⟩
  | registers x => exact ⟨rfl, rfl, rfl, rfl, rfl⟩
  | exchanged la v n x =>
    exact ⟨writeBytes_hw .., writeBytes_before .., writeBytes_after .., writeBytes_text .., writeBytes_endAddr ..⟩

/-- No instruction changes the environment of its logical processor (10_state.md R30 to R33). -/
theorem Effect.environment {s t : State} {len : Nat} (h : Effect s len t) :
    t.lp.environment = s.lp.environment := by
  cases h with
  | raised e d => rfl
  | entered fb => rfl
  | nested => rfl
  | aborted => rfl
  | registers x => rfl
  | exchanged la v n x =>
    obtain ⟨wb, h⟩ := exchanged_lp s la v n len x
    rw [h]
    rfl

/-- Inside a transaction an instruction leaves the shared memory as it was (20_memory.md R65). -/
theorem Effect.mem_of_rtmActive {s t : State} {len : Nat} (h : Effect s len t) (ha : s.lp.rtmActive = true) :
    t.mem = s.mem := by
  cases h with
  | raised e d => rfl
  | entered fb => rfl
  | nested => rfl
  | aborted => rfl
  | registers x => rfl
  | exchanged la v n x => exact writeBytes_mem_active s la v 0 n ha

/-! ## One step of the mover -/

/-- What a step does to the state with its mover in focus: the abort procedure inside a transaction, or the instruction
at pc away from EndAddr (70_reset_and_hazards.md R204). -/
inductive Turn (u : State) : State → Prop
  | abort (ha : u.lp.rtmActive = true) : Turn u u.rtmAbort
  | instr {i : Instr} {t : State} (hi : u.fetchDecode = .ok i) (hpc : u.lp.pc ≠ u.endAddr)
      (hx : exec i u = .next t) : Turn u t

/-- A step is the turn of a logical processor that can move. -/
theorem step_turn {s t : State} (h : step s = .next t) :
    ∃ k d, k ∈ s.movers ∧ Turn { s.focus k with draws := d } t := by
  obtain ⟨k, d, u, hk, rfl, ⟨ha, rfl⟩ | ⟨i, hi, hx, hpc⟩⟩ := step_cases h
  · exact ⟨k, d, hk, .abort ha⟩
  · exact ⟨k, d, hk, .instr hi hpc hx⟩

theorem Turn.othersUnchanged {u t : State} (h : Turn u t) : othersUnchanged u t := by
  cases h with
  | abort ha => exact ⟨rfl, rfl, rfl, rfl, rfl⟩
  | instr hi hpc hx => exact (exec_effect hx).othersUnchanged

theorem Turn.environment {u t : State} (h : Turn u t) : t.lp.environment = u.lp.environment := by
  cases h with
  | abort ha => rfl
  | instr hi hpc hx => exact (exec_effect hx).environment

/-- Inside a transaction no step writes the shared memory. -/
theorem Turn.mem_of_rtmActive {u t : State} (h : Turn u t) (ha : u.lp.rtmActive = true) : t.mem = u.mem := by
  cases h with
  | abort ha => rfl
  | instr hi hpc hx => exact (exec_effect hx).mem_of_rtmActive ha

/-- After a turn the logical processors are the old ones but for the mover. -/
theorem Turn.all_eq {u t : State} (h : Turn u t) : t.all = u.before ++ t.lp :: u.after := by
  obtain ⟨-, hb, ha, -, -⟩ := h.othersUnchanged
  rw [State.all, hb, ha]

/-- What holds of the mover after its turn, and held of every logical processor before, holds of every one after. -/
theorem Turn.forall_all {u t : State} {P : LP → Prop} (h : Turn u t) (ht : P t.lp) (hu : ∀ l ∈ u.all, P l) :
    ∀ l ∈ t.all, P l := by
  rw [h.all_eq]
  intro l hl
  rcases List.mem_append.1 hl with hl | hl
  · exact hu l (List.mem_append_left _ hl)
  · rcases List.mem_cons.1 hl with rfl | hl
    · exact ht
    · exact hu l (List.mem_append_right _ (List.mem_cons_of_mem _ hl))

theorem lp_mem_all (s : State) : s.lp ∈ s.all := List.mem_append_right _ List.mem_cons_self

/-! ## The invariant -/

/-- Outside 64-bit mode a fallback address that passed its check fits in 32 bits (40_xbegin.md R124). -/
theorem fallbackOk_lt {lp : LP} {hw : Hw} {fb : Word} (h : lp.fallbackOk hw fb = true) (hm : lp.mode ≠ .long64) :
    fb.toNat < 2 ^ 32 := by
  have hle : fb.toNat ≤ lp.csBound := by
    unfold LP.fallbackOk at h
    split at h
    · contradiction
    · exact of_decide_eq_true h
  exact Nat.lt_of_le_of_lt hle (csBound_lt lp)

/-- At the nesting limit, which is at least 1 (10_state.md R37), a transaction is active. -/
theorem LP.wf.rtmActive_of_maxNest_le {hw : Hw} {lp : LP} (h : lp.wf hw) (hhw : hw.wf = true)
    (hmax : hw.maxNest ≤ lp.nestCount) : lp.rtmActive = true := by
  obtain ⟨hact, -⟩ := h
  simp only [Hw.wf, Bool.and_eq_true, decide_eq_true_eq] at hhw
  exact hact.2 (by omega)

/-- The abort procedure leaves a well-formed logical processor outside a transaction. -/
theorem LP.wf.abort {hw : Hw} {lp : LP} (h : lp.wf hw) (ha : lp.rtmActive = true) (d : Nat) : (lp.abort d).wf hw := by
  obtain ⟨-, -, -, -, -, hfb⟩ := h
  exact ⟨by simp, Nat.zero_le _, List.Pairwise.nil, fun _ => rfl, fun hm => fallbackOk_lt (hfb ha) hm,
    fun hc => by cases hc⟩

/-- An instruction keeps its logical processor well-formed (10_state.md R27, R36, R38, R39). -/
theorem Effect.lp_wf {s t : State} {len : Nat} (h : Effect s len t) (hhw : s.hw.wf = true) (hmem : s.mem.wf)
    (hwf : s.lp.wf s.hw) : t.lp.wf s.hw := by
  have hpc := nextPc_lt s.lp len
  have hab := hwf.rtmActive_of_maxNest_le hhw
  have ⟨hact, hnest, hbuf, hout, hlt, hfb⟩ := hwf
  cases h with
  | raised e d => exact hwf
  | entered fb h0 hmax hok =>
    exact ⟨by simp, hmax, List.Pairwise.nil, fun hc => (by cases hc), hpc, fun _ => hok⟩
  | nested h0 hmax =>
    exact ⟨⟨fun _ => Nat.le_add_left _ _, fun _ => hact.2 (by omega)⟩, hmax, hbuf, hout, hpc, hfb⟩
  | aborted hmax => exact hwf.abort (hab hmax) s.draws
  | registers x => exact ⟨hact, hnest, hbuf, hout, hpc, hfb⟩
  | exchanged la v n x =>
    have hwb : (s.memWrite la n v).lp.wbuf.wf := (writeBytes_wf s la v 0 n hmem hbuf).2
    have hempty : s.lp.rtmActive = false → (s.memWrite la n v).lp.wbuf = [] := fun hf =>
      (writeBytes_wbuf_inactive s la v 0 n hf).trans (hout hf)
    obtain ⟨wb, hlp⟩ := writeBytes_lp s la v 0 n
    rw [advance_lp, withLp_lp]
    rw [State.memWrite, hlp] at hwb hempty ⊢
    exact ⟨hact, hnest, hwb, hempty, hpc, hfb⟩

/-- An instruction keeps the shared memory canonical. -/
theorem Effect.mem_wf {s t : State} {len : Nat} (h : Effect s len t) (hmem : s.mem.wf) (hbuf : s.lp.wbuf.wf) :
    t.mem.wf := by
  cases h with
  | raised e d => exact hmem
  | entered fb => exact hmem
  | nested => exact hmem
  | aborted => exact hmem
  | registers x => exact hmem
  | exchanged la v n x => exact (writeBytes_wf s la v 0 n hmem hbuf).1

/-- The turn of the mover keeps the invariant. -/
theorem Turn.wf {u t : State} (h : Turn u t) (hwf : u.wf) : t.wf := by
  obtain ⟨hhw, hmem, hall⟩ := hwf
  have hlp := hall u.lp (lp_mem_all u)
  have kept : t.mem.wf ∧ t.lp.wf u.hw := by
    cases h with
    | abort ha => exact ⟨hmem, hlp.abort ha u.draws⟩
    | instr hi hpc hx =>
      have he := exec_effect hx
      obtain ⟨-, -, hbuf, -⟩ := hlp
      exact ⟨he.mem_wf hmem hbuf, he.lp_wf hhw hmem (hall u.lp (lp_mem_all u))⟩
  have hsame : t.hw = u.hw := h.othersUnchanged.1
  rw [State.wf, hsame]
  exact ⟨hhw, kept.1, h.forall_all kept.2 hall⟩

/-- Which logical processor is in focus, and the counter of draws, are no part of the invariant. -/
theorem focus_wf {s : State} (h : s.wf) (k d : Nat) : ({ s.focus k with draws := d } : State).wf := by
  obtain ⟨hhw, hmem, -⟩ := focus_fixed s k
  show (s.focus k).hw.wf = true ∧ (s.focus k).mem.wf ∧ ∀ l ∈ (s.focus k).all, l.wf (s.focus k).hw
  rw [hhw, hmem, focus_all]
  exact h

/-- Settles O43: a step is the turn of one logical processor, which keeps the invariant of that one and of memory. -/
theorem stepKeepsTheInvariant : Obligations.StepKeepsTheInvariant := by
  intro s t hwf h
  obtain ⟨k, d, -, turn⟩ := step_turn h
  exact turn.wf (focus_wf hwf k d)

end Sys2Proof.Machine
end

/-! # What a step changes and what it cannot

One logical processor moves and the others stay as they are (70_reset_and_hazards.md R204); the machine, the program text
and the launch addresses stay (10_state.md R30 to R34, 20_memory.md R62, R72). -/

section
namespace Sys2Proof.Machine

/-! ## The others -/

/-- The mover of a turn taken at position `k` stands there. -/
theorem focus_before_length {s : State} {k : Nat} (hk : k ∈ s.movers) : (s.focus k).before.length = k := by
  obtain ⟨hlt, -⟩ := (mem_movers s k).1 hk
  exact (focus_lp s k _ (List.getElem?_eq_getElem hlt)).2

/-- At every position but the mover's stands after a step what stood there before. -/
theorem Turn.getElem?_other {u t : State} (h : Turn u t) {j : Nat} (hj : j ≠ u.before.length) :
    t.all[j]? = u.all[j]? := by
  rw [h.all_eq, State.all]
  rcases Nat.lt_or_gt_of_ne hj with hlt | hgt
  · rw [List.getElem?_append_left hlt, List.getElem?_append_left hlt]
  · rw [List.getElem?_append_right (Nat.le_of_lt hgt), List.getElem?_append_right (Nat.le_of_lt hgt)]
    obtain ⟨n, hn⟩ : ∃ n, j - u.before.length = n + 1 := ⟨j - u.before.length - 1, by omega⟩
    rw [hn, List.getElem?_cons_succ, List.getElem?_cons_succ]

/-- The mover after its turn stands where it stood. -/
theorem Turn.getElem?_mover {u t : State} (h : Turn u t) : t.all[u.before.length]? = some t.lp := by
  rw [h.all_eq, List.getElem?_append_right (Nat.le_refl _), Nat.sub_self, List.getElem?_cons_zero]

theorem Turn.length_all {u t : State} (h : Turn u t) : t.all.length = u.all.length := by
  rw [h.all_eq, State.all, List.length_append, List.length_append]
  rfl

/-- A step is the turn of the logical processor at one position, which can move; at every other one nothing changes. -/
theorem step_turn_at {s t : State} (h : step s = .next t) :
    ∃ k d, k ∈ s.movers ∧ Turn { s.focus k with draws := d } t ∧ t.all[k]? = some t.lp ∧
      ∀ j, j ≠ k → t.all[j]? = s.all[j]? := by
  obtain ⟨k, d, hk, turn⟩ := step_turn h
  have hpos := focus_before_length hk
  refine ⟨k, d, hk, turn, ?_, fun j hj => ?_⟩
  · have hm := turn.getElem?_mover
    rwa [hpos] at hm
  · rw [turn.getElem?_other (by rwa [hpos])]
    show (s.focus k).all[j]? = _
    rw [focus_all]

/-- A logical processor that cannot move stays as it is. -/
theorem getElem?_step_of_not_canMove {s t : State} {k : Nat} (h : step s = .next t)
    (hk : (s.focus k).canMove = false) : t.all[k]? = s.all[k]? := by
  obtain ⟨j, d, hj, -, -, hother⟩ := step_turn_at h
  refine hother k fun e => ?_
  subst e
  rw [((mem_movers s k).1 hj).2] at hk
  cases hk

/-- Settles O40: the position of the mover. -/
theorem aStepChangesAtMostOneProcessor : Obligations.AStepChangesAtMostOneProcessor := by
  intro s t h
  obtain ⟨k, d, -, turn, -, hother⟩ := step_turn_at h
  refine ⟨?_, k, hother⟩
  rw [turn.length_all]
  exact congrArg List.length (focus_all s k)

/-! ## Who cannot move -/

theorem canMove_false_of_fault {u : State} (h : u.lp.fault ≠ none) : u.canMove = false := by
  obtain ⟨f, hf⟩ := Option.ne_none_iff_exists'.1 h
  simp [State.canMove, hf]

theorem canMove_false_of_ended {u : State} (hpc : u.lp.pc = u.endAddr) (ha : u.lp.rtmActive = false) :
    u.canMove = false := by
  simp [State.canMove, hpc, ha]

theorem canMove_false_of_stuckOutside {u : State} (h : stuckOutside u) : u.canMove = false := by
  obtain ⟨-, ha, hs⟩ := h
  simp [State.canMove, ha, (instrStuck_iff u).2 hs]

/-- A logical processor has an enabled step exactly when it is not blocked (00_scope.md R11). -/
theorem canMove_eq_false_iff (u : State) : u.canMove = false ↔ blocked u := by
  constructor
  · intro h
    by_cases hf : u.lp.fault = none
    · have hmove : u.lp.rtmActive = false ∧ (u.lp.pc = u.endAddr ∨ u.instrStuck = true) := by
        simpa [State.canMove, hf, imp_iff_not_or] using h
      obtain ⟨ha, hstop⟩ := hmove
      by_cases hpc : u.lp.pc = u.endAddr
      · exact .inr (.inl ⟨hpc, ha⟩)
      · exact .inr (.inr ⟨⟨hf, hpc⟩, ha, (instrStuck_iff u).1 (hstop.resolve_left hpc)⟩)
    · exact .inl hf
  · rintro (hf | ⟨hpc, ha⟩ | hs)
    · exact canMove_false_of_fault hf
    · exact canMove_false_of_ended hpc ha
    · exact canMove_false_of_stuckOutside hs

/-- A blocked logical processor stays as it is while others move. -/
theorem getElem?_step_of_blocked {s t : State} {k : Nat} (h : step s = .next t) (hk : blocked (s.focus k)) :
    t.all[k]? = s.all[k]? :=
  getElem?_step_of_not_canMove h ((canMove_eq_false_iff _).2 hk)

theorem focus_endAddr (s : State) (k : Nat) : (s.focus k).endAddr = s.endAddr := by
  obtain ⟨-, -, -, h, -⟩ := focus_fixed s k
  exact h

/-- Settles O39: a faulted logical processor is blocked. -/
theorem faultedProcessorsStayAsTheyAre : Obligations.FaultedProcessorsStayAsTheyAre := by
  intro s t k l h hl hf
  obtain ⟨hlp, -⟩ := focus_lp s k l hl
  rw [getElem?_step_of_blocked h (.inl (hlp ▸ hf)), hl]

/-- Settles O51: one that has ended and one that is stuck are blocked. -/
theorem endedAndStuckProcessorsStayAsTheyAre : Obligations.EndedAndStuckProcessorsStayAsTheyAre := by
  intro s t k l h hl hstop
  obtain ⟨hlp, -⟩ := focus_lp s k l hl
  have hk : blocked (s.focus k) := by
    rcases hstop with ⟨hpc, ha⟩ | hs
    · exact .inr (.inl ⟨by rw [hlp, focus_endAddr]; exact hpc, by rw [hlp]; exact ha⟩)
    · exact .inr (.inr hs)
  rw [getElem?_step_of_blocked h hk, hl]

/-! ## The machine and its memory -/

/-- A turn keeps constants, text, EndAddr and environments. -/
theorem Turn.sameMachine {u t : State} (h : Turn u t) : sameMachine u t := by
  obtain ⟨hhw, -, -, htext, hend⟩ := h.othersUnchanged
  refine ⟨hhw, htext, hend, ?_⟩
  rw [h.all_eq, State.all, List.map_append, List.map_append, List.map_cons, List.map_cons, h.environment]

/-- Settles O41: by the turn of the mover. -/
theorem stepKeepsTheMachine : Obligations.StepKeepsTheMachine := by
  intro s t h
  obtain ⟨k, d, -, turn⟩ := step_turn h
  obtain ⟨hhw, htext, hend, hall⟩ := turn.sameMachine
  obtain ⟨fhw, -, ftext, fend, -⟩ := focus_fixed s k
  exact ⟨hhw.trans fhw, htext.trans ftext, hend.trans fend,
    hall.trans (congrArg (List.map LP.environment) (focus_all s k))⟩

/-- Every byte of a read that answers has a value. -/
theorem readByte_isSome_of_memRead {s : State} {la : Word} {n k : Nat} (hr : (s.memRead la n).isSome = true)
    (hk : k < n) : (s.readByte (addrAt s.lp.mode la k)).isSome = true := by
  cases hb : s.readByte (addrAt s.lp.mode la k) with
  | some b => rfl
  | none => rw [memRead_eq_none hk hb] at hr; cases hr

/-- No byte of an operand that does not overlap the program text is text (20_memory.md R72). -/
theorem inText_false_of_overlapsText {s : State} {la : Word} {n k : Nat} (ht : s.overlapsText la n = false)
    (hk : k < n) : s.inText (addrAt s.lp.mode la k) = false := by
  by_contra hc
  rw [(overlapsText_iff s la n).2 ⟨k, hk, by simpa using hc⟩] at ht
  cases ht

/-- Outside a transaction the mover reads the shared memory. -/
theorem readByte_inactive {s : State} (h : s.lp.rtmActive = false) (a : Nat) : s.readByte a = s.mem.read a := by
  simp [State.readByte, h]

/-- A write at an address that has a value adds none. -/
theorem Memory.isSome_read_write {m : Memory} {a : Nat} (h : (m.read a).isSome = true) (v : Byte) (b : Nat) :
    ((m.write a v).read b).isSome = (m.read b).isSome := by
  rw [Memory.read_write]
  by_cases hb : b = a
  · rw [if_pos hb, hb, h]
    rfl
  · rw [if_neg hb]

/-- A write to bytes that have values adds no address to the shared memory. -/
theorem isSome_read_writeBytes (s : State) (la v : Word) (k n : Nat) (ha : s.lp.rtmActive = false)
    (h : ∀ j, k ≤ j → j < k + n → (s.mem.read (addrAt s.lp.mode la j)).isSome = true) (a : Nat) :
    ((s.writeBytes la v k n).mem.read a).isSome = (s.mem.read a).isSome := by
  induction n generalizing s k with
  | zero => rfl
  | succ n ih =>
    have hmem : (s.writeByte (addrAt s.lp.mode la k) (byteOf v k)).mem =
        s.mem.write (addrAt s.lp.mode la k) (byteOf v k) := by rw [writeByte_mem, ha]; rfl
    have same := Memory.isSome_read_write (h k (Nat.le_refl k) (by omega)) (byteOf v k)
    have later : ∀ j, k + 1 ≤ j → j < k + 1 + n →
        ((s.writeByte (addrAt s.lp.mode la k) (byteOf v k)).mem.read
          (addrAt (s.writeByte (addrAt s.lp.mode la k) (byteOf v k)).lp.mode la j)).isSome = true := by
      intro j h1 h2
      rw [hmem, writeByte_mode, same]
      exact h j (by omega) (by omega)
    rw [State.writeBytes, ih _ _ (by simpa using ha) later, hmem, same]

/-- A byte of the write buffer at none of the written addresses is as before. -/
theorem writeBytes_wbuf_other (s : State) (la v : Word) (k n b : Nat)
    (h : ∀ j, k ≤ j → j < k + n → b ≠ addrAt s.lp.mode la j) :
    (s.writeBytes la v k n).lp.wbuf.read b = s.lp.wbuf.read b := by
  induction n generalizing s k with
  | zero => rfl
  | succ n ih =>
    rw [State.writeBytes, ih _ _ (fun j h1 h2 => by simpa using h j (by omega) (by omega)), writeByte_lp]
    show (if s.lp.rtmActive = true then _ else _ : Memory).read b = _
    split
    · exact Memory.read_write_other _ _ (h k (Nat.le_refl k) (by omega))
    · rfl

/-- An address of program text is none of a memory operand that may be exchanged. -/
theorem ne_addrAt_of_inText {s : State} {la : Word} {n a : Nat} (ht : s.overlapsText la n = false)
    (ha : s.inText a = true) (j : Nat) (hj : j < n) : a ≠ addrAt s.lp.mode la j := by
  rintro rfl
  rw [inText_false_of_overlapsText ht hj] at ha
  cases ha

/-- No instruction changes a byte of program text (20_memory.md R72). -/
theorem Effect.read_text {s t : State} {len a : Nat} (h : Effect s len t) (ha : s.inText a = true) :
    t.mem.read a = s.mem.read a := by
  cases h with
  | raised e d => rfl
  | entered fb => rfl
  | nested => rfl
  | aborted => rfl
  | registers x => rfl
  | exchanged la v n x hn ht hr =>
    exact writeBytes_mem_other s la v 0 n a fun j _ hj => ne_addrAt_of_inText ht ha j (by omega)

/-- No instruction adds an address to the shared memory or takes one away (20_memory.md R62). -/
theorem Effect.isSome_read {s t : State} {len : Nat} (h : Effect s len t) (a : Nat) :
    (t.mem.read a).isSome = (s.mem.read a).isSome := by
  cases hact : s.lp.rtmActive with
  | true => rw [h.mem_of_rtmActive hact]
  | false =>
    cases h with
    | raised e d => rfl
    | entered fb => rfl
    | nested => rfl
    | aborted => rfl
    | registers x => rfl
    | exchanged la v n x hn ht hr =>
      refine isSome_read_writeBytes s la v 0 n hact (fun j _ hj => ?_) a
      rw [← readByte_inactive hact]
      exact readByte_isSome_of_memRead hr (by omega)

/-- No instruction puts a byte of program text into a write buffer (20_memory.md R72). -/
theorem Effect.wbuf_text {s t : State} {len a : Nat} (h : Effect s len t) (ha : s.inText a = true)
    (hb : s.lp.wbuf.read a = none) : t.lp.wbuf.read a = none := by
  cases h with
  | raised e d => exact hb
  | entered fb => rfl
  | nested => exact hb
  | aborted => rfl
  | registers x => exact hb
  | exchanged la v n x hn ht hr =>
    exact (writeBytes_wbuf_other s la v 0 n a fun j _ hj => ne_addrAt_of_inText ht ha j (by omega)).trans hb

theorem focus_inText (s : State) (k a : Nat) : (s.focus k).inText a = s.inText a := by
  obtain ⟨-, -, htext, -, -⟩ := focus_fixed s k
  simp only [State.inText, htext]

theorem focus_mem (s : State) (k : Nat) : (s.focus k).mem = s.mem := by
  obtain ⟨-, hmem, -, -, -⟩ := focus_fixed s k
  exact hmem

/-- A turn keeps the program text and the launch addresses. -/
theorem Turn.mem_kept {u t : State} (h : Turn u t) :
    (∀ a, u.inText a = true → t.mem.read a = u.mem.read a) ∧
      ∀ a, (t.mem.read a).isSome = (u.mem.read a).isSome := by
  cases h with
  | abort ha => exact ⟨fun _ _ => rfl, fun _ => rfl⟩
  | instr hi hpc hx => exact ⟨fun _ => (exec_effect hx).read_text, (exec_effect hx).isSome_read⟩

/-- Settles O42: by the turn of the mover. -/
theorem stepKeepsTextAndLaunchAddresses : Obligations.StepKeepsTextAndLaunchAddresses := by
  intro s t h
  obtain ⟨k, d, -, turn⟩ := step_turn h
  obtain ⟨htext, hsome⟩ := turn.mem_kept
  have hmem := focus_mem s k
  exact ⟨fun a ha => hmem ▸ htext a ((focus_inText s k a).trans ha), fun a => hmem ▸ hsome a⟩

/-- A turn keeps the program text out of the write buffers. -/
theorem Turn.textClean {u t : State} (h : Turn u t) (hu : u.textClean) : t.textClean := by
  have hlp : ∀ a, u.inText a = true → t.lp.wbuf.read a = none := by
    intro a ha
    cases h with
    | abort _ => rfl
    | instr hi hpc hx => exact (exec_effect hx).wbuf_text ha (hu u.lp (lp_mem_all u) a ha)
  have htext : ∀ a, t.inText a = u.inText a := fun a => by
    obtain ⟨-, -, -, hr, -⟩ := h.othersUnchanged
    simp only [State.inText, hr]
  intro l hl a ha
  exact h.forall_all (P := fun l => ∀ a, u.inText a = true → l.wbuf.read a = none) hlp hu l hl a
    ((htext a).symm.trans ha)

/-- Settles O44: by the turn of the mover. -/
theorem stepKeepsTextOutOfWriteBuffers : Obligations.StepKeepsTextOutOfWriteBuffers := by
  intro s t hclean h
  obtain ⟨k, d, -, turn⟩ := step_turn h
  refine turn.textClean fun l hl a ha => hclean l ?_ a ?_
  · exact focus_all s k ▸ hl
  · exact (focus_inText s k a).symm.trans ha

end Sys2Proof.Machine
end

/-! # Runs and transactions

Every step is one of the relation (70_reset_and_hazards.md R204), an admitted run is never refused (R202), the machine
stops where none can move, and nothing of a transaction survives its abort (40_xbegin.md R125). -/

section
namespace Sys2Proof.Machine

/-! ## The step relation -/

/-- A logical processor that can move has no fault recorded. -/
theorem fault_none_of_canMove {u : State} (h : u.canMove = true) : u.lp.fault = none := by
  by_contra hf
  rw [canMove_false_of_fault hf] at h
  cases h

/-- Settles O54: what the mover does is one of the two steps of R204. -/
theorem everyStepIsAStepOfTheRelation : Obligations.EveryStepIsAStepOfTheRelation := by
  intro s t h
  obtain ⟨k, d, hk, turn⟩ := step_turn h
  obtain ⟨hlt, hmove⟩ := (mem_movers s k).1 hk
  refine ⟨k, d, hlt, fault_none_of_canMove hmove, ?_⟩
  cases turn with
  | abort ha => exact .inl ⟨ha, rfl⟩
  | instr hi hpc hx =>
    refine .inr ⟨focus_endAddr s k ▸ hpc, ?_⟩
    unfold State.instrStep
    rw [hi]
    exact hx

/-! ## Refusals -/

theorem xbegin_not_refused {s : State} {lock osz16 : Bool} {len : Nat} {off : Word} {r : Refusal} :
    s.xbegin lock osz16 len off ≠ .refused r := by
  unfold State.xbegin
  split
  · simp
  · split
    · split
      · split <;> simp
      · simp
    · simp

theorem xchgRR_not_refused {s : State} {w : Width} {a b : RegNum} {rex lock : Bool} {len : Nat} {r : Refusal} :
    s.xchgRR w a b rex lock len ≠ .refused r := by
  unfold State.xchgRR
  split <;> simp

theorem xchgShort_not_refused {s : State} {w : Width} {a : RegNum} {rex lock : Bool} {len : Nat} {r : Refusal} :
    s.xchgShort w a rex lock len ≠ .refused r := by
  unfold State.xchgShort
  split
  · split <;> simp
  · exact xchgRR_not_refused

theorem exchange_refused {s : State} {w : Width} {g : RegNum} {rex : Bool} {la : Word} {len : Nat} {r : Refusal}
    (h : s.exchange w g rex la len = .refused r) : s.overlapsText la w.bytes = true := by
  unfold State.exchange at h
  split at h
  · assumption
  · split at h <;> cases h

/-- An XCHG of opcode 86 or 87 is refused only where its memory operand, allowed by Access, overlaps the program text
(20_memory.md R72). -/
theorem xchgModRM_refused {s : State} {w : Width} {rm : RM} {g : RegNum} {rex lock : Bool} {len : Nat} {r : Refusal}
    (h : s.xchgModRM w rm g rex lock len = .refused r) :
    ∃ m, rm = .mem m ∧ s.operandExceptions w m len = [] ∧
      s.overlapsText (s.lp.operandFacts w m len).linear w.bytes = true := by
  cases rm with
  | reg a => exact absurd h xchgRR_not_refused
  | mem m =>
    refine ⟨m, rfl, ?_⟩
    simp only [State.xchgModRM, State.xchgRM] at h
    split at h
    · cases h
    · next hx => exact ⟨hx, exchange_refused h⟩

/-- The only instructions that are refused are those whose memory operand overlaps the program text. -/
theorem exec_refused {i : Instr} {s : State} {r : Refusal} (h : exec i s = .refused r) :
    ∃ w m, memOperandOf i = some (w, m) ∧ s.operandExceptions w m i.len = [] ∧
      s.overlapsText (s.lp.operandFacts w m i.len).linear w.bytes = true := by
  have operand : ∀ {w rm g rex lock} {i : Instr}, s.xchgModRM w rm g rex lock i.len = .refused r →
      (∀ m, rm = .mem m → memOperandOf i = some (w, m)) → ∃ w m, memOperandOf i = some (w, m) ∧
        s.operandExceptions w m i.len = [] ∧ s.overlapsText (s.lp.operandFacts w m i.len).linear w.bytes = true := by
    intro w rm g rex lock i h hm
    obtain ⟨m, hrm, hx, ht⟩ := xchgModRM_refused h
    exact ⟨w, m, hm m hrm, hx, ht⟩
  cases i with
  | xbeginRel16 p imm => exact absurd h xbegin_not_refused
  | xbeginRel32 p imm => exact absurd h xbegin_not_refused
  | xchgAxR16 p a => exact absurd h xchgShort_not_refused
  | xchgEaxR32 p a => exact absurd h xchgShort_not_refused
  | xchgRaxR64 p a => exact absurd h xchgShort_not_refused
  | xchgRm8R8 p rm g => exact operand h (by rintro m rfl; rfl)
  | xchgRm8R8Rex p rm g => exact operand h (by rintro m rfl; rfl)
  | xchgRm16R16 p rm g => exact operand h (by rintro m rfl; rfl)
  | xchgRm32R32 p rm g => exact operand h (by rintro m rfl; rfl)
  | xchgRm64R64 p rm g => exact operand h (by rintro m rfl; rfl)

/-- A refused step is the refused InstrStep of a logical processor that can move. -/
theorem step_refused {s : State} {r : Refusal} (h : step s = .refused r) :
    ∃ k d, k ∈ s.movers ∧ fetches (s.focus k) ∧ ({ s.focus k with draws := d } : State).instrStep = .refused r := by
  cases hp : s.pickMover with
  | none =>
    unfold step State.nextMove at h
    rw [hp] at h
    cases h
  | some v =>
    obtain ⟨k, d, hk, ⟨-, hs⟩ | ⟨hpc, -, hs⟩⟩ := step_of_pick hp
    · rw [hs] at h
      cases h
    · have hf := fault_none_of_canMove ((mem_movers s k).1 hk).2
      exact ⟨k, d, hk, ⟨hf, focus_endAddr s k ▸ hpc⟩, hs ▸ h⟩

/-- Settles O55: TextAdmitted excludes a refusal of the fetch, TextImmutable one of the instruction. -/
theorem admittedRunsAreNeverRefused : Obligations.AdmittedRunsAreNeverRefused := by
  intro s t hadm himm hreach r h
  obtain ⟨k, d, hk, hf, hs⟩ := step_refused h
  obtain ⟨hlt, -⟩ := (mem_movers t k).1 hk
  obtain ⟨i, hi⟩ := hadm t k hreach hlt hf
  unfold State.instrStep at hs
  rw [fetchDecode_draws, hi] at hs
  obtain ⟨w, m, hm, hx, ht⟩ := exec_refused hs
  have hclear := himm t k i w m hreach hlt hf hi hm hx
  exact Bool.false_ne_true (hclear.symm.trans ht)

/-! ## Where the machine stops -/

theorem ended_iff (l : LP) (e : Word) : l.ended e = true ↔ l.pc = e ∧ l.rtmActive = false ∧ l.fault = none := by
  simp [LP.ended, and_assoc]

theorem final_iff (s : State) :
    s.final = true ↔ ∀ l ∈ s.all, l.pc = s.endAddr ∧ l.rtmActive = false ∧ l.fault = none := by
  simp [State.final, ended_iff]

/-- What holds in focus at every position holds of every logical processor, and the other way round. -/
theorem forall_focus_iff (s : State) (P : LP → Prop) :
    (∀ k, k < s.all.length → P (s.focus k).lp) ↔ ∀ l ∈ s.all, P l := by
  have at_position : ∀ k (hk : k < s.all.length), (s.focus k).lp = s.all[k] := fun k hk =>
    (focus_lp s k _ (List.getElem?_eq_getElem hk)).1
  constructor
  · intro h l hl
    obtain ⟨k, hk, rfl⟩ := List.getElem_of_mem hl
    exact at_position k hk ▸ h k hk
  · intro h k hk
    rw [at_position k hk]
    exact h _ (List.getElem_mem hk)

theorem movers_eq_nil_iff_blocked (s : State) :
    s.movers = [] ↔ ∀ k, k < s.all.length → blocked (s.focus k) := by
  rw [movers_eq_nil]
  exact forall₂_congr fun k _ => canMove_eq_false_iff _

/-- In focus at every position stands one that has faulted or ended. -/
def State.allStopped (s : State) : Prop := ∀ l ∈ s.all, l.fault ≠ none ∨ (l.pc = s.endAddr ∧ l.rtmActive = false)

/-- One that has neither faulted nor ended is why a stopped machine is not called `allStopped`. -/
theorem stopReason_cases (s : State) :
    (s.final = true ∧ s.stopReason = .runEnded) ∨ (¬ s.final = true ∧ ¬ s.allStopped ∧ s.stopReason = .outsideMemory) ∨
      (¬ s.final = true ∧ s.allStopped ∧ s.stopReason = .allStopped) := by
  have hany : (s.all.any fun l => l.fault.isNone && !l.ended s.endAddr) = true ↔ ¬ s.allStopped := by
    simp only [State.allStopped, List.any_eq_true, Bool.and_eq_true, Option.isNone_iff_eq_none, Bool.not_eq_true',
      ← Bool.not_eq_true, ended_iff]
    push Not
    exact exists_congr fun l => by tauto
  unfold State.stopReason
  by_cases hf : s.final = true
  · exact .inl ⟨hf, if_pos hf⟩
  · rw [if_neg hf]
    by_cases hs : s.allStopped
    · rw [if_neg (fun h => hany.1 h hs)]
      exact .inr (.inr ⟨hf, hs, rfl⟩)
    · rw [if_pos (hany.2 hs)]
      exact .inr (.inl ⟨hf, hs, rfl⟩)

/-- Where all have faulted or ended, none is stuck, and none can move. -/
theorem blocked_of_allStopped {s : State} (h : s.allStopped) : ∀ k, k < s.all.length →
    blocked (s.focus k) ∧ ¬ stuckOutside (s.focus k) := by
  intro k hk
  have hl := (forall_focus_iff s _).2 h k hk
  rw [← focus_endAddr s k] at hl
  refine ⟨hl.imp_right .inl, fun hs => ?_⟩
  obtain ⟨⟨hf, hpc⟩, -⟩ := hs
  rcases hl with hl | ⟨hl, -⟩
  · exact hl hf
  · exact hpc hl

/-- Where none can move and none is stuck, all have faulted or ended. -/
theorem allStopped_of_blocked {s : State} (h : ∀ k, k < s.all.length → blocked (s.focus k))
    (hs : ∀ k, k < s.all.length → ¬ stuckOutside (s.focus k)) : s.allStopped := by
  refine (forall_focus_iff s _).1 fun k hk => ?_
  rcases h k hk with hf | he | hstuck
  · exact .inl hf
  · exact .inr (focus_endAddr s k ▸ he)
  · exact absurd hstuck (hs k hk)

theorem allStopped_of_final {s : State} (h : s.final = true) : s.allStopped := fun l hl => by
  obtain ⟨hpc, ha, -⟩ := (final_iff s).1 h l hl
  exact .inr ⟨hpc, ha⟩

/-- The machine stops with the run's end exactly where every logical processor has ended. -/
theorem step_runEnded_iff (s : State) : step s = .fault .runEnded ↔ s.final = true := by
  rw [step_fault_iff, movers_eq_nil_iff_blocked]
  rcases stopReason_cases s with ⟨hf, hr⟩ | ⟨hf, -, hr⟩ | ⟨hf, -, hr⟩
  · exact ⟨fun _ => hf, fun _ => ⟨fun k hk => (blocked_of_allStopped (allStopped_of_final hf) k hk).1, hr.symm⟩⟩
  · simp [hr, hf]
  · simp [hr, hf]

/-- The machine stops on a stuck one exactly where none can move and one is stuck. -/
theorem step_outsideMemory_iff (s : State) : step s = .fault .outsideMemory ↔
    (∀ k, k < s.all.length → blocked (s.focus k)) ∧ ∃ k, k < s.all.length ∧ stuckOutside (s.focus k) := by
  rw [step_fault_iff, movers_eq_nil_iff_blocked]
  refine and_congr_right fun hb => ?_
  have hstuck : s.allStopped → ¬ ∃ k, k < s.all.length ∧ stuckOutside (s.focus k) := fun h ⟨k, hk, hs⟩ =>
    (blocked_of_allStopped h k hk).2 hs
  rcases stopReason_cases s with ⟨hf, hr⟩ | ⟨-, hs, hr⟩ | ⟨-, hs, hr⟩
  · simp [hr, hstuck (allStopped_of_final hf)]
  · refine ⟨fun _ => ?_, fun _ => hr.symm⟩
    by_contra hno
    exact hs (allStopped_of_blocked hb fun k hk h => hno ⟨k, hk, h⟩)
  · simp [hr, hstuck hs]

/-- The machine stops otherwise exactly where each has faulted or ended, and one has faulted. -/
theorem step_allStopped_iff (s : State) :
    step s = .fault .allStopped ↔ s.allStopped ∧ ∃ l ∈ s.all, l.fault ≠ none := by
  have hfinal : s.allStopped → (s.final = true ↔ ¬ ∃ l ∈ s.all, l.fault ≠ none) := by
    intro h
    rw [final_iff]
    push Not
    refine forall₂_congr fun l hl => ⟨fun ⟨_, _, hf⟩ => hf, fun hf => ?_⟩
    obtain ⟨hpc, ha⟩ := (h l hl).resolve_left (fun hn => hn hf)
    exact ⟨hpc, ha, hf⟩
  rw [step_fault_iff, movers_eq_nil_iff_blocked]
  rcases stopReason_cases s with ⟨hf, hr⟩ | ⟨-, hs, hr⟩ | ⟨hf, hs, hr⟩
  · have hnone := (hfinal (allStopped_of_final hf)).1 hf
    simp [hr, hnone]
  · simp [hr, hs]
  · have hsome : ∃ l ∈ s.all, l.fault ≠ none := by
      by_contra hno
      exact hf ((hfinal hs).2 hno)
    exact ⟨fun _ => ⟨hs, hsome⟩, fun _ => ⟨fun k hk => (blocked_of_allStopped hs k hk).1, hr.symm⟩⟩

/-- Settles O38: the machine faults exactly where it has no mover, for the reason `State.stopReason` gives. -/
theorem machineStopsExactlyWhenNoneCanMove : Obligations.MachineStopsExactlyWhenNoneCanMove := by
  intro s
  refine ⟨?_, (step_runEnded_iff s).trans (final_iff s), step_outsideMemory_iff s, step_allStopped_iff s, ?_⟩
  · simp [step_fault_iff, movers_eq_nil_iff_blocked]
  · intro r h
    obtain ⟨k, d, hk, hf, hs⟩ := step_refused h
    obtain ⟨hlt, hmove⟩ := (mem_movers s k).1 hk
    refine ⟨k, d, hlt, hf, fun hb => ?_, hs⟩
    rw [(canMove_eq_false_iff _).2 hb] at hmove
    cases hmove

end Sys2Proof.Machine
end

/-! # Transactions and machines of one logical processor

What a step inside a transaction keeps for its abort (10_state.md R38, 40_xbegin.md R125), and what the step of a single
logical processor is (70_reset_and_hazards.md R204). -/

section
namespace Sys2Proof.Machine

/-! ## Inside a transaction -/

/-- Settles O34: an instruction's effect inside a transaction spares the shared memory. -/
theorem transactionsWriteNoSharedMemory : Obligations.TransactionsWriteNoSharedMemory :=
  fun _ _ _ ha h => (exec_effect h).mem_of_rtmActive ha

/-- `m` is `l` still inside its transaction, or after the abort procedure. -/
def keepsOrAborts (l m : LP) : Prop :=
  (m.rtmActive = true ∧ m.checkpoint = l.checkpoint ∧ m.fallback = l.fallback) ∨ ∃ d, m = l.abort d

/-- An instruction inside a transaction keeps the checkpoint and the fallback address, or aborts. -/
theorem Effect.keepsOrAborts {s t : State} {len : Nat} (h : Effect s len t) (hwf : s.lp.wf s.hw)
    (ha : s.lp.rtmActive = true) : keepsOrAborts s.lp t.lp := by
  obtain ⟨hact, -⟩ := hwf
  cases h with
  | raised e d => exact .inl ⟨ha, rfl, rfl⟩
  | entered fb h0 => exact absurd (hact.1 ha) (by omega)
  | nested => exact .inl ⟨ha, rfl, rfl⟩
  | aborted => exact .inr ⟨s.draws, rfl⟩
  | registers x => exact .inl ⟨ha, rfl, rfl⟩
  | exchanged la v n x =>
    obtain ⟨wb, h⟩ := exchanged_lp s la v n len x
    rw [h]
    exact .inl ⟨ha, rfl, rfl⟩

theorem Turn.keepsOrAborts {u t : State} (h : Turn u t) (hwf : u.lp.wf u.hw) (ha : u.lp.rtmActive = true) :
    keepsOrAborts u.lp t.lp := by
  cases h with
  | abort _ => exact .inr ⟨u.draws, rfl⟩
  | instr hi hpc hx => exact (exec_effect hx).keepsOrAborts hwf ha

/-- One that has left its transaction is where its abort put it. -/
theorem aborted_of_keepsOrAborts {l m : LP} (h : keepsOrAborts l m) (hm : m.rtmActive = false) :
    (∀ r : RegNum, r ≠ 0 → m.x[r] = l.checkpoint.x[r]) ∧ m.flags = l.checkpoint.flags ∧
      m.otherRegs = l.checkpoint.otherRegs ∧ m.pc = l.fallback ∧ m.wbuf = [] ∧ m.nestCount = 0 := by
  rcases h with ⟨hact, -⟩ | ⟨d, rfl⟩
  · rw [hm] at hact
    cases hact
  · exact ⟨getElem_abort_other l d, rfl, rfl, rfl, rfl, rfl⟩

/-- One that has not left its transaction keeps what its abort will use. -/
theorem kept_of_keepsOrAborts {l m : LP} (h : keepsOrAborts l m) (hm : m.rtmActive = true) :
    m.checkpoint = l.checkpoint ∧ m.fallback = l.fallback := by
  rcases h with ⟨-, hkept⟩ | ⟨d, rfl⟩
  · exact hkept
  · cases hm

/-- Settles O56: the mover keeps or aborts, and every other logical processor is as it was. -/
theorem transactionsKeepWhatTheirAbortUses : Obligations.TransactionsKeepWhatTheirAbortUses := by
  intro s t k l m hwf h hl hm ha
  obtain ⟨j, d, -, turn, hmover, hother⟩ := step_turn_at h
  by_cases hk : k = j
  · subst hk
    cases hmover.symm.trans hm
    obtain ⟨rfl, -⟩ := focus_lp s k l hl
    obtain ⟨-, -, hall⟩ := focus_wf hwf k d
    have hka := turn.keepsOrAborts (hall _ (lp_mem_all _)) ha
    exact ⟨kept_of_keepsOrAborts hka, aborted_of_keepsOrAborts hka,
      fun _ => (turn.mem_of_rtmActive ha).trans (focus_mem s k)⟩
  · cases (hother k hk).symm.trans hm |>.symm.trans hl
    have stays : ¬ l.rtmActive = false := by simp [ha]
    exact ⟨fun _ => ⟨rfl, rfl⟩, fun hout => absurd hout stays, fun hne => absurd rfl hne⟩

/-! ## A machine of one logical processor -/

/-- The machine has the one logical processor that moves. -/
def State.single (s : State) : Prop := s.before = [] ∧ s.after = []

theorem length_all_of_single {s : State} (h : s.single) : s.all.length = 1 := by
  obtain ⟨hb, ha⟩ := h
  simp [State.all, hb, ha]

/-- Position 0 is the only one of such a machine. -/
theorem focus_of_single {s : State} (h : s.single) {k : Nat} (hk : k < s.all.length) : s.focus k = s := by
  rw [length_all_of_single h, Nat.lt_one_iff] at hk
  rw [hk, focus_zero s h.1]

/-- A step of such a machine is the turn of its logical processor. -/
theorem step_turn_single {s t : State} (hs : s.single) (h : step s = .next t) :
    ∃ d, Turn { s with draws := d } t := by
  obtain ⟨k, d, hk, turn⟩ := step_turn h
  rw [focus_of_single hs ((mem_movers s k).1 hk).1] at turn
  exact ⟨d, turn⟩

/-- Where the logical processor can move, the machine's move is its move. -/
theorem nextMove_single {s : State} (hs : s.single) (hc : s.canMove = true) : s.nextMove = s.moveOf := by
  obtain ⟨hb, ha⟩ := hs
  rw [State.nextMove, pickMover_single s hb ha hc]

/-- Outside a transaction and away from EndAddr the step is the InstrStep, also where that is stuck. -/
theorem step_single_eq_instrStep {s : State} (hs : s.single) (hf : fetches s) (ha : s.lp.rtmActive = false) :
    step s = s.instrStep := by
  by_cases hstuck : s.instrStuck = true
  · have hst : stuckOutside s := ⟨hf, ha, (instrStuck_iff s).1 hstuck⟩
    rw [(instrStuck_iff s).1 hstuck, step_outsideMemory_iff]
    refine ⟨fun k hk => ?_, 0, by rw [length_all_of_single hs]; exact Nat.one_pos, ?_⟩
    · rw [focus_of_single hs hk]
      exact .inr (.inr hst)
    · rw [focus_zero s hs.1]
      exact hst
  · obtain ⟨hfault, hpc⟩ := hf
    have hmove : s.moveOf = .instrStep s := by rw [State.moveOf, ha]; rfl
    rw [step, nextMove_single hs (by simp [State.canMove, hfault, hpc, hstuck]), hmove]

theorem canMove_of_rtmActive {s : State} (hf : s.lp.fault = none) (ha : s.lp.rtmActive = true) :
    s.canMove = true := by
  simp [State.canMove, hf, ha]

/-- What is fetched and decoded is what the bytes at pc decode to. -/
theorem fetchDecode_eq_ok_iff {s : State} {i : Instr} :
    s.fetchDecode = .ok i ↔ ∃ rest, decode s.lp.ctx s.window = .ok (i, rest) := by
  unfold State.fetchDecode
  split
  · next j rest h => simp [h]
  · next h => simp [h]
  · next why _ h => simp [h]

theorem instrStep_eq_exec {s : State} {i : Instr} (h : s.fetchDecode = .ok i) : s.instrStep = exec i s := by
  unfold State.instrStep
  rw [h]

/-- Settles O37: the move inside a transaction, read off `State.moveOf` and `step_turn`. -/
theorem stepsInsideATransaction : Obligations.StepsInsideATransaction := by
  intro s hb ha hf hact
  have hc := canMove_of_rtmActive hf hact
  refine ⟨fun hstop => ⟨s.rtmAbort, ?_, rtmAbort_abortedFrom s⟩, fun t h => ?_, fun f h => ?_⟩
  · have hmove : s.moveOf = .abortStep s := by
      rw [← instrStuck_iff] at hstop
      rw [State.moveOf, if_pos hact, if_pos hstop]
    rw [step, nextMove_single ⟨hb, ha⟩ hc, hmove]
  · obtain ⟨d, turn⟩ := step_turn_single ⟨hb, ha⟩ h
    cases turn with
    | abort _ => exact .inl (rtmAbort_abortedFrom { s with draws := d })
    | instr hi _ hx =>
      rw [fetchDecode_draws, fetchDecode_eq_ok_iff] at hi
      obtain ⟨rest, hi⟩ := hi
      exact .inr ⟨_, rest, d, hi, hx⟩
  · obtain ⟨hnone, -⟩ := (step_fault_iff s f).1 h
    rw [← pickMover_none, pickMover_single s hb ha hc] at hnone
    cases hnone

/-! ## A whole transaction -/

/-- `u` is a state inside the transaction that the one logical processor of `s0` has entered with the fallback address
`fb`. -/
structure InsideFrom (s0 : State) (fb : Word) (u : State) : Prop where
  wf : u.wf
  single : u.single
  active : u.lp.rtmActive = true
  checkpoint : u.lp.checkpoint = s0.lp.recordRegs
  fallback : u.lp.fallback = fb
  mem : u.mem = s0.mem

/-- The step of a state inside: the shared memory is as before, and the logical processor keeps or aborts. -/
theorem InsideFrom.step {s0 u v : State} {fb : Word} (h : InsideFrom s0 fb u) (hs : step u = .next v) :
    v.mem = s0.mem ∧ v.single ∧ keepsOrAborts u.lp v.lp := by
  obtain ⟨d, turn⟩ := step_turn_single h.single hs
  obtain ⟨-, -, hall⟩ := h.wf
  obtain ⟨-, hb, ha, -, -⟩ := turn.othersUnchanged
  exact ⟨(turn.mem_of_rtmActive h.active).trans h.mem, ⟨hb.trans h.single.1, ha.trans h.single.2⟩,
    turn.keepsOrAborts (hall _ (lp_mem_all u)) h.active⟩

/-- A run that stays inside the transaction stays where its abort is known. -/
theorem InsideFrom.run {s0 : State} {fb : Word} (n : Nat) : ∀ {u t : State}, InsideFrom s0 fb u →
    (∀ m v, m ≤ n → Sys2Proof.core.run m u = .next v → v.lp.rtmActive = true) →
    Sys2Proof.core.run n u = .next t → InsideFrom s0 fb t := by
  induction n with
  | zero =>
    intro u t h _ hrun
    cases hrun
    exact h
  | succ n ih =>
    intro u t h hin hrun
    rw [run_succ] at hrun
    cases hs : Sys2Proof.Machine.step u with
    | fault f => rw [hs] at hrun; cases hrun
    | refused r => rw [hs] at hrun; cases hrun
    | next v =>
      rw [hs] at hrun
      have hlater : ∀ m w, m ≤ n → Sys2Proof.core.run m v = .next w → w.lp.rtmActive = true := by
        intro m w hm hw
        refine hin (m + 1) w (by omega) ?_
        rw [run_succ, hs]
        exact hw
      have hv := hlater 0 v (Nat.zero_le n) rfl
      obtain ⟨hmem, hsingle, hka⟩ := h.step hs
      obtain ⟨hcp, hfb⟩ := kept_of_keepsOrAborts hka hv
      exact ih ⟨stepKeepsTheInvariant u v h.wf hs, hsingle, hv, hcp.trans h.checkpoint, hfb.trans h.fallback, hmem⟩
        hlater hrun

/-- The state in which an instruction outside a transaction has entered one. -/
theorem insideFrom_of_exec {i : Instr} {s0 s1 : State} (hwf : s0.wf) (hs : s0.single) (h0 : s0.lp.nestCount = 0)
    (h : exec i s0 = .next s1) (ha : s1.lp.rtmActive = true) : InsideFrom s0 s1.lp.fallback s1 := by
  obtain ⟨hhw, hmem, hall⟩ := hwf
  have hlp := hall s0.lp (lp_mem_all s0)
  obtain ⟨hact, -, hbuf, -⟩ := hall s0.lp (lp_mem_all s0)
  have he := exec_effect h
  obtain ⟨hsame, hb, haft, -, -⟩ := he.othersUnchanged
  have hsingle : s1.single := ⟨hb.trans hs.1, haft.trans hs.2⟩
  have hwf1 : s1.wf := by
    refine ⟨hsame ▸ hhw, he.mem_wf hmem hbuf, fun l hl => ?_⟩
    have hl1 : l = s1.lp := by simpa [State.all, hsingle.1, hsingle.2] using hl
    rw [hl1, hsame]
    exact he.lp_wf hhw hmem hlp
  have outside : s0.lp.rtmActive ≠ true := fun hc => absurd (hact.1 hc) (by omega)
  have entered : s1.lp.checkpoint = s0.lp.recordRegs ∧ s1.mem = s0.mem := by
    cases he with
    | raised e d => exact absurd ha outside
    | entered fb => exact ⟨rfl, rfl⟩
    | nested hn => exact absurd h0 hn
    | aborted => cases ha
    | registers x => exact absurd ha outside
    | exchanged la v n x =>
      obtain ⟨wb, hx⟩ := exchanged_lp s0 la v n i.len x
      rw [hx] at ha
      exact absurd ha outside
  exact ⟨hwf1, hsingle, ha, entered.1, rfl, entered.2⟩

/-- Settles O46: the run stays inside up to the last step, which is then the abort procedure. -/
theorem abortedTransactionsLeaveNoTrace : Obligations.AbortedTransactionsLeaveNoTrace := by
  intro s0 s1 t t' i n hwf hb haft _ h0 h ha hin hrun hstep hout
  have hinside := (insideFrom_of_exec hwf ⟨hb, haft⟩ h0 h ha).run n hin hrun
  obtain ⟨hmem, -, hka⟩ := hinside.step hstep
  obtain ⟨hx, hflags, hother, hpc, hwbuf, hnest⟩ := aborted_of_keepsOrAborts hka hout
  rw [hinside.checkpoint] at hx hflags hother
  exact ⟨hx, hflags, hother, hmem, hpc.trans hinside.fallback, hwbuf, hnest⟩

/-! ## The launch state -/

/-- Settles O45: the one logical processor of the launch state is outside a transaction with empty memories. -/
theorem resetMeetsTheLaunchPremises : Obligations.ResetMeetsTheLaunchPremises := by
  have hall : ∀ l ∈ State.reset.all, l = LP.reset := fun l hl => List.mem_singleton.1 hl
  refine ⟨by decide, ⟨by decide, reset_mem_wf, fun l hl => ?_⟩, fun l hl a _ => ?_, rfl, rfl, rfl, rfl⟩
  · rw [hall l hl]
    exact ⟨by decide, by decide, List.Pairwise.nil, fun _ => rfl, fun _ => by decide, fun h => by cases h⟩
  · rw [hall l hl]
    rfl

end Sys2Proof.Machine
end

/-! # The decoder reads what the encoder writes

One lemma per addressing form, then the `r/m` operand, the opcode, and the instruction (30_encoding.md R80 to R100). -/

section
namespace Sys2Proof

/-! ## After the bytes before the opcode -/

/-- The decoder comes to the opcode with the prefixes and the REX bits the encoder wrote. -/
theorem decode_legacyBytes_rexBytes {c : CodeCtx} {p : Pfx} (hp : p.wf c = true) (l : Legacy) (x : Rex) (op : Byte)
    (bs : List Byte) (hop : notLegacy op) (hrex : op.toNat / 16 ≠ 4) :
    decode c (legacyBytes l ++ rexBytes p.rex x ++ op :: bs) =
      readOpcode c l (if p.rex then some x else none) (op :: bs) := by
  have hmode : p.rex = true → c.mode = .long64 := by
    intro h
    simpa [Pfx.wf, h] using hp
  have hlegacy : readLegacy Legacy.empty (legacyBytes l ++ (rexBytes p.rex x ++ op :: bs)) =
      .ok (l, rexBytes p.rex x ++ op :: bs) := by
    cases p.rex with
    | false => exact readLegacy_legacyBytes l op bs hop
    | true => exact readLegacy_legacyBytes l (rexByte x) (op :: bs) (notLegacy_rexByte x)
  rw [decode, List.append_assoc, hlegacy]
  simp only [readRex_rexBytes c.mode p.rex x op bs hmode hrex]

/-- The REX bits as they count for an operand that is reached without a REX byte where there is none. -/
theorem getD_rex (present : Bool) (x : Rex) :
    (if present then some x else none).getD Rex.zero = if present then x else Rex.zero := by
  cases present <;> rfl

/-- The fourth bit of a number that is reached without REX is 0. -/
theorem highBit_of_reach {rex : Bool} {r : RegNum} (h : RegNum.reach rex r = true) :
    (if rex then highBit r else false) = highBit r := by
  cases rex with
  | true => rfl
  | false => exact (highBit_of_lt r (by simpa [RegNum.reach] using h)).symm

theorem indexHigh_of_indexOk {rex : Bool} {i : Option RegNum} (h : indexOk rex i = true) :
    (if rex then indexHigh i else false) = indexHigh i := by
  cases i with
  | none => cases rex <;> rfl
  | some r =>
    simp only [indexOk, Bool.and_eq_true] at h
    exact highBit_of_reach h.2

/-! ## Addressing forms -/

theorem lowBits_ne_of_mod {r : RegNum} {f : Fin 8} (h : r.val % 8 ≠ f.val) : lowBits r ≠ f := fun e =>
  h (congrArg Fin.val e)

theorem Disp.mod_ne_zero {w : Nat} {d : Disp w} (h : d ≠ .none) : d.mod ≠ 0 := by
  cases d with
  | none => exact absurd rfl h
  | d8 v => simp [Disp.mod]
  | full v => simp [Disp.mod]

theorem Disp.mod_ne_three {w : Nat} (d : Disp w) : d.mod ≠ 3 := by cases d <;> simp [Disp.mod]

/-- A base sum, read back (R94). -/
theorem readAddr16_ind16 {b : Base16} {d : Disp 16} (h : b ≠ .bp ∨ d ≠ .none) (rest : List Byte) :
    readAddr16 d.mod b.field (d.bytes bytes16 ++ rest) = .ok (.ind16 b d, rest) := by
  have hform : ¬ (d.mod = 0 ∧ b.field = 6) := by
    rintro ⟨hmod, hfield⟩
    rcases h with h | h
    · exact h (by rw [← base16Of_field b, hfield]; rfl)
    · exact Disp.mod_ne_zero h hmod
  rw [readAddr16, if_neg hform, readDisp_bytes read16 bytes16 read16_bytes16, base16Of_field]

/-- A displacement without a base, read back (R94). -/
theorem readAddr16_abs16 (v : BitVec 16) (rest : List Byte) :
    readAddr16 0 6 (bytes16 v ++ rest) = .ok (.abs16 v, rest) := by
  rw [readAddr16, if_pos ⟨rfl, rfl⟩, read16_bytes16]

/-- A base register, read back (R95, R96). -/
theorem readAddrWide_ind {m : Mode} {x : Rex} {b : RegNum} {d : Disp 32} (hx : x.b = highBit b)
    (h : indBaseOk b d = true) (rest : List Byte) :
    readAddrWide m x d.mod (lowBits b) (d.bytes bytes32 ++ rest) = .ok (.ind b d, rest) := by
  simp only [indBaseOk, Bool.and_eq_true, Bool.or_eq_true, decide_eq_true_eq] at h
  obtain ⟨h4, h5⟩ := h
  have hform : ¬ (d.mod = 0 ∧ lowBits b = 5) := by
    rintro ⟨hmod, hlow⟩
    rcases h5 with h5 | h5
    · exact lowBits_ne_of_mod (f := 5) h5 hlow
    · exact Disp.mod_ne_zero h5 hmod
  rw [readAddrWide, if_neg (lowBits_ne_of_mod (f := 4) h4), if_neg hform,
    readDisp_bytes read32 bytes32 read32_bytes32, hx, extend_lowBits]

/-- A displacement without a base: absolute, in 64-bit mode relative to the next instruction (R95, R96). -/
theorem readAddrWide_disp (m : Mode) (x : Rex) (v : BitVec 32) (rest : List Byte) :
    readAddrWide m x 0 5 (bytes32 v ++ rest) = .ok (if m = .long64 then .ripRel v else .abs32 v, rest) := by
  rw [readAddrWide, if_neg (by decide), if_pos ⟨rfl, rfl⟩, read32_bytes32]

/-- A SIB byte with a base, read back (R95, R96). -/
theorem readAddrWide_sib {m : Mode} {x : Rex} {b : RegNum} {i : Option RegNum} {rex : Bool} {d : Disp 32}
    (sc : Fin 4) (hb : x.b = highBit b) (hx : x.x = indexHigh i) (hi : indexOk rex i = true)
    (h : sibBaseOk b d = true) (rest : List Byte) :
    readAddrWide m x d.mod 4 (fieldByte sc (indexField i) (lowBits b) :: d.bytes bytes32 ++ rest) =
      .ok (.sib b i sc d, rest) := by
  simp only [sibBaseOk, Bool.or_eq_true, decide_eq_true_eq] at h
  have hform : ¬ (d.mod = 0 ∧ lowBits b = 5) := by
    rintro ⟨hmod, hlow⟩
    rcases h with h | h
    · exact lowBits_ne_of_mod (f := 5) h hlow
    · exact Disp.mod_ne_zero h hmod
  rw [readAddrWide, if_pos rfl, List.cons_append, readSib, lowField_fieldByte, if_neg hform,
    readDisp_bytes read32 bytes32 read32_bytes32, hb, hx, extend_lowBits, midField_fieldByte, topField_fieldByte,
    indexOf_indexField rex i hi]

/-- A SIB byte without a base, read back (R95, R96). -/
theorem readAddrWide_sibAbs {m : Mode} {x : Rex} {i : Option RegNum} {rex : Bool} (sc : Fin 4)
    (hx : x.x = indexHigh i) (hi : indexOk rex i = true) (v : BitVec 32) (rest : List Byte) :
    readAddrWide m x 0 4 (fieldByte sc (indexField i) 5 :: bytes32 v ++ rest) = .ok (.sibAbs i sc v, rest) := by
  rw [readAddrWide, if_pos rfl, List.cons_append, readSib, lowField_fieldByte, if_pos ⟨rfl, rfl⟩, read32_bytes32, hx,
    midField_fieldByte, topField_fieldByte, indexOf_indexField rex i hi]

/-! ## The `r/m` operand -/

/-- A memory operand, once its addressing form is read back. -/
theorem readModRM_mem {c : CodeCtx} {p : Pfx} {m : Mem} {g : RegNum} {x : Rex} {mod : Fin 4} {low : Fin 8}
    {bs rest : List Byte} (hmod : mod ≠ 3) (hr : x.r = highBit g)
    (h : (if addressSize c m.addr67 = .a16 then readAddr16 mod low bs else readAddrWide c.mode x mod low bs) =
      .ok (m.addr, rest)) :
    readModRM c (RM.legacy p (.mem m)) x (fieldByte mod (lowBits g) low :: bs) = .ok (.mem m, g, rest) := by
  simp only [readModRM, topField_fieldByte, midField_fieldByte, lowField_fieldByte, if_neg hmod, RM.legacy, h, hr,
    extend_lowBits]

/-- The R bit the encoder writes is the register operand's. -/
theorem RM.rex_r (w : Bool) (g : RegNum) (rm : RM) : (rm.rex w g).r = highBit g := by
  cases rm with
  | reg r => rfl
  | mem m =>
    obtain ⟨a, sg, addr⟩ := m
    cases addr <;> rfl

/-- The `r/m` operand and the register number the encoder writes are read back (R92). -/
theorem readModRM_encode {c : CodeCtx} {p : Pfx} {rm : RM} {g : RegNum} (w : Bool) (hrm : rm.wf c p.rex = true)
    (hg : RegNum.reach p.rex g = true) (rest : List Byte) :
    readModRM c (rm.legacy p) (if p.rex then rm.rex w g else Rex.zero)
      (fieldByte rm.fields.1 (lowBits g) rm.fields.2 :: (rm.tail ++ rest)) = .ok (rm, g, rest) := by
  have hr : (if p.rex then rm.rex w g else Rex.zero).r = highBit g := by
    rw [apply_ite Rex.r, RM.rex_r]
    exact highBit_of_reach hg
  cases rm with
  | reg r =>
    have hb : (if p.rex then RM.rex w g (.reg r) else Rex.zero).b = highBit r := by
      rw [apply_ite Rex.b]
      exact highBit_of_reach hrm
    simp [readModRM, RM.legacy, RM.fields, RM.tail, hr, hb]
  | mem m =>
    obtain ⟨a67, sg, addr⟩ := m
    simp only [RM.wf] at hrm
    cases addr with
    | ind16 b d =>
      simp only [Addr.wf, Bool.and_eq_true, Bool.or_eq_true, decide_eq_true_eq] at hrm
      obtain ⟨hasz, hform⟩ := hrm
      exact readModRM_mem d.mod_ne_three hr (by rw [if_pos hasz]; exact readAddr16_ind16 hform rest)
    | abs16 v =>
      simp only [Addr.wf, decide_eq_true_eq] at hrm
      exact readModRM_mem (mod := 0) (by decide) hr (by rw [if_pos hrm]; exact readAddr16_abs16 v rest)
    | ind b d =>
      simp only [Addr.wf, Bool.and_eq_true, decide_eq_true_eq] at hrm
      obtain ⟨⟨hasz, hreach⟩, hform⟩ := hrm
      refine readModRM_mem d.mod_ne_three hr ?_
      rw [if_neg hasz]
      refine readAddrWide_ind ?_ hform rest
      rw [apply_ite Rex.b]
      exact highBit_of_reach hreach
    | abs32 v =>
      simp only [Addr.wf, Bool.and_eq_true, decide_eq_true_eq] at hrm
      obtain ⟨hasz, hmode⟩ := hrm
      refine readModRM_mem (mod := 0) (by decide) hr ?_
      rw [if_neg hasz]
      exact (readAddrWide_disp ..).trans (by rw [if_neg hmode])
    | ripRel v =>
      simp only [Addr.wf, Bool.and_eq_true, decide_eq_true_eq] at hrm
      obtain ⟨hasz, hmode⟩ := hrm
      refine readModRM_mem (mod := 0) (by decide) hr ?_
      rw [if_neg hasz]
      exact (readAddrWide_disp ..).trans (by rw [if_pos hmode])
    | sib b i sc d =>
      simp only [Addr.wf, Bool.and_eq_true, decide_eq_true_eq] at hrm
      obtain ⟨⟨⟨hasz, hreach⟩, hi⟩, hform⟩ := hrm
      refine readModRM_mem d.mod_ne_three hr ?_
      rw [if_neg hasz]
      refine readAddrWide_sib sc ?_ ?_ hi hform rest
      · rw [apply_ite Rex.b]
        exact highBit_of_reach hreach
      · rw [apply_ite Rex.x]
        exact indexHigh_of_indexOk hi
    | sibAbs i sc v =>
      simp only [Addr.wf, Bool.and_eq_true, decide_eq_true_eq] at hrm
      obtain ⟨hasz, hi⟩ := hrm
      refine readModRM_mem (mod := 0) (by decide) hr ?_
      rw [if_neg hasz]
      refine readAddrWide_sibAbs sc ?_ hi v rest
      rw [apply_ite Rex.x]
      exact indexHigh_of_indexOk hi

/-! ## The three formats -/

/-- REX.W as it counts: set by a REX byte alone. -/
theorem ite_rex_w (present : Bool) (x : Rex) :
    (if present then x else Rex.zero).w = (present && x.w) := by
  cases present <;> rfl

/-- The prefixes the opcode map sees are the instruction's. -/
theorem pfx_eq (p : Pfx) (x : Rex) :
    ({ opsz := p.opsz, lock := p.lock, rex := (if p.rex then some x else none).isSome } : Pfx) = p := by
  obtain ⟨o, k, r⟩ := p
  cases r <;> rfl

/-- The legacy prefixes of an instruction without a memory operand. -/
def Pfx.legacy (p : Pfx) : Legacy := { opsz := p.opsz, addr67 := false, lock := p.lock, seg := none }

/-- An XBEGIN the encoder writes is read by `readXbegin` (R87). -/
theorem decode_encodeXbegin {c : CodeCtx} {p : Pfx} (hp : p.wf c = true) (w : Bool) (imm rest : List Byte) :
    decode c (encodeXbegin p w imm ++ rest) =
      readXbegin (operandSize c p.opsz (p.rex && w)) p.legacy p (0xF8#8 :: (imm ++ rest)) := by
  have h := decode_legacyBytes_rexBytes hp p.legacy { w := w, r := false, x := false, b := false } 0xC7#8
    (0xF8#8 :: (imm ++ rest)) (by unfold notLegacy; decide) (by decide)
  simp only [readOpcode, if_pos, Pfx.legacy, pfx_eq, getD_rex, ite_rex_w] at h
  simpa [encodeXbegin, Pfx.legacy] using h

/-- The opcode byte of format O is none of the bytes before an opcode, and names its register (R90). -/
theorem shortByte_facts (f : Fin 8) (op : Byte) (h : op = BitVec.ofNat 8 (0x90 + f.val)) :
    notLegacy op ∧ op.toNat / 16 ≠ 4 ∧ op ≠ 0xC7#8 ∧ op.toNat / 8 = 18 ∧ lowField op = f := by
  subst h
  unfold notLegacy
  revert f
  decide

/-- A short form the encoder writes is read by `readShort` (R90). -/
theorem decode_encodeShort {c : CodeCtx} {p : Pfx} {r : RegNum} (hp : p.wf c = true)
    (hr : RegNum.reach p.rex r = true) (w : Bool) (rest : List Byte) :
    decode c (encodeShort p w r ++ rest) = readShort (operandSize c p.opsz (p.rex && w)) p.legacy p r rest := by
  obtain ⟨hop, h4, hC7, h18, hlow⟩ := shortByte_facts (lowBits r) _ rfl
  have h := decode_legacyBytes_rexBytes hp p.legacy { w := w, r := false, x := false, b := highBit r } _ rest hop h4
  have hb : (if p.rex then ({ w := w, r := false, x := false, b := highBit r } : Rex) else Rex.zero).b = highBit r := by
    rw [apply_ite Rex.b]
    exact highBit_of_reach hr
  rw [readOpcode] at h
  simp only [if_neg hC7, if_pos h18, hlow, Pfx.legacy, pfx_eq, getD_rex, ite_rex_w, hb, extend_lowBits] at h
  simpa [encodeShort, Pfx.legacy] using h

/-- Opcode 86 with its operands read. -/
theorem readOpcode_86 {c : CodeCtx} {l : Legacy} {rex : Option Rex} {bs rest : List Byte} {rm : RM} {g : RegNum}
    (h66 : l.opsz = false) (h : readModRM c l (rex.getD Rex.zero) bs = .ok (rm, g, rest)) :
    readOpcode c l rex (0x86#8 :: bs) =
      .ok (formOf86 { opsz := l.opsz, lock := l.lock, rex := rex.isSome } rm g, rest) := by
  simp [readOpcode, h66, h]

/-- Opcode 87 with its operands read. -/
theorem readOpcode_87 {c : CodeCtx} {l : Legacy} {rex : Option Rex} {bs rest : List Byte} {rm : RM} {g : RegNum}
    (h : readModRM c l (rex.getD Rex.zero) bs = .ok (rm, g, rest)) :
    readOpcode c l rex (0x87#8 :: bs) =
      .ok (formOf87 (operandSize c l.opsz (rex.getD Rex.zero).w)
        { opsz := l.opsz, lock := l.lock, rex := rex.isSome } rm g, rest) := by
  simp [readOpcode, h]

theorem RM.legacy_opsz (p : Pfx) (rm : RM) : (rm.legacy p).opsz = p.opsz := by cases rm <;> rfl

theorem RM.legacy_lock (p : Pfx) (rm : RM) : (rm.legacy p).lock = p.lock := by cases rm <;> rfl

theorem RM.rex_w (w : Bool) (g : RegNum) (rm : RM) : (rm.rex w g).w = w := by
  cases rm with
  | reg r => rfl
  | mem m =>
    obtain ⟨a, sg, addr⟩ := m
    cases addr <;> rfl

section
variable {c : CodeCtx} {p : Pfx} {rm : RM} {g : RegNum} (hp : p.wf c = true) (hrm : rm.wf c p.rex = true)
  (hg : RegNum.reach p.rex g = true)
include hp hrm hg

/-- An instruction of opcode 86 that the encoder writes is read with its operands (R91, R92). -/
theorem decode_encodeModRM_86 (h66 : p.opsz = false) (w : Bool) (rest : List Byte) :
    decode c (encodeModRM p w 0x86#8 rm g ++ rest) = .ok (formOf86 p rm g, rest) := by
  have hread := readModRM_encode w hrm hg rest
  rw [← getD_rex] at hread
  have h := decode_legacyBytes_rexBytes hp (rm.legacy p) (rm.rex w g) 0x86#8
    (fieldByte rm.fields.1 (lowBits g) rm.fields.2 :: (rm.tail ++ rest)) (by unfold notLegacy; decide) (by decide)
  rw [readOpcode_86 ((rm.legacy_opsz p).trans h66) hread, rm.legacy_opsz, rm.legacy_lock, pfx_eq] at h
  simpa [encodeModRM] using h

/-- An instruction of opcode 87 that the encoder writes is read with its operands (R91, R92). -/
theorem decode_encodeModRM_87 (w : Bool) (rest : List Byte) :
    decode c (encodeModRM p w 0x87#8 rm g ++ rest) =
      .ok (formOf87 (operandSize c p.opsz (p.rex && w)) p rm g, rest) := by
  have hread := readModRM_encode w hrm hg rest
  rw [← getD_rex] at hread
  have h := decode_legacyBytes_rexBytes hp (rm.legacy p) (rm.rex w g) 0x87#8
    (fieldByte rm.fields.1 (lowBits g) rm.fields.2 :: (rm.tail ++ rest)) (by unfold notLegacy; decide) (by decide)
  rw [readOpcode_87 hread, rm.legacy_opsz, rm.legacy_lock, pfx_eq, getD_rex, ite_rex_w, rm.rex_w] at h
  simpa [encodeModRM] using h

end

/-! ## The instruction -/

/-- Without prefixes 67 and segment override a short form is the one of its operand size. -/
theorem readShort_legacy (osz : OpSize) (p q : Pfx) (r : RegNum) (bs : List Byte) :
    readShort osz p.legacy q r bs = match osz with
      | .o16 => .ok (.xchgAxR16 q r, bs)
      | .o32 => .ok (.xchgEaxR32 q r, bs)
      | .o64 => .ok (.xchgRaxR64 q r, bs) := by
  cases osz <;> rfl

/-- REX.W in 64-bit mode gives operand size 64 (R85). -/
theorem operandSize_rexW {c : CodeCtx} {p : Pfx} (hp : p.wf c = true) (hrex : p.rex = true) (o : Bool) :
    operandSize c o true = .o64 := by
  have hm : c.mode = .long64 := by simpa [Pfx.wf, hrex] using hp
  simp [operandSize, hm]

/-- Settles O1: each row's format is read back, and the operand size that the encoding gives selects the row. -/
theorem encodeThenDecodeGivesInstruction : Obligations.EncodeThenDecodeGivesInstruction := by
  intro c i rest hwf
  cases i with
  | xbeginRel16 p imm =>
    simp only [Instr.wf, Bool.and_eq_true, decide_eq_true_eq] at hwf
    obtain ⟨hp, hosz⟩ := hwf
    rw [encode, decode_encodeXbegin hp, Bool.and_false, hosz]
    simp [readXbegin, Pfx.legacy]
  | xbeginRel32 p imm =>
    simp only [Instr.wf, Bool.and_eq_true, decide_eq_true_eq] at hwf
    obtain ⟨hp, hosz⟩ := hwf
    rw [encode, decode_encodeXbegin hp]
    simp [readXbegin, Pfx.legacy, hosz]
  | xchgAxR16 p r =>
    simp only [Instr.wf, Bool.and_eq_true, decide_eq_true_eq] at hwf
    obtain ⟨⟨hp, hr⟩, hosz⟩ := hwf
    rw [encode, decode_encodeShort hp hr, Bool.and_false, hosz, readShort_legacy]
  | xchgEaxR32 p r =>
    simp only [Instr.wf, Bool.and_eq_true, decide_eq_true_eq] at hwf
    obtain ⟨⟨hp, hr⟩, hosz⟩ := hwf
    rw [encode, decode_encodeShort hp hr, Bool.and_false, hosz, readShort_legacy]
  | xchgRaxR64 p r =>
    simp only [Instr.wf, Bool.and_eq_true] at hwf
    obtain ⟨hp, hrex⟩ := hwf
    have hr : RegNum.reach p.rex r = true := by simp [RegNum.reach, hrex]
    rw [encode, decode_encodeShort hp hr, Bool.and_true, hrex, operandSize_rexW hp hrex, readShort_legacy]
  | xchgRm8R8 p rm g =>
    simp only [Instr.wf, Bool.and_eq_true, Bool.not_eq_true'] at hwf
    obtain ⟨⟨⟨hrex, h66⟩, hrm⟩, hg⟩ := hwf
    have hp : p.wf c = true := by simp [Pfx.wf, hrex]
    rw [← hrex] at hrm hg
    rw [encode, decode_encodeModRM_86 hp hrm hg h66, formOf86, hrex]
    rfl
  | xchgRm8R8Rex p rm g =>
    simp only [Instr.wf, Bool.and_eq_true, Bool.not_eq_true'] at hwf
    obtain ⟨⟨⟨hp, hrex⟩, h66⟩, hrm⟩ := hwf
    have hg : RegNum.reach p.rex g = true := by simp [RegNum.reach, hrex]
    have hrm' : rm.wf c p.rex = true := by rw [hrex]; exact hrm
    rw [encode, decode_encodeModRM_86 hp hrm' hg h66, formOf86, hrex]
    rfl
  | xchgRm16R16 p rm g =>
    simp only [Instr.wf, Bool.and_eq_true, decide_eq_true_eq] at hwf
    obtain ⟨⟨⟨hp, hrm⟩, hg⟩, hosz⟩ := hwf
    rw [encode, decode_encodeModRM_87 hp hrm hg, Bool.and_false, hosz, formOf87]
  | xchgRm32R32 p rm g =>
    simp only [Instr.wf, Bool.and_eq_true, decide_eq_true_eq] at hwf
    obtain ⟨⟨⟨hp, hrm⟩, hg⟩, hosz⟩ := hwf
    rw [encode, decode_encodeModRM_87 hp hrm hg, Bool.and_false, hosz, formOf87]
  | xchgRm64R64 p rm g =>
    simp only [Instr.wf, Bool.and_eq_true] at hwf
    obtain ⟨⟨hp, hrex⟩, hrm⟩ := hwf
    have hg : RegNum.reach p.rex g = true := by simp [RegNum.reach, hrex]
    have hrm' : rm.wf c p.rex = true := by rw [hrex]; exact hrm
    rw [encode, decode_encodeModRM_87 hp hrm' hg, hrex, Bool.and_true, operandSize_rexW hp hrex, formOf87]

end Sys2Proof
end

/-! # What the decoder answers

Every reader takes a number of bytes from the front and gives a well-formed part of an instruction of that length
(30_encoding.md R81 to R99): said once for each reader, and from it of the decoder. -/

section
namespace Sys2Proof

/-! ## Bytes taken from the front -/

/-- `rest` is `bs` without its first `n` bytes. -/
def Took (n : Nat) (bs rest : List Byte) : Prop := ∃ taken, bs = taken ++ rest ∧ taken.length = n

theorem Took.zero (bs : List Byte) : Took 0 bs bs := ⟨[], rfl, rfl⟩

theorem Took.cons {n : Nat} {bs rest : List Byte} (b : Byte) (h : Took n bs rest) : Took (1 + n) (b :: bs) rest := by
  obtain ⟨taken, rfl, rfl⟩ := h
  exact ⟨b :: taken, rfl, by rw [List.length_cons, Nat.add_comm]⟩

theorem Took.trans {m n : Nat} {bs mid rest : List Byte} (h : Took m bs mid) (h' : Took n mid rest) :
    Took (m + n) bs rest := by
  obtain ⟨taken, rfl, rfl⟩ := h
  obtain ⟨taken', rfl, rfl⟩ := h'
  exact ⟨taken ++ taken', (List.append_assoc ..).symm, List.length_append⟩

/-! ## Immediates and displacements -/

theorem read8_ok {bs rest : List Byte} {v : Byte} (h : read8 bs = .ok (v, rest)) : Took 1 bs rest := by
  match bs with
  | [] => cases h
  | b :: bs => cases h; exact ⟨[_], rfl, rfl⟩

theorem read16_ok {bs rest : List Byte} {v : BitVec 16} (h : read16 bs = .ok (v, rest)) : Took 2 bs rest := by
  match bs with
  | [] => cases h
  | [b] => cases h
  | b0 :: b1 :: bs => cases h; exact ⟨[b0, b1], rfl, rfl⟩

theorem read32_ok {bs rest : List Byte} {v : BitVec 32} (h : read32 bs = .ok (v, rest)) : Took 4 bs rest := by
  match bs with
  | [] => cases h
  | [b] => cases h
  | [b0, b1] => cases h
  | [b0, b1, b2] => cases h
  | b0 :: b1 :: b2 :: b3 :: bs => cases h; exact ⟨[b0, b1, b2, b3], rfl, rfl⟩

/-- A displacement takes its bytes, and is absent only where `mod` is 0. -/
theorem readDisp_ok {w n : Nat} {full : List Byte → Except Reject (BitVec w × List Byte)}
    (hfull : ∀ {bs rest v}, full bs = .ok (v, rest) → Took n bs rest) {mod : Fin 4} {bs rest : List Byte} {d : Disp w}
    (h : readDisp full mod bs = .ok (d, rest)) : Took (d.len n) bs rest ∧ (d = .none → mod = 0) := by
  have wide : (match full bs with
      | .ok (v, rest) => .ok (.full v, rest)
      | .error e => .error e) = (.ok (d, rest) : Except Reject (Disp w × List Byte)) →
      Took (d.len n) bs rest ∧ (d = .none → mod = 0) := by
    intro h
    split at h
    · next v r hv => cases h; exact ⟨hfull hv, fun hd => by cases hd⟩
    · cases h
  match mod with
  | 0 => cases h; exact ⟨Took.zero _, fun _ => rfl⟩
  | 1 =>
    simp only [readDisp] at h
    split at h
    · next v r hv => cases h; exact ⟨read8_ok hv, fun hd => by cases hd⟩
    · cases h
  | 2 => exact wide h
  | 3 => exact wide h

/-! ## Addressing forms -/

/-- A register number made of a field and a REX bit is reached, with REX or with the bit 0. -/
theorem reach_extend {rex b : Bool} (h : rex = false → b = false) (f : Fin 8) :
    RegNum.reach rex (extend b f) = true := by
  cases rex with
  | true => rfl
  | false =>
    rw [h rfl]
    revert f
    decide

theorem val_extend_mod (b : Bool) (f : Fin 8) : (extend b f).val % 8 = f.val := by
  revert b f
  decide

theorem indexOk_indexOf {rex b : Bool} (h : rex = false → b = false) (f : Fin 8) :
    indexOk rex (indexOf b f) = true := by
  unfold indexOf
  split
  · rfl
  · next hne =>
    have hval : (extend b f).val ≠ 4 := fun e => hne (Fin.ext e)
    simp [indexOk, hval, reach_extend h f]

/-- The REX bits are 0 where there is no REX byte. -/
def Rex.absent (x : Rex) (rex : Bool) : Prop := rex = false → x = Rex.zero

section
variable {q : Rex} {rex : Bool} (h : q.absent rex) (hrex : rex = false)
include h hrex

theorem Rex.absent.w : q.w = false := congrArg Rex.w (h hrex)
theorem Rex.absent.r : q.r = false := congrArg Rex.r (h hrex)
theorem Rex.absent.x : q.x = false := congrArg Rex.x (h hrex)
theorem Rex.absent.b : q.b = false := congrArg Rex.b (h hrex)

end

theorem base16Of_eq_bp (rm : Fin 8) (h : base16Of rm = .bp) : rm = 6 := by
  revert rm
  decide

/-- 16-bit addressing reads a form of it (R94). -/
theorem readAddr16_ok {c : CodeCtx} {rex : Bool} {mod : Fin 4} {rm : Fin 8} {bs rest : List Byte} {a : Addr}
    (h : readAddr16 mod rm bs = .ok (a, rest)) : Took a.len bs rest ∧ a.wf c .a16 rex = true := by
  unfold readAddr16 at h
  split at h
  · split at h
    · next v r hv => cases h; exact ⟨read16_ok hv, rfl⟩
    · cases h
  · next hform =>
    split at h
    · next d r hd =>
      cases h
      obtain ⟨htook, hnone⟩ := readDisp_ok read16_ok hd
      refine ⟨htook, ?_⟩
      have hbase : base16Of rm ≠ .bp ∨ d ≠ .none := by
        by_contra hc
        push Not at hc
        exact hform ⟨hnone hc.2, base16Of_eq_bp rm hc.1⟩
      simpa [Addr.wf] using hbase
    · cases h

/-- A SIB byte and its displacement are a form of wide addressing (R95, R96). -/
theorem readSib_ok {c : CodeCtx} {asz : AddrSize} {rex : Bool} {x : Rex} (hasz : asz ≠ .a16) (hx : x.absent rex)
    {mod : Fin 4} {bs rest : List Byte} {a : Addr} (h : readSib x mod bs = .ok (a, rest)) :
    Took a.len bs rest ∧ a.wf c asz rex = true := by
  cases bs with
  | nil => cases h
  | cons s bs =>
    have hi := indexOk_indexOf hx.x (midField s)
    simp only [readSib] at h
    split at h
    · split at h
      · next v r hv => cases h; exact ⟨(read32_ok hv).cons s, by simp [Addr.wf, hasz, hi]⟩
      · cases h
    · next hform =>
      split at h
      · next d r hd =>
        cases h
        obtain ⟨htook, hnone⟩ := readDisp_ok read32_ok hd
        refine ⟨htook.cons s, ?_⟩
        have hbase : sibBaseOk (extend x.b (lowField s)) d = true := by
          simp only [sibBaseOk, val_extend_mod, Bool.or_eq_true, decide_eq_true_eq]
          by_contra hc
          push Not at hc
          exact hform ⟨hnone hc.2, Fin.ext hc.1⟩
        simp [Addr.wf, hasz, hi, hbase, reach_extend hx.b]
      · cases h

/-- 32-bit and 64-bit addressing read a form of it (R95, R96). -/
theorem readAddrWide_ok {c : CodeCtx} {asz : AddrSize} {rex : Bool} {x : Rex} (hasz : asz ≠ .a16)
    (hx : x.absent rex) {mod : Fin 4} {rm : Fin 8} {bs rest : List Byte} {a : Addr}
    (h : readAddrWide c.mode x mod rm bs = .ok (a, rest)) : Took a.len bs rest ∧ a.wf c asz rex = true := by
  unfold readAddrWide at h
  split at h
  · exact readSib_ok hasz hx h
  · next h4 =>
    split at h
    · split at h
      · next v r hv =>
        cases h
        by_cases hm : c.mode = .long64
        · rw [if_pos hm]
          exact ⟨read32_ok hv, by simp [Addr.wf, hasz, hm]⟩
        · rw [if_neg hm]
          exact ⟨read32_ok hv, by simp [Addr.wf, hasz, hm]⟩
      · cases h
    · next hform =>
      split at h
      · next d r hd =>
        cases h
        obtain ⟨htook, hnone⟩ := readDisp_ok read32_ok hd
        refine ⟨htook, ?_⟩
        have hbase : indBaseOk (extend x.b rm) d = true := by
          simp only [indBaseOk, val_extend_mod, Bool.and_eq_true, Bool.or_eq_true, decide_eq_true_eq]
          refine ⟨fun e => h4 (Fin.ext e), ?_⟩
          by_contra hc
          push Not at hc
          exact hform ⟨hnone hc.2, Fin.ext hc.1⟩
        simp [Addr.wf, hasz, hbase, reach_extend hx.b]
      · cases h

/-! ## Operands and opcodes -/

/-- The bytes of the legacy prefixes 67 and segment override, which belong to the `r/m` operand. -/
def Legacy.memLen (l : Legacy) : Nat := l.addr67.toNat + l.seg.isSome.toNat

/-- Neither 67 nor a segment override is among the legacy prefixes. -/
theorem Legacy.memLen_eq_zero {l : Legacy} (h : ¬ (l.addr67 || l.seg.isSome) = true) : l.memLen = 0 := by
  simp only [Bool.or_eq_true, not_or, Bool.not_eq_true] at h
  rw [Legacy.memLen, h.1, h.2]
  rfl

/-- The ModRM byte and what follows it, with the prefixes of its operand, are as long as the operand says (R92). -/
theorem readModRM_ok {c : CodeCtx} {l : Legacy} {rex : Bool} {x : Rex} (hx : x.absent rex) {bs rest : List Byte}
    {rm : RM} {g : RegNum} (h : readModRM c l x bs = .ok (rm, g, rest)) :
    (∃ n, Took n bs rest ∧ l.memLen + n = 1 + rm.len) ∧ rm.wf c rex = true ∧ RegNum.reach rex g = true := by
  cases bs with
  | nil => cases h
  | cons m bs =>
    simp only [readModRM] at h
    split at h
    · split at h
      · cases h
      · next hl =>
        cases h
        exact ⟨⟨1, (Took.zero _).cons m, by rw [Legacy.memLen_eq_zero hl]; rfl⟩, reach_extend hx.b _,
          reach_extend hx.r _⟩
    · split at h
      · next a r ha =>
        cases h
        have hform : Took a.len bs rest ∧ a.wf c (addressSize c l.addr67) rex = true := by
          by_cases hasz : addressSize c l.addr67 = .a16
          · rw [if_pos hasz] at ha
            rw [hasz]
            exact readAddr16_ok ha
          · rw [if_neg hasz] at ha
            exact readAddrWide_ok hasz hx ha
        exact ⟨⟨1 + a.len, hform.1.cons m, by simp only [Legacy.memLen, RM.len]; omega⟩, hform.2, reach_extend hx.r _⟩
      · cases h

/-- What a reader of an instruction after its prefixes answers: an instruction of the code segment, whose bytes are the
prefixes and those taken. -/
def Reads (c : CodeCtx) (l : Legacy) (rex : Bool) (bs : List Byte) (i : Instr) (rest : List Byte) : Prop :=
  i.wf c = true ∧ ∃ n, Took n bs rest ∧ l.opsz.toNat + l.lock.toNat + l.memLen + rex.toNat + n = i.len

/-! ## Operand sizes that select a row -/

theorem operandSize_o16 {c : CodeCtx} {o w : Bool} (h : operandSize c o w = .o16) : operandSize c o false = .o16 := by
  obtain ⟨m, d⟩ := c
  revert h
  cases m <;> revert d o w <;> decide

theorem operandSize_o32 {c : CodeCtx} {o w : Bool} (h : operandSize c o w = .o32) : operandSize c o false = .o32 := by
  obtain ⟨m, d⟩ := c
  revert h
  cases m <;> revert d o w <;> decide

/-- Operand size 64 needs REX.W (R85). -/
theorem operandSize_o64 {c : CodeCtx} {o w : Bool} (h : operandSize c o w = .o64) : w = true := by
  obtain ⟨m, d⟩ := c
  revert h
  cases m <;> revert d o w <;> decide

/-- So it needs a REX byte. -/
theorem Rex.absent.present_of_o64 {c : CodeCtx} {x : Rex} {rex o : Bool} (hx : x.absent rex)
    (h : operandSize c o x.w = .o64) : rex = true := by
  by_contra hc
  have hw := hx.w (by simpa using hc)
  rw [operandSize_o64 h] at hw
  cases hw

/-- An operand size above 16 is kept where REX.W is set as the encoder sets it (R88). -/
theorem operandSize_wide {c : CodeCtx} {o w rex : Bool} (hw : rex = false → w = false)
    (h : operandSize c o w ≠ .o16) : operandSize c o (rex && o) ≠ .o16 := by
  obtain ⟨m, d⟩ := c
  revert hw h
  cases m <;> revert d o w rex <;> decide

/-! ## The instruction -/

section
variable {c : CodeCtx} {l : Legacy} {p : Pfx} {x : Rex} {bs rest : List Byte} {i : Instr}
  (hp : p.wf c = true) (hx : x.absent p.rex) (hopsz : p.opsz = l.opsz) (hlock : p.lock = l.lock)
include hp hx hopsz hlock

omit hp hx in
/-- The bytes of an instruction with neither 67 nor a segment override: its own prefixes and REX, and those taken. -/
theorem reads_of_took {n : Nat} (hmem : l.memLen = 0) (hwf : i.wf c = true) (took : Took n bs rest)
    (hlen : i.len = p.len + n) : Reads c l p.rex bs i rest :=
  ⟨hwf, n, took, by rw [hlen, Pfx.len, hmem, hopsz, hlock]; omega⟩

/-- XBEGIN after its first byte (R87, R88). -/
theorem readXbegin_ok (h : readXbegin (operandSize c l.opsz x.w) l p bs = .ok (i, rest)) :
    Reads c l p.rex (0xC7#8 :: bs) i rest := by
  cases bs with
  | nil => cases h
  | cons b bs =>
    simp only [readXbegin] at h
    split at h
    · cases h
    · split at h
      · cases h
      · next hl =>
        have hmem := Legacy.memLen_eq_zero hl
        split at h
        · next hosz =>
          split at h
          · next v r hv =>
            cases h
            refine reads_of_took hopsz hlock hmem ?_ (((read16_ok hv).cons b).cons _) rfl
            simp [Instr.wf, hp, hopsz, operandSize_o16 hosz]
          · cases h
        · next hosz =>
          split at h
          · next v r hv =>
            cases h
            refine reads_of_took hopsz hlock hmem ?_ (((read32_ok hv).cons b).cons _) rfl
            have hwide := operandSize_wide hx.w hosz
            simpa [Instr.wf, hp, hopsz] using hwide
          · cases h

/-- A short form (R90). -/
theorem readShort_ok {op : Byte} (h : readShort (operandSize c l.opsz x.w) l p (extend x.b (lowField op)) bs =
    .ok (i, rest)) : Reads c l p.rex (op :: bs) i rest := by
  have hr := reach_extend hx.b (lowField op)
  unfold readShort at h
  split at h
  · cases h
  · next hl =>
    have hmem := Legacy.memLen_eq_zero hl
    have took : Took 1 (op :: bs) bs := (Took.zero bs).cons op
    split at h
    · next hosz =>
      cases h
      refine reads_of_took hopsz hlock hmem ?_ took rfl
      simp [Instr.wf, hp, hopsz, hr, operandSize_o16 hosz]
    · next hosz =>
      cases h
      refine reads_of_took hopsz hlock hmem ?_ took rfl
      simp [Instr.wf, hp, hopsz, hr, operandSize_o32 hosz]
    · next hosz =>
      cases h
      refine reads_of_took hopsz hlock hmem ?_ took rfl
      have hrex := hx.present_of_o64 hosz
      simp [Instr.wf, hp, hrex]

omit hp in
/-- The length of a form with an `r/m` operand, its opcode byte included (R81). -/
theorem took_modRM {rm : RM} {g : RegNum} {op : Byte} (h : readModRM c l x bs = .ok (rm, g, rest)) :
    (∃ n, Took n (op :: bs) rest ∧
      l.opsz.toNat + l.lock.toNat + l.memLen + p.rex.toNat + n = p.len + 2 + rm.len) ∧
      rm.wf c p.rex = true ∧ RegNum.reach p.rex g = true := by
  obtain ⟨⟨n, took, hlen⟩, hrm, hg⟩ := readModRM_ok hx h
  exact ⟨⟨1 + n, took.cons op, by simp only [Pfx.len, hopsz, hlock]; omega⟩, hrm, hg⟩

/-- The forms of opcode 86 (R93). -/
theorem formOf86_reads {rm : RM} {g : RegNum} {op : Byte} (h66 : l.opsz = false)
    (h : readModRM c l x bs = .ok (rm, g, rest)) : Reads c l p.rex (op :: bs) (formOf86 p rm g) rest := by
  obtain ⟨hlen, hrm, hg⟩ := took_modRM hx hopsz hlock (op := op) h
  unfold formOf86
  cases hrex : p.rex with
  | true =>
    rw [hrex] at hlen hrm
    exact ⟨by simp [Instr.wf, hp, hrex, hrm, hopsz, h66], hlen⟩
  | false =>
    rw [hrex] at hlen hrm hg
    exact ⟨by simp [Instr.wf, hrex, hrm, hg, hopsz, h66], hlen⟩

/-- The forms of opcode 87 (R93). -/
theorem formOf87_reads {rm : RM} {g : RegNum} {op : Byte} (h : readModRM c l x bs = .ok (rm, g, rest)) :
    Reads c l p.rex (op :: bs) (formOf87 (operandSize c l.opsz x.w) p rm g) rest := by
  obtain ⟨hlen, hrm, hg⟩ := took_modRM hx hopsz hlock (op := op) h
  unfold formOf87
  split
  · next hosz => exact ⟨by simp [Instr.wf, hp, hrm, hg, hopsz, operandSize_o16 hosz], hlen⟩
  · next hosz => exact ⟨by simp [Instr.wf, hp, hrm, hg, hopsz, operandSize_o32 hosz], hlen⟩
  · next hosz =>
    have hrex := hx.present_of_o64 hosz
    rw [hrex] at hrm
    exact ⟨by simp [Instr.wf, hp, hrex, hrm], hlen⟩

end

/-- The opcode map reads an instruction of the code segment (R99, R100). -/
theorem readOpcode_ok {c : CodeCtx} {l : Legacy} {rex : Option Rex} (hm : rex.isSome = true → c.mode = .long64)
    {bs rest : List Byte} {i : Instr} (h : readOpcode c l rex bs = .ok (i, rest)) :
    Reads c l rex.isSome bs i rest := by
  have hp : Pfx.wf c { opsz := l.opsz, lock := l.lock, rex := rex.isSome } = true := by
    cases hrex : rex.isSome with
    | false => rfl
    | true => simp [Pfx.wf, hm hrex]
  have hx : (rex.getD Rex.zero).absent rex.isSome := by
    cases rex with
    | none => exact fun _ => rfl
    | some x => exact fun hc => by cases hc
  cases bs with
  | nil => cases h
  | cons op bs =>
    simp only [readOpcode] at h
    split at h
    · next hop => subst hop; exact readXbegin_ok hp hx rfl rfl h
    · split at h
      · exact readShort_ok hp hx rfl rfl h
      · split at h
        · split at h
          · cases h
          · next h66 =>
            split at h
            · next rm g r hr => cases h; exact formOf86_reads hp hx rfl rfl (by simpa using h66) hr
            · cases h
        · split at h
          · split at h
            · next rm g r hr => cases h; exact formOf87_reads hp hx rfl rfl hr
            · cases h
          · split at h <;> cases h

/-- The number of legacy prefixes read. -/
def Legacy.count (l : Legacy) : Nat := l.opsz.toNat + l.lock.toNat + l.memLen

/-- The legacy prefixes read are one byte each (R82). -/
theorem readLegacy_ok {bs : List Byte} : ∀ {acc l : Legacy} {rest : List Byte}, readLegacy acc bs = .ok (l, rest) →
    ∃ n, Took n bs rest ∧ acc.count + n = l.count := by
  induction bs with
  | nil => intro acc l rest h; cases h
  | cons b bs ih =>
    intro acc l rest h
    have more : ∀ acc' : Legacy, acc'.count = acc.count + 1 → readLegacy acc' bs = .ok (l, rest) →
        ∃ n, Took n (b :: bs) rest ∧ acc.count + n = l.count := by
      intro acc' hc h
      obtain ⟨n, took, hn⟩ := ih h
      exact ⟨1 + n, took.cons b, by omega⟩
    rw [readLegacy] at h
    split at h
    · split at h
      · cases h
      · next ha => exact more _ (by simp [Legacy.count, Legacy.memLen, ha]; omega) h
    · split at h
      · split at h
        · cases h
        · next ha => exact more _ (by simp [Legacy.count, Legacy.memLen, ha]; omega) h
      · split at h
        · split at h
          · cases h
          · next ha => exact more _ (by simp [Legacy.count, Legacy.memLen, ha]; omega) h
        · split at h
          · split at h
            · cases h
            · next ha => exact more _ (by simp [Legacy.count, Legacy.memLen, ha]; omega) h
          · cases h
            exact ⟨0, Took.zero _, rfl⟩

/-- A REX byte is one byte, in 64-bit mode (R84). -/
theorem readRex_took (m : Mode) (bs : List Byte) :
    Took (readRex m bs).1.isSome.toNat bs (readRex m bs).2 ∧ ((readRex m bs).1.isSome = true → m = .long64) := by
  cases bs with
  | nil => exact ⟨Took.zero _, fun h => by cases h⟩
  | cons b bs =>
    rw [readRex]
    split
    · next h => exact ⟨(Took.zero bs).cons b, fun _ => h.1⟩
    · exact ⟨Took.zero _, fun h => by cases h⟩

/-- The decoder answers an instruction of the code segment, and takes as many bytes as its length says. -/
theorem decode_ok {c : CodeCtx} {bytes rest : List Byte} {i : Instr} (h : decode c bytes = .ok (i, rest)) :
    i.wf c = true ∧ Took i.len bytes rest := by
  unfold decode at h
  split at h
  · cases h
  · next l bs hl =>
    obtain ⟨n, tookLegacy, hn⟩ := readLegacy_ok hl
    obtain ⟨tookRex, hm⟩ := readRex_took c.mode bs
    obtain ⟨hwf, k, took, hk⟩ := readOpcode_ok hm h
    refine ⟨hwf, ?_⟩
    have hlen : n + ((readRex c.mode bs).1.isSome.toNat + k) = i.len := by
      rw [← hk, ← Legacy.count, ← hn]
      simp [Legacy.count, Legacy.memLen, Legacy.empty]
      omega
    exact hlen ▸ tookLegacy.trans (tookRex.trans took)

/-- An instruction is at most 12 bytes long (R81). -/
theorem Instr.len_le (i : Instr) : i.len ≤ 12 := by
  cases i with
  | xbeginRel16 p imm => exact (Laws.LenBound.xbeginRel16 p imm).2
  | xbeginRel32 p imm => exact (Laws.LenBound.xbeginRel32 p imm).2
  | xchgAxR16 p r => exact (Laws.LenBound.xchgAxR16 p r).2
  | xchgEaxR32 p r => exact (Laws.LenBound.xchgEaxR32 p r).2
  | xchgRaxR64 p r => exact (Laws.LenBound.xchgRaxR64 p r).2
  | xchgRm8R8 p rm g => exact (Laws.LenBound.xchgRm8R8 p rm g).2
  | xchgRm8R8Rex p rm g => exact (Laws.LenBound.xchgRm8R8Rex p rm g).2
  | xchgRm16R16 p rm g => exact (Laws.LenBound.xchgRm16R16 p rm g).2
  | xchgRm32R32 p rm g => exact (Laws.LenBound.xchgRm32R32 p rm g).2
  | xchgRm64R64 p rm g => exact (Laws.LenBound.xchgRm64R64 p rm g).2

/-- Settles O2: every reader gives a well-formed part. -/
theorem decodedInstructionsAreWellFormed : Obligations.DecodedInstructionsAreWellFormed :=
  fun _ _ _ _ h => (decode_ok h).1

/-- Settles O3: every reader takes as many bytes as its part is long. -/
theorem decodeTakesTheInstructionsLength : Obligations.DecodeTakesTheInstructionsLength :=
  fun _ _ i _ h => ⟨i.len_le, (decode_ok h).2⟩

end Sys2Proof
end

/-! # Bytes that are refused, and words written out

What the decoder answers after legacy prefixes and a REX byte (30_encoding.md R82 to R84, R103), and the encoding
tables' own words. -/

section
namespace Sys2Proof

open Sys2Proof.Machine

/-! ## Legacy prefixes as they are admitted -/

theorem segOfByte_isSome (b : Byte) : (segOfByte b).isSome = true ↔ b ∈ segBytes := by
  revert b
  decide

theorem segOfByte_eq_none (b : Byte) : segOfByte b = none ↔ b ∉ segBytes := by
  rw [← segOfByte_isSome, Bool.not_eq_true, Option.isSome_eq_false_iff, Option.isNone_iff_eq_none]

theorem notLegacy_iff (b : Byte) : notLegacy b ↔ b ∉ [0x66#8, 0x67#8, 0xF0#8] ∧ b ∉ segBytes := by
  simp [notLegacy, segOfByte_eq_none, and_assoc]

/-- A REX byte is not one of the legacy prefixes. -/
theorem notLegacy_of_rex {b : Byte} (h : b.toNat / 16 = 4) : notLegacy b := by
  unfold notLegacy
  revert b
  decide

/-- An opcode byte of format O is not one of the legacy prefixes, and no REX byte. -/
theorem notLegacy_of_short {b : Byte} (h : b.toNat / 8 = 18) : notLegacy b ∧ b.toNat / 16 ≠ 4 := by
  unfold notLegacy
  revert b
  decide

/-- `l` is what `readLegacy` holds after the bytes `pre`, and says which prefixes are among them. -/
structure AfterLegacy (pre : List Byte) (l : Legacy) : Prop where
  reads : ∀ bs, readLegacy Legacy.empty (pre ++ bs) = readLegacy l bs
  opsz : l.opsz = true ↔ 0x66#8 ∈ pre
  addr67 : l.addr67 = true ↔ 0x67#8 ∈ pre
  lock : l.lock = true ↔ 0xF0#8 ∈ pre
  seg : l.seg.isSome = true ↔ ∃ g ∈ pre, g ∈ segBytes

/-- A byte that stands at the end of `pre ++ [b]` at most once does not stand in `pre`. -/
theorem not_mem_of_count_append {pre : List Byte} {b : Byte} (h : (pre ++ [b]).count b ≤ 1) : b ∉ pre := by
  rw [List.count_append, List.count_singleton_self] at h
  exact List.count_eq_zero.1 (by omega)

theorem eq_segByte_of_mem {b : Byte} (h : b ∈ segBytes) : ∃ g, b = segByte g := by
  simp only [segBytes, List.mem_cons, List.not_mem_nil, or_false] at h
  rcases h with rfl | rfl | rfl | rfl | rfl | rfl
  · exact ⟨.es, rfl⟩
  · exact ⟨.cs, rfl⟩
  · exact ⟨.ss, rfl⟩
  · exact ⟨.ds, rfl⟩
  · exact ⟨.fs, rfl⟩
  · exact ⟨.gs, rfl⟩

theorem segByte_facts (g : SegReg) :
    segByte g ≠ 0x66#8 ∧ segByte g ≠ 0x67#8 ∧ segByte g ≠ 0xF0#8 ∧ segByte g ∈ segBytes := by
  cases g <;> decide

/-- Whether a segment override stands among the bytes, the last one taken apart. -/
theorem exists_seg_append (pre : List Byte) (b : Byte) :
    (∃ g ∈ pre ++ [b], g ∈ segBytes) ↔ (∃ g ∈ pre, g ∈ segBytes) ∨ b ∈ segBytes := by
  simp [or_and_right, exists_or]

/-- Admitted prefixes without the last one are admitted (R82). -/
theorem legacyOnce_of_append {pre : List Byte} {b : Byte} (h : legacyOnce (pre ++ [b])) : legacyOnce pre := by
  obtain ⟨hall, h66, h67, hF0, hseg⟩ := h
  have sub : pre.Sublist (pre ++ [b]) := List.sublist_append_left pre [b]
  exact ⟨fun c hc => hall c (List.mem_append_left _ hc), (sub.count_le _).trans h66, (sub.count_le _).trans h67,
    (sub.count_le _).trans hF0, sub.countP_le.trans hseg⟩

/-- A segment override that stands at the end as the only one has none before it. -/
theorem not_exists_seg_of_countP {pre : List Byte} {b : Byte} (hb : b ∈ segBytes)
    (h : (pre ++ [b]).countP (fun b => decide (b ∈ segBytes)) ≤ 1) : ¬ ∃ g ∈ pre, g ∈ segBytes := by
  rintro ⟨g, hg, hgs⟩
  have hpos : 0 < pre.countP (fun b => decide (b ∈ segBytes)) := List.countP_pos_iff.2 ⟨g, hg, by simpa using hgs⟩
  rw [List.countP_append, List.countP_singleton, if_pos (by simpa using hb)] at h
  omega

/-- Prefixes that are admitted are read to their end (R82). -/
theorem exists_afterLegacy {pre : List Byte} (h : legacyOnce pre) : ∃ l, AfterLegacy pre l := by
  induction pre using List.reverseRecOn with
  | nil =>
    exact ⟨Legacy.empty, fun _ => rfl, by simp [Legacy.empty], by simp [Legacy.empty], by simp [Legacy.empty],
      by simp [Legacy.empty]⟩
  | append_singleton pre b ih =>
    obtain ⟨l, hl⟩ := ih (legacyOnce_of_append h)
    obtain ⟨hall, h66, h67, hF0, hseg⟩ := h
    have reads : ∀ bs, readLegacy Legacy.empty (pre ++ [b] ++ bs) = readLegacy l (b :: bs) := by
      intro bs
      rw [List.append_assoc]
      exact hl.reads _
    have absent : ∀ {flag : Bool} {q : Prop}, (flag = true ↔ q) → ¬ q → flag = false := by
      intro flag q hiff hq
      exact Bool.eq_false_iff.2 fun hf => hq (hiff.1 hf)
    by_cases hb : b ∈ segBytes
    · obtain ⟨g, rfl⟩ := eq_segByte_of_mem hb
      obtain ⟨n66, n67, nF0, -⟩ := segByte_facts g
      have hnone : l.seg = none := by
        simpa using absent hl.seg (not_exists_seg_of_countP hb hseg)
      refine ⟨{ l with seg := some g }, fun bs => (reads bs).trans (readLegacy_seg l g bs hnone), ?_, ?_, ?_, ?_⟩
      · simp [hl.opsz, n66.symm]
      · simp [hl.addr67, n67.symm]
      · simp [hl.lock, nF0.symm]
      · simp [hb]
    · have seg_iff := (exists_seg_append pre b).trans (or_iff_left hb)
      have hb' : b ∈ [0x66#8, 0x67#8, 0xF0#8] :=
        (hall b (List.mem_append_right _ (List.mem_singleton.2 rfl))).resolve_right hb
      simp only [List.mem_cons, List.not_mem_nil, or_false] at hb'
      rcases hb' with rfl | rfl | rfl
      · have hoff := absent hl.opsz (not_mem_of_count_append h66)
        refine ⟨{ l with opsz := true }, fun bs => (reads bs).trans (readLegacy_66 l bs hoff), ?_, ?_, ?_,
          hl.seg.trans seg_iff.symm⟩
        · simp
        · simp [hl.addr67]
        · simp [hl.lock]
      · have hoff := absent hl.addr67 (not_mem_of_count_append h67)
        refine ⟨{ l with addr67 := true }, fun bs => (reads bs).trans (readLegacy_67 l bs hoff), ?_, ?_, ?_,
          hl.seg.trans seg_iff.symm⟩
        · simp [hl.opsz]
        · simp
        · simp [hl.lock]
      · have hoff := absent hl.lock (not_mem_of_count_append hF0)
        refine ⟨{ l with lock := true }, fun bs => (reads bs).trans (readLegacy_F0 l bs hoff), ?_, ?_, ?_,
          hl.seg.trans seg_iff.symm⟩
        · simp [hl.opsz]
        · simp [hl.addr67]
        · simp

/-! ## Legacy prefixes that stand again -/

/-- 66, 67 or F0 is refused where it is among the legacy prefixes read (R82). -/
theorem readLegacy_repeated {pre : List Byte} {l : Legacy} (hl : AfterLegacy pre l) {b : Byte}
    (hb : b ∈ [0x66#8, 0x67#8, 0xF0#8]) (hmem : b ∈ pre) (bs : List Byte) :
    readLegacy l (b :: bs) = .error .repeatedPfx := by
  simp only [List.mem_cons, List.not_mem_nil, or_false] at hb
  rcases hb with rfl | rfl | rfl
  · simp [readLegacy, hl.opsz.2 hmem]
  · simp [readLegacy, hl.addr67.2 hmem]
  · simp [readLegacy, hl.lock.2 hmem]

/-- A second segment override is refused (R82). -/
theorem readLegacy_twoSegments {l : Legacy} (hl : l.seg.isSome = true) (g : SegReg) (bs : List Byte) :
    readLegacy l (segByte g :: bs) = .error .twoSegments := by
  obtain ⟨n66, n67, nF0, -⟩ := segByte_facts g
  simp [readLegacy, n66, n67, nF0, hl]

/-! ## After the prefixes and the REX byte -/

/-- After admitted prefixes and a REX byte where there is one the decoder reads an opcode. -/
theorem decode_afterLegacy {c : CodeCtx} {pre rex : List Byte} {l : Legacy} (hl : AfterLegacy pre l)
    (hrex : rexPart c rex) {op : Byte}
    (hop : rex = [] → notLegacy op ∧ (c.mode = .long64 → op.toNat / 16 ≠ 4)) (bs : List Byte) :
    ∃ r, decode c (pre ++ rex ++ op :: bs) = readOpcode c l r (op :: bs) := by
  rw [decode, List.append_assoc, hl.reads]
  rcases hrex with rfl | ⟨r, rfl, hm, hr⟩
  · obtain ⟨hleg, hno⟩ := hop rfl
    refine ⟨none, ?_⟩
    have hneg : ¬ (c.mode = .long64 ∧ op.toNat / 16 = 4) := fun ⟨hm, h4⟩ => hno hm h4
    rw [List.nil_append, readLegacy_stop l op bs hleg]
    simp [readRex, hneg]
  · refine ⟨some (rexOfByte r), ?_⟩
    rw [List.singleton_append, readLegacy_stop l r (op :: bs) (notLegacy_of_rex hr)]
    simp [readRex, hm, hr]

/-! ## What the opcode map refuses -/

section
variable (c : CodeCtx) {l : Legacy} (r : Option Rex) (bs : List Byte)

theorem readOpcode_86_opsz (h : l.opsz = true) : readOpcode c l r (0x86#8 :: bs) = .error .pfxNotAdmitted := by
  simp [readOpcode, h]

theorem readOpcode_xbegin_mem (h : (l.addr67 || l.seg.isSome) = true) :
    readOpcode c l r (0xC7#8 :: 0xF8#8 :: bs) = .error .pfxNotAdmitted := by
  simp only [readOpcode, readXbegin, if_true, ne_eq, not_true, if_false, h]

theorem readOpcode_short_mem (h : (l.addr67 || l.seg.isSome) = true) {op : Byte} (hop : op.toNat / 8 = 18) :
    readOpcode c l r (op :: bs) = .error .pfxNotAdmitted := by
  have hC7 : op ≠ 0xC7#8 := by rintro rfl; cases hop
  simp only [readOpcode, readShort, if_neg hC7, if_pos hop, if_pos h]

/-- A register operand admits neither 67 nor a segment override (R82). -/
theorem readModRM_reg_mem (h : (l.addr67 || l.seg.isSome) = true) (x : Rex) {m : Byte} (hm : m.toNat / 64 = 3) :
    readModRM c l x (m :: bs) = .error .pfxNotAdmitted := by
  have htop : topField m = 3 := Fin.ext (by simp [topField, hm])
  simp only [readModRM, if_pos htop, if_pos h]

theorem readOpcode_86_reg_mem (h : (l.addr67 || l.seg.isSome) = true) {m : Byte} (hm : m.toNat / 64 = 3) :
    readOpcode c l r (0x86#8 :: m :: bs) = .error .pfxNotAdmitted := by
  cases h66 : l.opsz with
  | true => exact readOpcode_86_opsz c r (m :: bs) h66
  | false => simp [readOpcode, h66, readModRM_reg_mem c bs h _ hm]

theorem readOpcode_87_reg_mem (h : (l.addr67 || l.seg.isSome) = true) {m : Byte} (hm : m.toNat / 64 = 3) :
    readOpcode c l r (0x87#8 :: m :: bs) = .error .pfxNotAdmitted := by
  simp [readOpcode, readModRM_reg_mem c bs h _ hm]

theorem readOpcode_rep {b : Byte} (h : b = 0xF2#8 ∨ b = 0xF3#8) :
    readOpcode c l r (b :: bs) = .error .repPfx := by
  rcases h with rfl | rfl <;> simp [readOpcode]

theorem readOpcode_notXbegin {b : Byte} (h : b ≠ 0xF8#8) :
    readOpcode c l r (0xC7#8 :: b :: bs) = .error .notXbegin := by
  simp [readOpcode, readXbegin, h]

theorem readOpcode_other {op : Byte} (h : op ∉ [0xC7#8, 0x86#8, 0x87#8, 0xF2#8, 0xF3#8])
    (hshort : op.toNat / 8 ≠ 18) : readOpcode c l r (op :: bs) = .error (.opcode op) := by
  simp only [List.mem_cons, List.not_mem_nil, or_false, not_or] at h
  obtain ⟨hC7, h86, h87, hF2, hF3⟩ := h
  simp [readOpcode, hC7, h86, h87, hF2, hF3, hshort]

end

/-- Settles O52: the legacy prefixes are read to their end or refused there, and what follows them is the opcode map's
to refuse. -/
theorem misusedPrefixesAreRefused : Obligations.MisusedPrefixesAreRefused := by
  intro c pre rex bs hpre hrex
  obtain ⟨l, hl⟩ := exists_afterLegacy hpre
  have opcode : ∀ {op : Byte} {e : Reject} {bs : List Byte},
      (rex = [] → notLegacy op ∧ (c.mode = .long64 → op.toNat / 16 ≠ 4)) →
      (∀ r, readOpcode c l r (op :: bs) = .error e) → decode c (pre ++ rex ++ op :: bs) = .error e := by
    intro op e bs hop h
    obtain ⟨r, hr⟩ := decode_afterLegacy hl hrex hop bs
    rw [hr, h]
  have plain : ∀ {op : Byte}, op ∈ [0xC7#8, 0x86#8, 0x87#8, 0xF2#8, 0xF3#8] →
      (rex = [] → notLegacy op ∧ (c.mode = .long64 → op.toNat / 16 ≠ 4)) := by
    intro op hop _
    have facts : notLegacy op ∧ op.toNat / 16 ≠ 4 := by
      unfold notLegacy
      revert op
      decide
    exact ⟨facts.1, fun _ => facts.2⟩
  refine ⟨fun b hb hmem => ?_, fun b hb hseg => ?_, fun h66 => ?_, fun hmem => ?_, ?_, ?_, fun b hb => ?_,
    fun op hop hshort hfirst => ?_⟩
  · rw [decode, hl.reads, readLegacy_repeated hl hb hmem]
  · obtain ⟨g, rfl⟩ := eq_segByte_of_mem hb
    rw [decode, hl.reads, readLegacy_twoSegments (hl.seg.2 hseg)]
  · exact opcode (plain (by decide)) fun r => readOpcode_86_opsz c r bs (hl.opsz.2 h66)
  · have h : (l.addr67 || l.seg.isSome) = true := by
      rw [Bool.or_eq_true, hl.addr67, hl.seg]
      exact hmem
    refine ⟨opcode (plain (by decide)) fun r => readOpcode_xbegin_mem c r bs h, fun op hop => ?_, fun m hm => ⟨?_, ?_⟩⟩
    · obtain ⟨hleg, hno⟩ := notLegacy_of_short hop
      exact opcode (fun _ => ⟨hleg, fun _ => hno⟩) fun r => readOpcode_short_mem c r bs h hop
    · exact opcode (plain (by decide)) fun r => readOpcode_86_reg_mem c r bs h hm
    · exact opcode (plain (by decide)) fun r => readOpcode_87_reg_mem c r bs h hm
  · exact opcode (plain (by decide)) fun r => readOpcode_rep c r bs (.inl rfl)
  · exact opcode (plain (by decide)) fun r => readOpcode_rep c r bs (.inr rfl)
  · exact opcode (plain (by decide)) fun r => readOpcode_notXbegin c r bs hb
  · refine opcode (fun hr => ?_) fun r => readOpcode_other c r bs hop hshort
    obtain ⟨hlegacy, hseg, hno⟩ := hfirst hr
    exact ⟨(notLegacy_iff op).2 ⟨hlegacy, hseg⟩, hno⟩

theorem legacyOnce_nil : legacyOnce [] := ⟨fun _ h => (by cases h), by decide, by decide, by decide, by decide⟩

/-- Settles O5: the case of O52 with nothing before the byte. -/
theorem otherBytesAreRefused : Obligations.OtherBytesAreRefused := by
  intro c b bs
  have hno := fun bs => misusedPrefixesAreRefused c [] [] bs legacyOnce_nil (.inl rfl)
  obtain ⟨-, -, -, -, hF2, hF3, hC7, hother⟩ := hno bs
  refine ⟨hC7 b, hF2, hF3, fun hb hshort h4 => ?_⟩
  have within : ∀ {bytes : List Byte}, bytes ⊆ _ → b ∉ bytes := fun hsub h => hb (hsub h)
  exact hother b (within (by decide)) hshort fun _ => ⟨within (by decide), within (by decide), h4⟩

/-! ## Sizes and words -/

/-- Settles O53: both sizes are read off the mode. -/
theorem operandAndAddressSizes : Obligations.OperandAndAddressSizes := by
  intro d a w
  refine ⟨rfl, rfl, fun m hm => ?_, fun m hm => ?_⟩
  · simp only [List.mem_cons, List.not_mem_nil, or_false] at hm
    rcases hm with rfl | rfl <;> exact ⟨rfl, rfl, rfl, rfl⟩
  · simp only [List.mem_cons, List.not_mem_nil, or_false] at hm
    rcases hm with rfl | rfl <;> exact ⟨rfl, rfl⟩

/-- Settles O4: each word is decoded by evaluation. -/
theorem specWordsDecode : Obligations.SpecWordsDecode := by
  refine ⟨rfl, rfl, rfl, rfl, rfl, rfl, rfl, rfl, rfl, rfl, rfl, rfl, rfl, rfl, ?_, rfl, rfl, rfl, rfl, ?_, rfl, rfl⟩
  · simp only [List.forall_mem_cons]
    exact ⟨rfl, rfl, rfl, rfl, rfl, rfl, List.forall_mem_nil _⟩
  · simp only [List.forall_mem_cons]
    exact ⟨rfl, rfl, rfl, rfl, rfl, rfl, rfl, rfl, List.forall_mem_nil _⟩

end Sys2Proof
end

/-! # Canonical addresses and XBEGIN

The canonical form by bits (00_scope.md R12), the fallback address at the widths of its rule (40_xbegin.md R124), and
what XBEGIN answers below the nesting limit (R122, R123, R129). -/

section
namespace Sys2Proof.Machine

/-! ## The canonical form -/

/-- The bits above a position are those of the quotient. -/
theorem testBit_high (a : Word) (n j : Nat) : (a.toNat / 2 ^ n).testBit j = a.getLsbD (n + j) := by
  rw [Nat.testBit_div_two_pow, Nat.add_comm, BitVec.testBit_toNat]

/-- The high bits are all 0 exactly when the quotient is 0. -/
theorem high_eq_zero_iff (a : Word) (n : Nat) :
    a.toNat / 2 ^ n = 0 ↔ ∀ k, n ≤ k → k < 64 → a.getLsbD k = false := by
  constructor
  · intro h k hn _
    obtain ⟨j, rfl⟩ := Nat.exists_eq_add_of_le hn
    rw [← testBit_high, h, Nat.zero_testBit]
  · intro h
    refine Nat.eq_of_testBit_eq fun j => ?_
    rw [testBit_high, Nat.zero_testBit]
    by_cases hk : n + j < 64
    · exact h _ (Nat.le_add_right n j) hk
    · exact BitVec.getLsbD_of_ge _ _ (by omega)

/-- The high bits are all 1 exactly when the quotient is all ones. -/
theorem high_eq_ones_iff (a : Word) {n : Nat} (hn : n < 64) :
    a.toNat / 2 ^ n = 2 ^ (64 - n) - 1 ↔ ∀ k, n ≤ k → k < 64 → a.getLsbD k = true := by
  constructor
  · intro h k hk hlt
    obtain ⟨j, rfl⟩ := Nat.exists_eq_add_of_le hk
    rw [← testBit_high, h, Nat.testBit_two_pow_sub_one, decide_eq_true_eq]
    omega
  · intro h
    refine Nat.eq_of_testBit_eq fun j => ?_
    rw [testBit_high, Nat.testBit_two_pow_sub_one]
    by_cases hk : n + j < 64
    · rw [h _ (Nat.le_add_right n j) hk, eq_comm, decide_eq_true_eq]
      omega
    · rw [BitVec.getLsbD_of_ge _ _ (by omega), eq_comm, decide_eq_false_iff_not]
      omega

/-- Settles O6: the two quotients of `canonical` are those of high bits all 0 and all 1. -/
theorem canonicalMeansHighBitsEqual : Obligations.CanonicalMeansHighBitsEqual := by
  intro vaBits a h1 h64
  rw [canonical, Bool.or_eq_true, decide_eq_true_eq, decide_eq_true_eq,
    show 65 - vaBits = 64 - (vaBits - 1) by omega, high_eq_zero_iff, high_eq_ones_iff a (by omega)]
  constructor
  · rintro (h | h) k hk hlt
    · rw [h k hk hlt, h 63 (by omega) (by decide)]
    · rw [h k hk hlt, h 63 (by omega) (by decide)]
  · intro h
    cases h63 : a.getLsbD 63 with
    | false => exact .inl fun k hk hlt => (h k hk hlt).trans h63
    | true => exact .inr fun k hk hlt => (h k hk hlt).trans h63

/-- `canonical` by bits, for constants in their bounds (00_scope.md R8, R12). -/
theorem canonical_iff {hw : Hw} (h : hw.wf = true) (a : Word) :
    canonical hw.vaBits a = true ↔ highBitsEqual hw.vaBits a := by
  simp only [Hw.wf, Bool.and_eq_true, decide_eq_true_eq] at h
  obtain ⟨⟨-, h1⟩, h64⟩ := h
  exact canonicalMeansHighBitsEqual hw.vaBits a h1 h64

/-! ## The fallback address -/

/-- The bound of the code segment in the form the statements use (00_scope.md R8). -/
theorem csBound_eq_highestOffset (lp : LP) : lp.csBound = highestOffset lp := by
  unfold LP.csBound highestOffset
  cases lp.mode <;> rfl

/-- The fallback address in 64-bit mode (R124). -/
theorem fallbackAddr_long {lp : LP} (hm : lp.mode = .long64) (hw : Hw) (len : Nat) (osz16 : Bool) (off : Word) :
    lp.fallbackAddr hw len osz16 off = fallback64 lp len off := by
  simp only [LP.fallbackAddr, LP.nextPc, fallback64, hm]

/-- The fallback address outside 64-bit mode, in which the low half of the offset counts alone (R124). -/
theorem fallbackAddr_narrow {lp : LP} (hm : lp.mode ≠ .long64) (hw : Hw) (len : Nat) (osz16 : Bool) (off : Word) :
    lp.fallbackAddr hw len osz16 off = (fallback32 lp hw len osz16 (off.setWidth 32)).setWidth 64 := by
  have hnext : lp.nextPc len = (lp.pc.setWidth 32 + BitVec.ofNat 32 len).setWidth 64 := by
    rw [nextPc_eq_pcAfter, pcAfter]
    split
    · contradiction
    · rfl
  have haddr : lp.fallbackAddr hw len osz16 off =
      if hw.rel16Truncates && osz16 then ((lp.nextPc len + off).setWidth 16).setWidth 64
      else low32 (lp.nextPc len + off) := by
    unfold LP.fallbackAddr
    split
    · contradiction
    · rfl
  rw [haddr, hnext, fallback32]
  generalize lp.pc.setWidth 32 + BitVec.ofNat 32 len = next
  apply BitVec.eq_of_toNat_eq
  split
  · have hmask : ∀ n : Nat, n &&& 65535 = n % 65536 := Nat.and_two_pow_sub_one_eq_mod (n := 16)
    simp [hmask]
    omega
  · simp [low32]

/-- The check of the fallback address in 64-bit mode (R124). -/
theorem fallbackOk_long {lp : LP} (hm : lp.mode = .long64) {hw : Hw} (h : hw.wf = true) (fb : Word) :
    lp.fallbackOk hw fb = true ↔ highBitsEqual hw.vaBits fb := by
  rw [← canonical_iff h]
  simp only [LP.fallbackOk, hm]

/-- The check of the fallback address outside 64-bit mode (R124). -/
theorem fallbackOk_narrow {lp : LP} (hm : lp.mode ≠ .long64) (hw : Hw) (fb : BitVec 32) :
    lp.fallbackOk hw (fb.setWidth 64) = true ↔ fb.toNat ≤ highestOffset lp := by
  have hfb : (fb.setWidth 64).toNat = fb.toNat := BitVec.toNat_setWidth_of_le (by decide)
  rw [← csBound_eq_highestOffset, ← hfb]
  unfold LP.fallbackOk
  split
  · contradiction
  · exact decide_eq_true_iff

/-! ## What XBEGIN answers below the nesting limit -/

/-- Entering a transaction and moving past the XBEGIN, in the form the statements use (R122). -/
theorem enterRtm_advance (s : State) (len : Nat) (fb : Word) :
    (s.withLp (s.lp.enterRtm fb)).advance len = enteredWith s len fb := advance_eq _ _

/-- What the XBEGIN of a state does that is admitted and below the nesting limit. -/
theorem xbegin_below {s : State} (hrtm : s.hw.hasRtm = true) (hlt : s.lp.nestCount < s.hw.maxNest) (osz16 : Bool)
    (len : Nat) (off : Word) :
    s.xbegin false osz16 len off =
      if s.lp.nestCount = 0 then
        if s.lp.fallbackOk s.hw (s.lp.fallbackAddr s.hw len osz16 off) then
          .next (enteredWith s len (s.lp.fallbackAddr s.hw len osz16 off))
        else .next (recorded s .gp (some 0))
      else .next { s with lp := { s.lp with nestCount := s.lp.nestCount + 1, pc := pcAfter s.lp len } } := by
  rw [State.xbegin, if_neg (by simp [hrtm]), if_pos hlt, enterRtm_advance, advance_eq]
  rfl

/-- MAX_RTM_NEST_COUNT is at least 1 (10_state.md R37). -/
theorem Hw.wf.maxNest_pos {hw : Hw} (h : hw.wf = true) : 0 < hw.maxNest := by
  simp only [Hw.wf, Bool.and_eq_true, decide_eq_true_eq] at h
  omega

section
variable {s : State} (hhw : s.hw.wf = true) (hrtm : s.hw.hasRtm = true) (h0 : s.lp.nestCount = 0) (osz16 : Bool)
  (len : Nat) (off : Word)
include hhw hrtm h0

/-- The outermost XBEGIN enters a transaction where its fallback address passes (R122). -/
theorem xbegin_enters (hok : s.lp.fallbackOk s.hw (s.lp.fallbackAddr s.hw len osz16 off) = true) :
    s.xbegin false osz16 len off = .next (enteredWith s len (s.lp.fallbackAddr s.hw len osz16 off)) := by
  rw [xbegin_below hrtm (h0 ▸ Hw.wf.maxNest_pos hhw), if_pos h0, if_pos hok]

/-- The outermost XBEGIN raises #GP(0) where its fallback address does not pass (R129). -/
theorem xbegin_raises_gp (hbad : ¬ s.lp.fallbackOk s.hw (s.lp.fallbackAddr s.hw len osz16 off) = true) :
    s.xbegin false osz16 len off = .next (recorded s .gp (some 0)) := by
  rw [xbegin_below hrtm (h0 ▸ Hw.wf.maxNest_pos hhw), if_pos h0, if_neg hbad]

/-- The outermost XBEGIN in 64-bit mode. -/
theorem xbegin_enters_long (hm : s.lp.mode = .long64) (hok : highBitsEqual s.hw.vaBits (fallback64 s.lp len off)) :
    s.xbegin false osz16 len off = .next (enteredWith s len (fallback64 s.lp len off)) := by
  rw [← fallbackAddr_long hm s.hw len osz16 off] at hok ⊢
  exact xbegin_enters hhw hrtm h0 osz16 len off ((fallbackOk_long hm hhw _).2 hok)

/-- The outermost XBEGIN outside 64-bit mode. -/
theorem xbegin_enters_narrow (hm : s.lp.mode ≠ .long64)
    (hok : (fallback32 s.lp s.hw len osz16 (off.setWidth 32)).toNat ≤ highestOffset s.lp) :
    s.xbegin false osz16 len off =
      .next (enteredWith s len ((fallback32 s.lp s.hw len osz16 (off.setWidth 32)).setWidth 64)) := by
  have hfb := fallbackAddr_narrow hm s.hw len osz16 off
  rw [xbegin_enters hhw hrtm h0 osz16 len off (by rw [hfb]; exact (fallbackOk_narrow hm _ _).2 hok), hfb]

/-- The outermost XBEGIN in 64-bit mode whose fallback address is not canonical (R129). -/
theorem xbegin_gp_long (hm : s.lp.mode = .long64) (hbad : ¬ highBitsEqual s.hw.vaBits (fallback64 s.lp len off)) :
    s.xbegin false osz16 len off = .next (recorded s .gp (some 0)) := by
  rw [← fallbackAddr_long hm s.hw len osz16 off, ← fallbackOk_long hm hhw] at hbad
  exact xbegin_raises_gp hhw hrtm h0 osz16 len off hbad

/-- The outermost XBEGIN outside 64-bit mode whose fallback address is above the highest valid offset (R129). -/
theorem xbegin_gp_narrow (hm : s.lp.mode ≠ .long64)
    (hbad : highestOffset s.lp < (fallback32 s.lp s.hw len osz16 (off.setWidth 32)).toNat) :
    s.xbegin false osz16 len off = .next (recorded s .gp (some 0)) := by
  refine xbegin_raises_gp hhw hrtm h0 osz16 len off ?_
  rw [fallbackAddr_narrow hm, fallbackOk_narrow hm]
  exact Nat.not_le.2 hbad

end

/-- An XBEGIN that is not the outermost one records no exception. -/
theorem xbegin_inner_fault {s t : State} (hrtm : s.hw.hasRtm = true) (h0 : s.lp.nestCount ≠ 0) {osz16 : Bool}
    {len : Nat} {off : Word} (h : s.xbegin false osz16 len off = .next t) : t.lp.fault = s.lp.fault := by
  by_cases hlt : s.lp.nestCount < s.hw.maxNest
  · rw [xbegin_below hrtm hlt, if_neg h0] at h
    cases h
    rfl
  · rw [xbegin_eq_rtmAbort s osz16 len off hrtm (Nat.not_lt.1 hlt)] at h
    cases h
    rfl

/-- A nested XBEGIN counts and moves on (R123). -/
theorem xbegin_nested {s : State} (hrtm : s.hw.hasRtm = true) (h1 : 1 ≤ s.lp.nestCount)
    (hlt : s.lp.nestCount < s.hw.maxNest) (osz16 : Bool) (len : Nat) (off : Word) :
    s.xbegin false osz16 len off =
      .next { s with lp := { s.lp with nestCount := s.lp.nestCount + 1, pc := pcAfter s.lp len } } := by
  rw [xbegin_below hrtm hlt, if_neg (Nat.ne_of_gt h1)]

/-! ## The two forms -/

/-- XBEGIN rel32 without LOCK (R121). -/
theorem exec_xbeginRel32 {p : Pfx} (hlock : p.lock = false) (imm : BitVec 32) (s : State) :
    exec (.xbeginRel32 p imm) s = s.xbegin false false (p.len + 6) (imm.signExtend 64) := by
  show s.xbegin p.lock false (p.len + 6) (imm.signExtend 64) = _
  rw [hlock]

/-- XBEGIN rel16 without LOCK (R120). -/
theorem exec_xbeginRel16 {p : Pfx} (hlock : p.lock = false) (imm : BitVec 16) (s : State) :
    exec (.xbeginRel16 p imm) s = s.xbegin false true (p.len + 4) (imm.signExtend 64) := by
  show s.xbegin p.lock true (p.len + 4) (imm.signExtend 64) = _
  rw [hlock]

/-- The low bits of a sign-extended offset are the offset sign-extended to them. -/
theorem setWidth_signExtend {w n : Nat} (hn : n ≤ 64) (imm : BitVec w) :
    (imm.signExtend 64).setWidth n = imm.signExtend n := by
  apply BitVec.eq_of_getLsbD_eq
  intro i hi
  rw [BitVec.getLsbD_setWidth, BitVec.getLsbD_signExtend, BitVec.getLsbD_signExtend]
  simp [hi, show i < 64 by omega]

theorem setWidth_signExtend_rel32 (imm : BitVec 32) : (imm.signExtend 64).setWidth 32 = imm :=
  (setWidth_signExtend (by decide) imm).trans (BitVec.signExtend_eq imm)

/-- The bound as the statements write it out by mode. -/
theorem le_highestOffset_of_mode {lp : LP} {n : Nat}
    (h : match lp.mode with
      | .real => n ≤ 0xFFFF
      | .v8086 => n ≤ 0xFFFF
      | _ => n ≤ lp.csLimit.toNat) : n ≤ highestOffset lp := by
  unfold highestOffset
  split at h
  · next hm => simpa [hm] using h
  · next hm => simpa [hm] using h
  · next hr hv => rwa [if_neg (not_or.2 ⟨hr, hv⟩)]

theorem highestOffset_lt_of_mode {lp : LP} {n : Nat} {q : Prop} (hm : lp.mode ≠ .long64)
    (h : match lp.mode with
      | .long64 => q
      | .real => 0xFFFF < n
      | .v8086 => 0xFFFF < n
      | _ => lp.csLimit.toNat < n) : highestOffset lp < n := by
  unfold highestOffset
  split at h
  · contradiction
  · next hm => simpa [hm] using h
  · next hm => simpa [hm] using h
  · next hr hv => rwa [if_neg (not_or.2 ⟨hr, hv⟩)]

/-- Settles O7: the test written out by mode is the check of `State.xbegin`. -/
theorem xbeginRel32EntersTransaction : Obligations.XbeginRel32EntersTransaction := by
  intro s p imm hhw hrtm hlock h0
  rw [exec_xbeginRel32 hlock]
  refine ⟨fun hm hok => xbegin_enters_long hhw hrtm h0 _ _ _ hm hok, fun hm hok => ?_⟩
  have enters := xbegin_enters_narrow hhw hrtm h0 false (p.len + 6) (imm.signExtend 64) hm
  rw [setWidth_signExtend_rel32] at enters
  exact enters (le_highestOffset_of_mode hok)

/-- Settles O8: the test written out by mode is the check of `State.xbegin`. -/
theorem xbeginRel16EntersTransaction : Obligations.XbeginRel16EntersTransaction := by
  intro s p imm hhw hrtm hlock h0
  rw [exec_xbeginRel16 hlock]
  refine ⟨fun hm hok => xbegin_enters_long hhw hrtm h0 _ _ _ hm hok, fun hm hok => ?_⟩
  have enters := xbegin_enters_narrow hhw hrtm h0 true (p.len + 4) (imm.signExtend 64) hm
  rw [setWidth_signExtend (by decide)] at enters
  exact enters (le_highestOffset_of_mode hok)

/-- Settles O9: the complementary test fails the check of `State.xbegin`, which only the outermost XBEGIN makes. -/
theorem xbeginBadFallbackRaisesGp : Obligations.XbeginBadFallbackRaisesGp := by
  intro s p hhw hrtm hlock
  refine ⟨fun h0 imm hbad => ?_, fun h0 imm hbad => ?_, fun h0 imm16 imm32 t h => ?_⟩
  · rw [exec_xbeginRel32 hlock]
    by_cases hm : s.lp.mode = .long64
    · simp only [hm] at hbad
      exact xbegin_gp_long hhw hrtm h0 _ _ _ hm hbad
    · have raises := xbegin_gp_narrow hhw hrtm h0 false (p.len + 6) (imm.signExtend 64) hm
      rw [setWidth_signExtend_rel32] at raises
      exact raises (highestOffset_lt_of_mode hm hbad)
  · rw [exec_xbeginRel16 hlock]
    by_cases hm : s.lp.mode = .long64
    · simp only [hm] at hbad
      exact xbegin_gp_long hhw hrtm h0 _ _ _ hm hbad
    · have raises := xbegin_gp_narrow hhw hrtm h0 true (p.len + 4) (imm.signExtend 64) hm
      rw [setWidth_signExtend (by decide)] at raises
      exact raises (highestOffset_lt_of_mode hm hbad)
  · rw [exec_xbeginRel16 hlock, exec_xbeginRel32 hlock] at h
    rcases h with h | h
    · exact xbegin_inner_fault hrtm h0 h
    · exact xbegin_inner_fault hrtm h0 h

/-- Settles O11: both forms are a nested XBEGIN. -/
theorem nestedXbeginOnlyCounts : Obligations.NestedXbeginOnlyCounts := by
  intro s p imm16 imm32 hrtm hlock h1 hlt
  rw [exec_xbeginRel16 hlock, exec_xbeginRel32 hlock]
  exact ⟨xbegin_nested hrtm h1 hlt _ _ _, xbegin_nested hrtm h1 hlt _ _ _⟩

/-! ## The frame -/

/-- What an XBEGIN below the nesting limit leaves unchanged (R122, R123, R130). -/
def xbeginKeeps (s t : State) : Prop :=
  t.lp.x = s.lp.x ∧ t.lp.flags = s.lp.flags ∧ t.lp.otherRegs = s.lp.otherRegs ∧
    t.lp.environment = s.lp.environment ∧ t.mem = s.mem ∧ othersUnchanged s t ∧ t.draws = s.draws ∧
    (s.lp.nestCount ≠ 0 → t.lp.fallback = s.lp.fallback ∧ t.lp.checkpoint = s.lp.checkpoint ∧
      t.lp.wbuf = s.lp.wbuf ∧ t.lp.rtmActive = s.lp.rtmActive)

theorem recorded_xbeginKeeps (s : State) (name : ExcName) (code : Option Nat) :
    xbeginKeeps s (recorded s name code) :=
  ⟨rfl, rfl, rfl, rfl, rfl, ⟨rfl, rfl, rfl, rfl, rfl⟩, rfl, fun _ => ⟨rfl, rfl, rfl, rfl⟩⟩

/-- Below the nesting limit an XBEGIN raises, enters or counts, and each keeps the rest. -/
theorem xbegin_keeps {s t : State} {lock osz16 : Bool} {len : Nat} {off : Word}
    (hlt : s.lp.nestCount < s.hw.maxNest) (h : s.xbegin lock osz16 len off = .next t) : xbeginKeeps s t := by
  by_cases hud : s.hw.hasRtm = false ∨ lock = true
  · rw [xbegin_eq_raise_ud s lock osz16 len off hud] at h
    cases h
    exact recorded_xbeginKeeps s .ud none
  · simp only [not_or, Bool.not_eq_false, Bool.not_eq_true] at hud
    obtain ⟨hrtm, rfl⟩ := hud
    rw [xbegin_below hrtm hlt] at h
    split at h
    · next h0 =>
      split at h
      · cases h
        exact ⟨rfl, rfl, rfl, rfl, rfl, ⟨rfl, rfl, rfl, rfl, rfl⟩, rfl, fun hne => absurd h0 hne⟩
      · cases h
        exact recorded_xbeginKeeps s .gp (some 0)
    · cases h
      exact ⟨rfl, rfl, rfl, rfl, rfl, ⟨rfl, rfl, rfl, rfl, rfl⟩, rfl, fun _ => ⟨rfl, rfl, rfl, rfl⟩⟩

/-- Settles O13: the instructions that are no XCHG are the two XBEGIN. -/
theorem xbeginFrame : Obligations.XbeginFrame := by
  intro i s t hi hlt h
  cases i with
  | xbeginRel16 p imm => exact xbegin_keeps hlt h
  | xbeginRel32 p imm => exact xbegin_keeps hlt h
  | xchgAxR16 p r => cases hi
  | xchgEaxR32 p r => cases hi
  | xchgRaxR64 p r => cases hi
  | xchgRm8R8 p rm g => cases hi
  | xchgRm8R8Rex p rm g => cases hi
  | xchgRm16R16 p rm g => cases hi
  | xchgRm32R32 p rm g => cases hi
  | xchgRm64R64 p rm g => cases hi

end Sys2Proof.Machine
end

/-! # The fetch

Which bytes at pc are fetched, what they decode to, and so which instruction a step runs or why it is refused
(10_state.md R28, 30_encoding.md R103). -/

section
namespace Sys2Proof.Machine

/-! ## One byte -/

/-- Outside 64-bit mode a fetch is bounded by the code segment (10_state.md R28). -/
theorem fetchAllowed_narrow {lp : LP} (hm : lp.mode ≠ .long64) (hw : Hw) (a : Nat) :
    lp.fetchAllowed hw a = true ↔ a ≤ highestOffset lp := by
  rw [← csBound_eq_highestOffset]
  unfold LP.fetchAllowed
  split
  · contradiction
  · exact decide_eq_true_iff

/-- In 64-bit mode a fetch is bounded by the top of the address space and the canonical form (10_state.md R28). -/
theorem fetchAllowed_long {lp : LP} (hm : lp.mode = .long64) {hw : Hw} (h : hw.wf = true) (a : Nat) :
    lp.fetchAllowed hw a = true ↔ a < 2 ^ 64 ∧ highBitsEqual hw.vaBits (BitVec.ofNat 64 a) := by
  rw [← canonical_iff h]
  simp [LP.fetchAllowed, hm]

/-- A byte is fetched exactly where it is allowed, program text, and has a value. -/
theorem fetchByte_eq_none_iff (s : State) (a : Nat) :
    s.fetchByte a = none ↔ s.lp.fetchAllowed s.hw a = false ∨ s.inText a = false ∨ s.mem.read a = none := by
  unfold State.fetchByte
  cases s.lp.fetchAllowed s.hw a <;> cases s.inText a <;> simp

/-- A fetched byte is the shared memory's. -/
theorem read_of_fetchByte {s : State} {a : Nat} {b : Byte} (h : s.fetchByte a = some b) : s.mem.read a = some b := by
  unfold State.fetchByte at h
  split at h
  · exact h
  · cases h

/-- What cannot be fetched in the words of the statements (R28, R201). -/
theorem fetchByte_eq_none_iff_unfetchable {s : State} (h : s.hw.wf = true) (a : Nat) :
    s.fetchByte a = none ↔ unfetchable s a := by
  have allowed : s.lp.fetchAllowed s.hw a = false ↔
      match s.lp.mode with
      | .long64 => 2 ^ 64 ≤ a ∨ ¬ highBitsEqual s.hw.vaBits (BitVec.ofNat 64 a)
      | _ => highestOffset s.lp < a := by
    rw [← Bool.not_eq_true]
    split
    · next hm => rw [fetchAllowed_long hm h, not_and_or, Nat.not_lt]
    · next hm => rw [fetchAllowed_narrow hm, Nat.not_le]
  rw [fetchByte_eq_none_iff, allowed, or_comm, or_assoc]
  rfl

/-! ## The bytes at pc -/

/-- Bytes that can all be fetched are the first of the window. -/
theorem fetchBytes_of_inPlace (s : State) (bytes : List Byte) : ∀ (a n : Nat), bytes.length ≤ n →
    (∀ k, k < bytes.length → s.fetchByte (a + k) = bytes[k]?) → ∃ more, s.fetchBytes a n = bytes ++ more := by
  induction bytes with
  | nil => exact fun a n _ _ => ⟨_, rfl⟩
  | cons b bytes ih =>
    intro a n hn h
    obtain ⟨n, rfl⟩ : ∃ m, n = m + 1 := Nat.exists_eq_add_of_le' (Nat.le_trans (Nat.le_add_left 1 _) hn)
    have hb : s.fetchByte a = some b := h 0 (Nat.zero_lt_succ _)
    obtain ⟨more, hmore⟩ := ih (a + 1) n (Nat.le_of_succ_le_succ hn) fun k hk => by
      have := h (k + 1) (Nat.succ_lt_succ hk)
      rwa [List.getElem?_cons_succ, show a + (k + 1) = a + 1 + k by omega] at this
    exact ⟨more, by rw [State.fetchBytes, hb]; exact congrArg (b :: ·) hmore⟩

/-- Where the bytes before byte `k` are in place and byte `k` cannot be fetched, the fetch ends before it. -/
theorem fetchBytes_cut (s : State) (n : Nat) : ∀ (a k : Nat) (bytes : List Byte),
    (∀ j, j < k → s.mem.read (a + j) = bytes[j]?) → s.fetchByte (a + k) = none →
    ∃ m, m ≤ k ∧ s.fetchBytes a n = bytes.take m := by
  induction n with
  | zero => exact fun a k bytes _ _ => ⟨0, Nat.zero_le k, rfl⟩
  | succ n ih =>
    intro a k bytes hbytes hk
    cases hb : s.fetchByte a with
    | none => exact ⟨0, Nat.zero_le k, by rw [State.fetchBytes, hb]; rfl⟩
    | some b =>
      cases k with
      | zero => rw [Nat.add_zero, hb] at hk; cases hk
      | succ k =>
        have hfirst := hbytes 0 (Nat.succ_pos k)
        rw [Nat.add_zero, read_of_fetchByte hb] at hfirst
        cases bytes with
        | nil => cases hfirst
        | cons b' bytes =>
          cases hfirst
          obtain ⟨m, hm, htake⟩ := ih (a + 1) k bytes (fun j hj => by
            have := hbytes (j + 1) (Nat.succ_lt_succ hj)
            rwa [List.getElem?_cons_succ, show a + (j + 1) = a + 1 + j by omega] at this)
            (by rwa [show a + (k + 1) = a + 1 + k by omega] at hk)
          exact ⟨m + 1, Nat.succ_le_succ hm, by rw [State.fetchBytes, hb]; exact congrArg (b :: ·) htake⟩

/-- Where pc cannot be fetched from, the fetch sees nothing. -/
theorem window_eq_nil {s : State} (h : s.fetchByte s.lp.pc.toNat = none) : s.window = [] := by
  obtain ⟨m, -, hw⟩ := fetchBytes_cut s maxLen s.lp.pc.toNat 0 [] (fun j hj => absurd hj (Nat.not_lt_zero j)) h
  rw [State.window, hw, List.take_nil]

/-! ## What is decoded -/

/-- An instruction all of whose bytes are in place is the one at pc. -/
theorem fetchDecode_of_inPlace {s : State} (h : s.hw.wf = true) {bytes : List Byte} {i : Instr}
    (hd : decode s.lp.ctx bytes = .ok (i, [])) (hin : inPlace s bytes) : s.fetchDecode = .ok i := by
  obtain ⟨-, taken, htaken, hlen⟩ := decode_ok hd
  have hmax : bytes.length ≤ maxLen := by
    rw [htaken, List.append_nil, hlen]
    exact Nat.le_trans i.len_le (by decide)
  have fetched : ∀ k, k < bytes.length → s.fetchByte (s.lp.pc.toNat + k) = bytes[k]? := by
    intro k hk
    obtain ⟨hread, hok⟩ := hin k hk
    cases hb : s.fetchByte (s.lp.pc.toNat + k) with
    | none => exact absurd ((fetchByte_eq_none_iff_unfetchable h _).1 hb) hok
    | some b => rw [← hread, read_of_fetchByte hb]
  obtain ⟨more, hwindow⟩ := fetchBytes_of_inPlace s bytes _ maxLen hmax fetched
  refine fetchDecode_eq_ok_iff.2 ⟨[] ++ more, ?_⟩
  rw [State.window, hwindow]
  exact (decode_extends s.lp.ctx bytes more).1 i [] hd

theorem instrStep_eq_refused {s : State} {r : Refusal} (h : s.fetchDecode = .error r) :
    s.instrStep = .refused r := by
  unfold State.instrStep
  rw [h]

/-- Bytes that end before the instruction does are refused as a fetch (10_state.md R28). -/
theorem instrStep_of_truncated {s : State} (h : decode s.lp.ctx s.window = .error .truncated) :
    s.instrStep = .refused .fetch := instrStep_eq_refused (by rw [State.fetchDecode, h])

/-- Bytes that decode to nothing otherwise are refused as not admitted (30_encoding.md R103). -/
theorem instrStep_of_error {s : State} {why : Reject} (hne : why ≠ .truncated)
    (h : decode s.lp.ctx s.window = .error why) : s.instrStep = .refused (.notAdmitted why) := by
  refine instrStep_eq_refused ?_
  rw [State.fetchDecode, h]
  cases why with
  | truncated => exact absurd rfl hne
  | repeatedPfx => rfl
  | twoSegments => rfl
  | repPfx => rfl
  | pfxNotAdmitted => rfl
  | notXbegin => rfl
  | opcode b => rfl

/-- Where pc cannot be fetched from, the step is refused as a fetch. -/
theorem instrStep_of_fetchByte_none {s : State} (h : s.fetchByte s.lp.pc.toNat = none) :
    s.instrStep = .refused .fetch := instrStep_of_truncated (by rw [window_eq_nil h]; rfl)

/-! ## The step -/

/-- Settles O36: a step is an InstrStep, and an InstrStep runs the instruction that the fetch decodes. -/
theorem stepRunsTheDecodedInstruction : Obligations.StepRunsTheDecodedInstruction := by
  have runs : ∀ {u : State} {i : Instr} {rest : List Byte}, decode u.lp.ctx u.window = .ok (i, rest) →
      u.instrStep = exec i u := fun h => instrStep_eq_exec (fetchDecode_eq_ok_iff.2 ⟨_, h⟩)
  refine ⟨fun s u i rest hmove hd => ?_, fun s i rest hb ha hf hact hpc hd => ?_, fun s bytes i hhw hd hin => ?_⟩
  · rw [step, hmove]
    exact runs hd
  · rw [step_single_eq_instrStep ⟨hb, ha⟩ ⟨hf, hpc⟩ hact, runs hd]
  · have hexec := instrStep_eq_exec (fetchDecode_of_inPlace hhw hd hin)
    exact ⟨hexec, fun hb ha hf hact hpc => (step_single_eq_instrStep ⟨hb, ha⟩ ⟨hf, hpc⟩ hact).trans hexec⟩

/-- Settles O47: a fetch that is cut short leaves a strict part of an instruction, which is truncated. -/
theorem unfetchableBytesAreRefused : Obligations.UnfetchableBytesAreRefused := by
  intro s hb ha hf hact hpc
  rw [step_single_eq_instrStep ⟨hb, ha⟩ ⟨hf, hpc⟩ hact]
  refine ⟨fun htext => ?_, fun hm hlt => ?_, fun hm hhw hcan => ?_, fun bytes i k hhw hd hk hbytes hun => ?_,
    fun why hne hd => instrStep_of_error hne hd⟩
  · exact instrStep_of_fetchByte_none ((fetchByte_eq_none_iff s _).2 (.inr (.inl htext)))
  · refine instrStep_of_fetchByte_none ((fetchByte_eq_none_iff s _).2 (.inl ?_))
    rw [← Bool.not_eq_true, fetchAllowed_narrow hm]
    exact Nat.not_le.2 hlt
  · refine instrStep_of_fetchByte_none ((fetchByte_eq_none_iff s _).2 (.inl ?_))
    rw [← Bool.not_eq_true, fetchAllowed_long hm hhw, BitVec.ofNat_toNat, BitVec.setWidth_eq]
    exact fun h => hcan h.2
  · obtain ⟨m, hm, hcut⟩ := fetchBytes_cut s maxLen s.lp.pc.toNat k bytes hbytes
      ((fetchByte_eq_none_iff_unfetchable hhw _).2 hun)
    refine instrStep_of_truncated ?_
    rw [State.window, hcut]
    exact decode_truncated hd (Nat.lt_of_le_of_lt hm hk)

end Sys2Proof.Machine
end

/-! # XCHG of registers

What a register write does to each part of the register file, and from it the exchange of two register operands at every
width (10_state.md R20 to R24, 41_xchg.md R140 to R148, R152). -/

section
namespace Sys2Proof.Machine

/-! ## Words by their parts -/

/-- A word is its low `n` bits and the rest. -/
theorem word_eq_of_parts (n : Nat) {u v : Word} (hlow : u.setWidth n = v.setWidth n) (hhigh : u >>> n = v >>> n) :
    u = v := by
  apply BitVec.eq_of_toNat_eq
  have h1 : u.toNat % 2 ^ n = v.toNat % 2 ^ n := by simpa using congrArg BitVec.toNat hlow
  have h2 : u.toNat / 2 ^ n = v.toNat / 2 ^ n := by
    simpa [Nat.shiftRight_eq_div_pow] using congrArg BitVec.toNat hhigh
  rw [← Nat.div_add_mod u.toNat (2 ^ n), h1, h2, Nat.div_add_mod]

/-- Words that agree from bit 16 on have the same bits 63:16. -/
theorem ushiftRight16_congr {u v : Word} (h : ∀ i, 16 ≤ i → i < 64 → u.getLsbD i = v.getLsbD i) :
    u >>> 16 = v >>> 16 := by
  apply BitVec.eq_of_getLsbD_eq
  intro i hi
  rw [BitVec.getLsbD_ushiftRight, BitVec.getLsbD_ushiftRight]
  by_cases h64 : 16 + i < 64
  · exact h _ (Nat.le_add_right 16 i) h64
  · rw [BitVec.getLsbD_of_ge _ _ (by omega), BitVec.getLsbD_of_ge _ _ (by omega)]

/-- Bits 7:0 or 15:8 of a word. -/
def byteIn (u : Word) (high : Bool) : Byte := (u >>> (if high then 8 else 0)).setWidth 8

/-- Two bytes are equal when their bits are, read in their words. -/
theorem byteIn_eq_iff {u : Word} {high : Bool} {b : Byte} :
    byteIn u high = b ↔ ∀ i, i < 8 → u.getLsbD ((if high then 8 else 0) + i) = b.getLsbD i := by
  have bits : ∀ i, i < 8 → (byteIn u high).getLsbD i = u.getLsbD ((if high then 8 else 0) + i) := fun i hi => by
    rw [byteIn, BitVec.getLsbD_setWidth, BitVec.getLsbD_ushiftRight, decide_eq_true hi, Bool.true_and]
  constructor
  · rintro rfl i hi
    exact (bits i hi).symm
  · exact fun h => BitVec.eq_of_getLsbD_eq fun i hi => (bits i hi).trans (h i hi)

section
variable (o v : Word)

/-- The low half-word of a register whose low 16 bits are replaced (R24). -/
theorem setWidth_write16 : (o.extractLsb' 16 48 ++ v.extractLsb' 0 16 : Word).setWidth 16 = v.setWidth 16 := by
  apply BitVec.eq_of_getLsbD_eq
  intro i hi
  rw [BitVec.getLsbD_setWidth, BitVec.getLsbD_setWidth, getLsbD_write16 o v i (by omega), if_pos hi]

/-- The rest of a register whose low 16 bits are replaced (R24). -/
theorem ushiftRight_write16 : (o.extractLsb' 16 48 ++ v.extractLsb' 0 16 : Word) >>> 16 = o >>> 16 :=
  ushiftRight16_congr fun i h16 h64 => by rw [getLsbD_write16 o v i h64, if_neg (by omega)]

/-- The bytes of a register whose bits 7:0 are replaced (R24). -/
theorem byteIn_write8 (high : Bool) : byteIn (o.extractLsb' 8 56 ++ v.extractLsb' 0 8) high =
    if high then byteIn o true else v.setWidth 8 := by
  rw [byteIn_eq_iff]
  intro i hi
  cases high with
  | false =>
    rw [if_neg Bool.false_ne_true, if_neg Bool.false_ne_true, Nat.zero_add, getLsbD_write8 o v i (by omega), if_pos hi,
      BitVec.getLsbD_setWidth, decide_eq_true hi, Bool.true_and]
  | true =>
    rw [if_pos rfl, if_pos rfl, getLsbD_write8 o v _ (by omega), if_neg (by omega)]
    exact (byteIn_eq_iff (high := true)).1 rfl i hi

/-- The bytes of a register whose bits 15:8 are replaced (R24). -/
theorem byteIn_writeHigh8 (high : Bool) :
    byteIn (o.extractLsb' 16 48 ++ v.extractLsb' 0 8 ++ o.extractLsb' 0 8) high =
      if high then v.setWidth 8 else byteIn o false := by
  rw [byteIn_eq_iff]
  intro i hi
  cases high with
  | false =>
    rw [if_neg Bool.false_ne_true, if_neg Bool.false_ne_true, Nat.zero_add, getLsbD_writeHigh8 o v i (by omega),
      if_pos hi, ← (byteIn_eq_iff (high := false)).1 rfl i hi, if_neg Bool.false_ne_true, Nat.zero_add]
  | true =>
    rw [if_pos rfl, if_pos rfl, getLsbD_writeHigh8 o v _ (by omega), if_neg (by omega), if_pos (by omega),
      Nat.add_sub_cancel_left, BitVec.getLsbD_setWidth, decide_eq_true hi, Bool.true_and]

/-- The rest of a register one of whose two low bytes is replaced (R24). -/
theorem ushiftRight_write8 : (o.extractLsb' 8 56 ++ v.extractLsb' 0 8 : Word) >>> 16 = o >>> 16 :=
  ushiftRight16_congr fun i h16 h64 => by rw [getLsbD_write8 o v i h64, if_neg (by omega)]

theorem ushiftRight_writeHigh8 :
    (o.extractLsb' 16 48 ++ v.extractLsb' 0 8 ++ o.extractLsb' 0 8 : Word) >>> 16 = o >>> 16 :=
  ushiftRight16_congr fun i h16 h64 => by
    rw [getLsbD_writeHigh8 o v i h64, if_neg (by omega), if_neg (by omega)]

end

/-- A word is its two low bytes and bits 63:16. -/
theorem word_eq_of_bytes16 {u v : Word} (hlow : byteIn u false = byteIn v false)
    (hhigh : byteIn u true = byteIn v true) (hrest : u >>> 16 = v >>> 16) : u = v := by
  have h8 : u >>> 8 = v >>> 8 := by
    refine word_eq_of_parts 8 hhigh ?_
    rw [← BitVec.shiftRight_add, ← BitVec.shiftRight_add]
    exact hrest
  exact word_eq_of_parts 8 (by simpa [byteIn] using hlow) h8

/-! ## Reads and writes of one operand -/

section
variable (lp : LP) (r : RegNum) (rex : Bool) (v : Word)

/-- A byte register read is the byte its number names (R22, R23). -/
theorem regRead_w8 : lp.regRead .w8 r rex = (byteAt lp (byteHome r rex)).setWidth 64 := by
  have bits : ∀ (u : Word) (k : Nat), u.extractLsb' k 8 = (u >>> k).setWidth 8 := fun u k =>
    BitVec.eq_of_toNat_eq (by simp)
  rw [byteHome_eq]
  unfold LP.regRead
  cases h : highByteReg r rex
  · simp [byteAt, bits]
  · simp [byteAt, bits]

/-- A byte register write puts the byte where the number says, in one register (R22, R24). -/
theorem getElem_regWrite_w8 (q : RegNum) :
    (lp.regWrite .w8 r rex v).x[q] =
      if q = (byteHome r rex).1 then
        if (byteHome r rex).2 then lp.x[q].extractLsb' 16 48 ++ v.extractLsb' 0 8 ++ lp.x[q].extractLsb' 0 8
        else lp.x[q].extractLsb' 8 56 ++ v.extractLsb' 0 8
      else lp.x[q] := by
  rw [byteHome_eq]
  unfold LP.regWrite
  cases highByteReg r rex
  · by_cases hq : q = r
    · subst hq
      exact (getElem_setX ..).trans (by simp)
    · exact (getElem_setX ..).trans (by simp [hq])
  · by_cases hq : q = highByteHome r
    · subst hq
      exact (getElem_setX ..).trans (by simp)
    · exact (getElem_setX ..).trans (by simp [hq])

/-- A byte register write changes the byte its number names, and no other (R22, R24). -/
theorem byteAt_regWrite_w8 (h : RegNum × Bool) :
    byteAt (lp.regWrite .w8 r rex v) h = if h = byteHome r rex then v.setWidth 8 else byteAt lp h := by
  obtain ⟨q, high⟩ := h
  show byteIn (lp.regWrite .w8 r rex v).x[q] high = if _ then _ else byteIn lp.x[q] high
  rw [getElem_regWrite_w8]
  generalize byteHome r rex = home
  obtain ⟨hr, hh⟩ := home
  by_cases hq : q = hr
  · subst hq
    cases hh
    · simp only [if_true, Bool.false_eq_true, if_false, byteIn_write8]
      cases high <;> simp
    · simp only [if_true, byteIn_writeHigh8]
      cases high <;> simp
  · simp [hq]

/-- A byte register write leaves bits 63:16 of every register (R24). -/
theorem ushiftRight_regWrite_w8 (q : RegNum) : (lp.regWrite .w8 r rex v).x[q] >>> 16 = lp.x[q] >>> 16 := by
  rw [getElem_regWrite_w8]
  split
  · split
    · exact ushiftRight_writeHigh8 ..
    · exact ushiftRight_write8 ..
  · rfl

/-- A 16-bit register write replaces bits 15:0 of its register (R24). -/
theorem getElem_regWrite_w16 (q : RegNum) : (lp.regWrite .w16 r rex v).x[q] =
    if q = r then lp.x[r].extractLsb' 16 48 ++ v.extractLsb' 0 16 else lp.x[q] := getElem_setX ..

theorem setWidth_regWrite_w16 (q : RegNum) : (lp.regWrite .w16 r rex v).x[q].setWidth 16 =
    if q = r then v.setWidth 16 else lp.x[q].setWidth 16 := by
  rw [getElem_regWrite_w16]
  split
  · exact setWidth_write16 ..
  · rfl

theorem ushiftRight_regWrite_w16 (q : RegNum) : (lp.regWrite .w16 r rex v).x[q] >>> 16 = lp.x[q] >>> 16 := by
  rw [getElem_regWrite_w16]
  split
  · next h => rw [h, ushiftRight_write16]
  · rfl

/-- A 32-bit register write puts the doubleword with bits 63:32 equal to 0 (R24). -/
theorem getElem_regWrite_w32 (q : RegNum) : (lp.regWrite .w32 r rex v).x[q] =
    if q = r then (v.extractLsb' 0 32).setWidth 64 else lp.x[q] := getElem_setX ..

theorem getElem_regWrite_w64 (q : RegNum) : (lp.regWrite .w64 r rex v).x[q] = if q = r then v else lp.x[q] :=
  getElem_setX ..

end

/-! ## The exchange of two operands -/

/-- Two register operands of a width hold each other's values, the rest of the register file is as the width says
(41_xchg.md R140). -/
def swappedAt (w : Width) (rex : Bool) (a b : RegNum) (l m : LP) : Prop :=
  match w with
  | .w8 => swapped8 a b rex l m
  | .w16 => swapped16 a b l m
  | .w32 => swapped32 a b l m
  | .w64 => swapped64 a b l m

/-- The logical processor after both writes of `XchgRR`. -/
def LP.swap (lp : LP) (w : Width) (a b : RegNum) (rex : Bool) : LP :=
  (lp.regWrite w a rex (lp.regRead w b rex)).regWrite w b rex (lp.regRead w a rex)

theorem swap_swapped8 (lp : LP) (a b : RegNum) (rex : Bool) : swapped8 a b rex lp (lp.swap .w8 a b rex) := by
  have low : ∀ x : Byte, (x.setWidth 64).setWidth 8 = x := fun x => BitVec.eq_of_toNat_eq (by simp)
  have bytes : ∀ h, byteAt (lp.swap .w8 a b rex) h =
      if h = byteHome b rex then byteAt lp (byteHome a rex)
      else if h = byteHome a rex then byteAt lp (byteHome b rex) else byteAt lp h := fun h => by
    rw [LP.swap, byteAt_regWrite_w8, byteAt_regWrite_w8, regRead_w8, regRead_w8, low, low]
  refine ⟨?_, ?_, fun h ha hb => ?_, fun r => ?_⟩
  · rw [bytes, if_pos rfl]
    split
    · next h => rw [h]
    · rfl
  · rw [bytes, if_pos rfl]
  · rw [bytes, if_neg hb, if_neg ha]
  · rw [LP.swap, ushiftRight_regWrite_w8, ushiftRight_regWrite_w8]

theorem swap_swapped16 (lp : LP) (a b : RegNum) (rex : Bool) : swapped16 a b lp (lp.swap .w16 a b rex) := by
  have low : ∀ r : RegNum, (lp.regRead .w16 r rex).setWidth 16 = lp.x[r].setWidth 16 := fun r =>
    BitVec.eq_of_toNat_eq (by simp [LP.regRead])
  have half : ∀ q : RegNum, (lp.swap .w16 a b rex).x[q].setWidth 16 =
      if q = b then lp.x[a].setWidth 16 else if q = a then lp.x[b].setWidth 16 else lp.x[q].setWidth 16 := fun q => by
    rw [LP.swap, setWidth_regWrite_w16, setWidth_regWrite_w16, low, low]
  have rest : ∀ q : RegNum, (lp.swap .w16 a b rex).x[q] >>> 16 = lp.x[q] >>> 16 := fun q => by
    rw [LP.swap, ushiftRight_regWrite_w16, ushiftRight_regWrite_w16]
  refine ⟨?_, ?_, rest a, rest b, fun r ha hb => ?_⟩
  · rw [half]
    split
    · next h => rw [h]
    · rw [if_pos rfl]
  · rw [half, if_pos rfl]
  · exact word_eq_of_parts 16 (by rw [half, if_neg hb, if_neg ha]) (rest r)

theorem swap_swapped32 (lp : LP) (a b : RegNum) (rex : Bool) : swapped32 a b lp (lp.swap .w32 a b rex) := by
  have low : ∀ r : RegNum, ((lp.regRead .w32 r rex).extractLsb' 0 32).setWidth 64 = (lp.x[r].setWidth 32).setWidth 64 :=
    fun r => BitVec.eq_of_toNat_eq (by simp [LP.regRead])
  have regs : ∀ q : RegNum, (lp.swap .w32 a b rex).x[q] = if q = b then (lp.x[a].setWidth 32).setWidth 64
      else if q = a then (lp.x[b].setWidth 32).setWidth 64 else lp.x[q] := fun q => by
    rw [LP.swap, getElem_regWrite_w32, getElem_regWrite_w32, low, low]
  refine ⟨?_, ?_, fun r ha hb => ?_⟩
  · rw [regs]
    split
    · next h => rw [h]
    · rw [if_pos rfl]
  · rw [regs, if_pos rfl]
  · rw [regs, if_neg hb, if_neg ha]

theorem swap_swapped64 (lp : LP) (a b : RegNum) (rex : Bool) : swapped64 a b lp (lp.swap .w64 a b rex) := by
  have regs : ∀ q : RegNum, (lp.swap .w64 a b rex).x[q] =
      if q = b then lp.x[a] else if q = a then lp.x[b] else lp.x[q] := fun q => by
    rw [LP.swap, getElem_regWrite_w64, getElem_regWrite_w64]
    rfl
  refine ⟨?_, ?_, fun r ha hb => ?_⟩
  · rw [regs]
    split
    · next h => rw [h]
    · rw [if_pos rfl]
  · rw [regs, if_pos rfl]
  · rw [regs, if_neg hb, if_neg ha]

theorem swap_swappedAt (lp : LP) (w : Width) (a b : RegNum) (rex : Bool) :
    swappedAt w rex a b lp (lp.swap w a b rex) := by
  cases w with
  | w8 => exact swap_swapped8 lp a b rex
  | w16 => exact swap_swapped16 lp a b rex
  | w32 => exact swap_swapped32 lp a b rex
  | w64 => exact swap_swapped64 lp a b rex

/-- The exchange of two operands changes registers and pc alone, and swaps the operands (41_xchg.md R140). -/
theorem xchgRR_swaps (s : State) (w : Width) (a b : RegNum) (rex : Bool) (len : Nat) :
    ∃ t, s.xchgRR w a b rex false len = .next t ∧ onlyRegistersAfter s t len ∧ swappedAt w rex a b s.lp t.lp := by
  refine ⟨(s.withLp (s.lp.swap w a b rex)).advance len, rfl, ?_, ?_⟩
  · have same : s.lp.swap w a b rex = { s.lp with x := (s.lp.swap w a b rex).x } := by
      unfold LP.swap
      rw [regWrite_eq, regWrite_eq s.lp]
    rw [same]
    exact advance_eq _ _
  · have swapped := swap_swappedAt s.lp w a b rex
    cases w <;> exact swapped

/-! ## The order of the two operands -/

/-- Which operand is named first does not matter to the swap. -/
theorem swappedAt_symm {w : Width} {rex : Bool} {a b : RegNum} {l m : LP} (h : swappedAt w rex a b l m) :
    swappedAt w rex b a l m := by
  cases w with
  | w8 =>
    obtain ⟨ha, hb, hother, hrest⟩ := h
    exact ⟨hb, ha, fun r h1 h2 => hother r h2 h1, hrest⟩
  | w16 =>
    obtain ⟨ha, hb, hra, hrb, hother⟩ := h
    exact ⟨hb, ha, hrb, hra, fun r h1 h2 => hother r h2 h1⟩
  | w32 =>
    obtain ⟨ha, hb, hother⟩ := h
    exact ⟨hb, ha, fun r h1 h2 => hother r h2 h1⟩
  | w64 =>
    obtain ⟨ha, hb, hother⟩ := h
    exact ⟨hb, ha, fun r h1 h2 => hother r h2 h1⟩

/-- Register files are equal when every register is. -/
theorem regs_ext {x y : Vector Word 16} (h : ∀ r : RegNum, x[r] = y[r]) : x = y :=
  Vector.ext fun i hi => h ⟨i, hi⟩

/-- A swap determines the register file. -/
theorem swappedAt_unique {w : Width} {rex : Bool} {a b : RegNum} {l m m' : LP} (h : swappedAt w rex a b l m)
    (h' : swappedAt w rex a b l m') : m.x = m'.x := by
  refine regs_ext fun r => ?_
  cases w with
  | w8 =>
    obtain ⟨ha, hb, hother, hrest⟩ := h
    obtain ⟨ha', hb', hother', hrest'⟩ := h'
    have bytes : ∀ q : RegNum × Bool, byteAt m q = byteAt m' q := by
      intro q
      by_cases hqa : q = byteHome a rex
      · rw [hqa, ha, ha']
      · by_cases hqb : q = byteHome b rex
        · rw [hqb, hb, hb']
        · rw [hother q hqa hqb, hother' q hqa hqb]
    exact word_eq_of_bytes16 (bytes (r, false)) (bytes (r, true)) ((hrest r).trans (hrest' r).symm)
  | w16 =>
    obtain ⟨ha, hb, hra, hrb, hother⟩ := h
    obtain ⟨ha', hb', hra', hrb', hother'⟩ := h'
    by_cases hqa : r = a
    · exact hqa ▸ word_eq_of_parts 16 (ha.trans ha'.symm) (hra.trans hra'.symm)
    · by_cases hqb : r = b
      · exact hqb ▸ word_eq_of_parts 16 (hb.trans hb'.symm) (hrb.trans hrb'.symm)
      · exact (hother r hqa hqb).trans (hother' r hqa hqb).symm
  | w32 =>
    obtain ⟨ha, hb, hother⟩ := h
    obtain ⟨ha', hb', hother'⟩ := h'
    by_cases hqa : r = a
    · exact hqa ▸ ha.trans ha'.symm
    · by_cases hqb : r = b
      · exact hqb ▸ hb.trans hb'.symm
      · exact (hother r hqa hqb).trans (hother' r hqa hqb).symm
  | w64 =>
    obtain ⟨ha, hb, hother⟩ := h
    obtain ⟨ha', hb', hother'⟩ := h'
    by_cases hqa : r = a
    · exact hqa ▸ ha.trans ha'.symm
    · by_cases hqb : r = b
      · exact hqb ▸ hb.trans hb'.symm
      · exact (hother r hqa hqb).trans (hother' r hqa hqb).symm

/-- The exchange of two operands is symmetric (41_xchg.md R140). -/
theorem xchgRR_symm (s : State) (w : Width) (a b : RegNum) (rex lock : Bool) (len : Nat) :
    s.xchgRR w a b rex lock len = s.xchgRR w b a rex lock len := by
  cases lock with
  | true => rfl
  | false =>
    obtain ⟨t, ht, honly, hswap⟩ := xchgRR_swaps s w a b rex len
    obtain ⟨t', ht', honly', hswap'⟩ := xchgRR_swaps s w b a rex len
    rw [ht, ht', honly, honly', swappedAt_unique hswap (swappedAt_symm hswap')]

/-! ## The short forms and LOCK -/

/-- A short form with register number 0 moves the pc alone (30_encoding.md R101). -/
theorem xchgShort_zero (s : State) (w : Width) (rex : Bool) (len : Nat) :
    ∃ t, s.xchgShort w 0 rex false len = .next t ∧ onlyRegistersAfter s t len ∧ t.lp.x = s.lp.x :=
  ⟨s.advance len, rfl, advance_eq s len, rfl⟩

/-- A short form exchanges register 0 with another register (41_xchg.md R141 to R143). -/
theorem xchgShort_swaps (s : State) (w : Width) {r : RegNum} (hr : r ≠ 0) (rex : Bool) (len : Nat) :
    ∃ t, s.xchgShort w r rex false len = .next t ∧ onlyRegistersAfter s t len ∧ swappedAt w rex 0 r s.lp t.lp := by
  rw [State.xchgShort, if_neg hr]
  exact xchgRR_swaps s w 0 r rex len

theorem xchgRR_lock (s : State) (w : Width) (a b : RegNum) (rex : Bool) (len : Nat) :
    s.xchgRR w a b rex true len = .next (recorded s .ud none) := rfl

/-- A short form with LOCK raises #UD, register 0 included (41_xchg.md R152). -/
theorem xchgShort_lock (s : State) (w : Width) (r : RegNum) (rex : Bool) (len : Nat) :
    s.xchgShort w r rex true len = .next (recorded s .ud none) := by
  unfold State.xchgShort
  split
  · rfl
  · exact xchgRR_lock ..

/-! ## The obligations -/

/-- Settles O14: register 0 with itself keeps its bits, every other register is exchanged. -/
theorem xchgAxSwaps : Obligations.XchgAxSwaps := by
  intro s p r hlock
  show ∃ t, s.xchgShort .w16 r p.rex p.lock (p.len + 1) = .next t ∧ _
  rw [hlock]
  by_cases hr : r = 0
  · obtain ⟨t, ht, honly, hx⟩ := xchgShort_zero s .w16 p.rex (p.len + 1)
    exact ⟨t, hr ▸ ht, honly, by simp [swapped16, hx, hr]⟩
  · exact xchgShort_swaps s .w16 hr p.rex (p.len + 1)

/-- Settles O15: register 0 with itself writes nothing, every other register is exchanged. -/
theorem xchgEaxSwaps : Obligations.XchgEaxSwaps := by
  intro s p r hlock
  show ∃ t, s.xchgShort .w32 r p.rex p.lock (p.len + 1) = .next t ∧ _
  rw [hlock]
  by_cases hr : r = 0
  · simp only [if_pos hr]
    exact hr ▸ xchgShort_zero s .w32 p.rex (p.len + 1)
  · simp only [if_neg hr]
    exact xchgShort_swaps s .w32 hr p.rex (p.len + 1)

/-- Settles O16: register 0 with itself keeps its value, every other register is exchanged. -/
theorem xchgRaxSwaps : Obligations.XchgRaxSwaps := by
  intro s p r hlock
  show ∃ t, s.xchgShort .w64 r true p.lock (p.len + 1) = .next t ∧ _
  rw [hlock]
  by_cases hr : r = 0
  · obtain ⟨t, ht, honly, hx⟩ := xchgShort_zero s .w64 true (p.len + 1)
    exact ⟨t, hr ▸ ht, honly, by simp [swapped64, hx, hr]⟩
  · exact xchgShort_swaps s .w64 hr true (p.len + 1)

/-- Settles O17: both forms are the exchange at 8 bits. -/
theorem xchgByteRegistersSwap : Obligations.XchgByteRegistersSwap := by
  intro s p a g hlock
  show (∃ t, s.xchgRR .w8 a g false p.lock (p.len + 2) = .next t ∧ _) ∧
    ∃ t, s.xchgRR .w8 a g true p.lock (p.len + 2) = .next t ∧ _
  rw [hlock]
  exact ⟨xchgRR_swaps s .w8 a g false (p.len + 2), xchgRR_swaps s .w8 a g true (p.len + 2)⟩

/-- Settles O18: the three forms are the exchange at 16, 32 and 64 bits. -/
theorem xchgWideRegistersSwap : Obligations.XchgWideRegistersSwap := by
  intro s p a g hlock
  show (∃ t, s.xchgRR .w16 a g p.rex p.lock (p.len + 2) = .next t ∧ _) ∧
    (∃ t, s.xchgRR .w32 a g p.rex p.lock (p.len + 2) = .next t ∧ _) ∧
    ∃ t, s.xchgRR .w64 a g true p.lock (p.len + 2) = .next t ∧ _
  rw [hlock]
  exact ⟨xchgRR_swaps s .w16 a g p.rex (p.len + 2), xchgRR_swaps s .w32 a g p.rex (p.len + 2),
    xchgRR_swaps s .w64 a g true (p.len + 2)⟩

/-- Settles O19: every form of two registers is the symmetric `State.xchgRR`. -/
theorem xchgOfRegistersIsSymmetric : Obligations.XchgOfRegistersIsSymmetric :=
  fun s p a g => ⟨xchgRR_symm s .w8 a g false p.lock _, xchgRR_symm s .w8 a g true p.lock _,
    xchgRR_symm s .w16 a g p.rex p.lock _, xchgRR_symm s .w32 a g p.rex p.lock _, xchgRR_symm s .w64 a g true p.lock _⟩

/-- Settles O20: LOCK is checked by the exchange of registers and by the short forms. -/
theorem xchgLockWithoutMemoryRaisesUd : Obligations.XchgLockWithoutMemoryRaisesUd := by
  intro s p a g hlock
  have short : ∀ w rex len, s.xchgShort w g rex p.lock len = .next (recorded s .ud none) := fun w rex len => by
    rw [hlock, xchgShort_lock]
  have pair : ∀ w rex len, s.xchgRR w a g rex p.lock len = .next (recorded s .ud none) := fun w rex len => by
    rw [hlock, xchgRR_lock]
  exact ⟨short _ _ _, short _ _ _, short _ _ _, pair _ _ _, pair _ _ _, pair _ _ _, pair _ _ _, pair _ _ _⟩

end Sys2Proof.Machine
end

/-! # XCHG with memory

What is read after a write of several bytes (20_memory.md R53 to R55), what the exchange of a register with memory
leaves (41_xchg.md R149), and what its operand's access may answer instead (R154, 20_memory.md R60, R62, R72). -/

section
namespace Sys2Proof.Machine

/-! ## A register read after a write -/

/-- The operand just written reads as the value's low bits (10_state.md R23, R24). -/
theorem regRead_regWrite (lp : LP) (w : Width) (r : RegNum) (rex : Bool) (v : Word) :
    (lp.regWrite w r rex v).regRead w r rex = w.trunc v := by
  cases w with
  | w8 => rw [regRead_w8, byteAt_regWrite_w8, if_pos rfl, Width.trunc]
  | w16 =>
    have low : ∀ u : Word, u.extractLsb' 0 16 = u.setWidth 16 := fun u => BitVec.eq_of_toNat_eq (by simp)
    show ((lp.regWrite .w16 r rex v).x[r].extractLsb' 0 16).setWidth 64 = _
    rw [low, setWidth_regWrite_w16, if_pos rfl, Width.trunc]
  | w32 =>
    show ((lp.regWrite .w32 r rex v).x[r].extractLsb' 0 32).setWidth 64 = _
    rw [getElem_regWrite_w32, if_pos rfl]
    exact BitVec.eq_of_toNat_eq (by simp [Width.trunc])
  | w64 =>
    show (lp.regWrite .w64 r rex v).x[r] = v
    rw [getElem_regWrite_w64, if_pos rfl]

/-- A register write leaves the rest of its register as its width says (10_state.md R24). -/
theorem restOfRegister_regWrite (lp : LP) (w : Width) (r : RegNum) (rex : Bool) (v : Word) :
    restOfRegister w r rex lp (lp.regWrite w r rex v) := by
  cases w with
  | w8 =>
    refine ⟨fun h hne => ?_, ushiftRight_regWrite_w8 lp r rex v _⟩
    rw [byteAt_regWrite_w8, if_neg hne]
  | w16 => exact ushiftRight_regWrite_w16 lp r rex v r
  | w32 =>
    show (lp.regWrite .w32 r rex v).x[r] >>> 32 = 0
    rw [getElem_regWrite_w32, if_pos rfl]
    exact BitVec.eq_of_toNat_eq (by simp [Nat.shiftRight_eq_div_pow]; omega)
  | w64 => trivial

/-! ## A memory read after a write -/

theorem memWrite_mode (s : State) (la v : Word) (n : Nat) : (s.memWrite la n v).lp.mode = s.lp.mode := by
  obtain ⟨wb, h⟩ := writeBytes_lp s la v 0 n
  rw [State.memWrite, h]

/-- Byte `k` of an operand just written. -/
theorem readByte_memWrite {s : State} {la v : Word} {n k : Nat} (hn : n ≤ 8) (hk : k < n) :
    (s.memWrite la n v).readByte (addrAt s.lp.mode la k) = some (byteOf v k) :=
  readByte_writeBytes_same s la v 0 n k (by omega) (Nat.zero_le k) (by omega)

/-- A byte outside an operand just written. -/
theorem readByte_memWrite_other {s : State} {la v : Word} {n a : Nat} (h : ∀ k, k < n → a ≠ addrAt s.lp.mode la k) :
    (s.memWrite la n v).readByte a = s.readByte a :=
  readByte_writeBytes_other s la v 0 n a fun j _ hj => h j (by omega)

/-- A read at or inside what was just written sees the written bytes, wherever it starts (R53, R54). -/
theorem memRead_memWrite {s : State} {la la' v u : Word} {n n' off : Nat} (hn : n ≤ 8) (hoff : off + n' ≤ n)
    (haddr : ∀ k, addrAt s.lp.mode la' k = addrAt s.lp.mode la (off + k)) (hu : u.toNat < 2 ^ (8 * n'))
    (hbytes : ∀ k, k < n' → byteOf u k = byteOf v (off + k)) : (s.memWrite la n v).memRead la' n' = some u := by
  refine (memRead_eq_some (by omega)).2 ⟨hu, fun k hk => ?_⟩
  rw [memWrite_mode, haddr, readByte_memWrite hn (by omega), hbytes k hk]

theorem getLsbD_byteOf (v : Word) (k i : Nat) (hi : i < 8) : (byteOf v k).getLsbD i = v.getLsbD (8 * k + i) := by
  rw [byteOf, BitVec.getLsbD_setWidth, BitVec.getLsbD_ushiftRight, decide_eq_true hi, Bool.true_and]

/-- A byte of some bits of a word is a byte of the word. -/
theorem byteOf_extractLsb' (v : Word) (off n k : Nat) (hk : 8 * k + 8 ≤ n) (hn : n ≤ 64) :
    byteOf ((v.extractLsb' (8 * off) n).setWidth 64) k = byteOf v (off + k) := by
  apply BitVec.eq_of_getLsbD_eq
  intro i hi
  rw [getLsbD_byteOf _ _ _ hi, getLsbD_byteOf _ _ _ hi, BitVec.getLsbD_setWidth, BitVec.getLsbD_extractLsb',
    decide_eq_true (show 8 * k + i < 64 by omega), decide_eq_true (show 8 * k + i < n by omega), Bool.true_and,
    Bool.true_and]
  congr 1
  omega

theorem trunc_eq_extract (w : Width) (v : Word) : w.trunc v = (v.extractLsb' 0 (8 * w.bytes)).setWidth 64 := by
  cases w <;> exact BitVec.eq_of_toNat_eq (by simp [Width.trunc, Width.bytes])

/-- Settles O30: each read is of bytes just written, from byte 0 or byte 3 on. -/
theorem readAfterWriteSeesTheBytes : Obligations.ReadAfterWriteSeesTheBytes := by
  intro s la v w
  have start : ∀ k, addrAt s.lp.mode la k = addrAt s.lp.mode la (0 + k) := fun k => by rw [Nat.zero_add]
  have fourth : ∀ k, addrAt s.lp.mode (la + 3) k = addrAt s.lp.mode la (3 + k) := fun k => by
    have hsum : la + 3 + BitVec.ofNat 64 k = la + BitVec.ofNat 64 (3 + k) := by
      rw [BitVec.add_assoc, BitVec.ofNat_add]
      rfl
    cases s.lp.mode <;> simp only [addrAt, hsum]
  have width := width_le w
  refine ⟨memRead_memWrite width (by omega) start (trunc_lt w v) fun k hk => ?_,
    memRead_memWrite (by decide) (by decide) start ?_ fun k hk => byteOf_extractLsb' v 0 16 k (by omega) (by decide),
    memRead_memWrite (by decide) (by decide) fourth ?_ fun k hk => byteOf_extractLsb' v 3 8 k (by omega) (by decide),
    fun a h => readByte_memWrite_other h⟩
  · rw [trunc_eq_extract]
    exact byteOf_extractLsb' v 0 (8 * w.bytes) k (by omega) (by omega)
  · simp; omega
  · simp; omega

/-! ## The state after an exchange -/

/-- The state after the exchange of the register `g` with `w.bytes` bytes at `la` that held `tm`. -/
def State.exchanged (s : State) (w : Width) (g : RegNum) (rex : Bool) (la tm : Word) (len : Nat) : State :=
  ((s.memWrite la w.bytes (s.lp.regRead w g rex)).regWrite w g rex tm).advance len

section
variable (s : State) (w : Width) (g : RegNum) (rex : Bool) (la tm : Word) (len : Nat)

/-- Of its logical processor an exchange changes a register operand, the pc and the write buffer. -/
theorem exchanged_lp_eq : ∃ wb, (s.exchanged w g rex la tm len).lp =
    (({ s.lp with wbuf := wb } : LP).regWrite w g rex tm).setPc (pcAfter s.lp len) := by
  obtain ⟨wb, h⟩ := writeBytes_lp s la (s.lp.regRead w g rex) 0 w.bytes
  refine ⟨wb, ?_⟩
  rw [State.exchanged, advance_lp, sregWrite_lp, State.memWrite, h, nextPc_eq_pcAfter]
  simp only [pcAfter, regWrite_pc, regWrite_mode]

theorem exchanged_mem :
    (s.exchanged w g rex la tm len).mem = (s.memWrite la w.bytes (s.lp.regRead w g rex)).mem := rfl

theorem exchanged_wbuf :
    (s.exchanged w g rex la tm len).lp.wbuf = (s.memWrite la w.bytes (s.lp.regRead w g rex)).lp.wbuf := by
  simp [State.exchanged]

theorem exchanged_rtmActive : (s.exchanged w g rex la tm len).lp.rtmActive = s.lp.rtmActive := by
  obtain ⟨wb, h⟩ := exchanged_lp_eq s w g rex la tm len
  rw [h, setPc_rtmActive, regWrite_rtmActive]

theorem exchanged_mode : (s.exchanged w g rex la tm len).lp.mode = s.lp.mode := by
  obtain ⟨wb, h⟩ := exchanged_lp_eq s w g rex la tm len
  rw [h, setPc_mode, regWrite_mode]

/-- What is read depends on memory, the write buffer and RTM_ACTIVE alone (20_memory.md R66). -/
theorem readByte_congr {s t : State} (hact : t.lp.rtmActive = s.lp.rtmActive) (hwbuf : t.lp.wbuf = s.lp.wbuf)
    (hmem : t.mem = s.mem) (a : Nat) : t.readByte a = s.readByte a := by
  simp only [State.readByte, hact, hwbuf, hmem]

theorem exchanged_readByte (a : Nat) : (s.exchanged w g rex la tm len).readByte a =
    (s.memWrite la w.bytes (s.lp.regRead w g rex)).readByte a := by
  refine readByte_congr ?_ (exchanged_wbuf ..) (exchanged_mem ..) a
  obtain ⟨wb, h⟩ := writeBytes_lp s la (s.lp.regRead w g rex) 0 w.bytes
  rw [exchanged_rtmActive, State.memWrite, h]

/-- The register operand after the exchange. -/
theorem exchanged_regRead : (s.exchanged w g rex la tm len).lp.regRead w g rex = w.trunc tm := by
  obtain ⟨wb, h⟩ := exchanged_lp_eq s w g rex la tm len
  rw [h]
  exact regRead_regWrite ..

/-- The memory operand after the exchange. -/
theorem exchanged_memRead : (s.exchanged w g rex la tm len).memRead la w.bytes = some (s.lp.regRead w g rex) := by
  refine (memRead_eq_some (width_le w)).2 ⟨regRead_lt .., fun k hk => ?_⟩
  rw [exchanged_mode, exchanged_readByte]
  exact readByte_memWrite (width_le w) hk

end

/-- The exchange answers a next state where no byte is text and each has a value. -/
theorem exchange_eq_next {s : State} {w : Width} {la : Word}
    (htext : ∀ k, k < w.bytes → s.inText (addrAt s.lp.mode la k) = false)
    (hval : ∀ k, k < w.bytes → (s.readByte (addrAt s.lp.mode la k)).isSome = true) (g : RegNum) (rex : Bool)
    (len : Nat) :
    ∃ tm, s.memRead la w.bytes = some tm ∧ s.exchange w g rex la len = .next (s.exchanged w g rex la tm len) := by
  have hov : s.overlapsText la w.bytes = false := by
    rw [← Bool.not_eq_true, overlapsText_iff]
    rintro ⟨k, hk, ht⟩
    rw [htext k hk] at ht
    cases ht
  obtain ⟨bs, hbs⟩ := Option.isSome_iff_exists.1
    (readBytes_isSome s la 0 w.bytes fun j hj => by rw [Nat.zero_add]; exact hval j hj)
  have htm : s.memRead la w.bytes = some (wordOfBytes bs) := by rw [State.memRead, hbs]
  exact ⟨_, htm, exchange_next.2 ⟨hov, _, htm, rfl⟩⟩

/-- After the exchange each operand holds what the other held, and the rest is as it was (41_xchg.md R149). -/
theorem exchanged_memExchanged {s : State} {w : Width} {m : Mem} {len : Nat} {tm : Word} (g : RegNum) (rex : Bool)
    (htm : s.memRead (s.lp.operandFacts w m len).linear w.bytes = some tm) :
    memExchanged s (s.exchanged w g rex (s.lp.operandFacts w m len).linear tm len) w g rex m len := by
  generalize hla : (s.lp.operandFacts w m len).linear = la at htm
  have haddr : ∀ k, operandAddr s w m len k = addrAt s.lp.mode la k := fun k => by rw [operandAddr, hla]
  obtain ⟨hlt, hbytes⟩ := (memRead_eq_some (width_le w)).1 htm
  have others : othersUnchanged s (s.exchanged w g rex la tm len) :=
    ⟨writeBytes_hw .., writeBytes_before .., writeBytes_after .., writeBytes_text .., writeBytes_endAddr ..⟩
  refine ⟨fun k hk => ?_, fun k hk => ?_, fun a ha => ⟨?_, ?_⟩, fun hact => ?_, fun hact => ?_, ?_⟩
  · rw [haddr, exchanged_readByte]
    exact readByte_memWrite (width_le w) hk
  · rw [haddr, hbytes k hk, exchanged_regRead, trunc_eq_self w tm hlt]
  · rw [exchanged_readByte]
    exact readByte_memWrite_other fun k hk => haddr k ▸ ha k hk
  · exact writeBytes_mem_other s la _ 0 w.bytes a fun k _ hk => haddr k ▸ ha k (by omega)
  · exact writeBytes_mem_active s la _ 0 w.bytes hact
  · rw [exchanged_wbuf]
    exact writeBytes_wbuf_inactive s la _ 0 w.bytes hact
  · obtain ⟨wb, h⟩ := exchanged_lp_eq s w g rex la tm len
    rw [h]
    refine ⟨fun r hr => getElem_regWrite_other _ w g rex tm r hr, ?_, rfl, ?_, others⟩
    · have rest := restOfRegister_regWrite { s.lp with wbuf := wb } w g rex tm
      cases w <;> exact rest
    · simp [onlyRegsPcWbuf, LP.environment]

/-! ## The forms with a memory operand -/

/-- An operand that is ready is exchanged (41_xchg.md R149). -/
theorem xchgRM_exchanges {s : State} {w : Width} {m : Mem} {len : Nat} (h : memReady s w m len) (g : RegNum)
    (rex : Bool) : ∃ t, s.xchgRM w g rex m len = .next t ∧ memExchanged s t w g rex m len := by
  obtain ⟨hx, hready⟩ := h
  obtain ⟨tm, htm, hnext⟩ := exchange_eq_next (fun k hk => (hready k hk).1) (fun k hk => (hready k hk).2) g rex len
  refine ⟨_, ?_, exchanged_memExchanged g rex htm⟩
  rw [State.xchgRM, hx]
  exact hnext

/-- Settles O21: all five forms are `State.xchgRM`. -/
theorem xchgMemoryExchanges : Obligations.XchgMemoryExchanges :=
  fun _ p _ g => ⟨fun h => xchgRM_exchanges h g false, fun h => xchgRM_exchanges h g true,
    fun h => xchgRM_exchanges h g p.rex, fun h => xchgRM_exchanges h g p.rex, fun h => xchgRM_exchanges h g true⟩

/-- `i` is the form of width `w` with the memory operand `m` and the register `g`. -/
def isMemForm (w : Width) (p : Pfx) (m : Mem) (g : RegNum) (i : Instr) : Prop :=
  (w = .w8 ∧ (i = .xchgRm8R8 p (.mem m) g ∨ i = .xchgRm8R8Rex p (.mem m) g)) ∨
    (w = .w16 ∧ i = .xchgRm16R16 p (.mem m) g) ∨ (w = .w32 ∧ i = .xchgRm32R32 p (.mem m) g) ∨
    (w = .w64 ∧ i = .xchgRm64R64 p (.mem m) g)

/-- Each of the five forms is `State.xchgRM` at its width. -/
theorem exec_memForm {w : Width} {p : Pfx} {m : Mem} {g : RegNum} {i : Instr} (h : isMemForm w p m g i) (s : State) :
    ∃ rex, exec i s = s.xchgRM w g rex m i.len := by
  rcases h with ⟨rfl, rfl | rfl⟩ | ⟨rfl, rfl⟩ | ⟨rfl, rfl⟩ | ⟨rfl, rfl⟩
  · exact ⟨false, rfl⟩
  · exact ⟨true, rfl⟩
  · exact ⟨p.rex, rfl⟩
  · exact ⟨p.rex, rfl⟩
  · exact ⟨true, rfl⟩

/-- One of the applicable exceptions is recorded, the only one where there is one (60_exceptions.md R180). -/
theorem raiseOneOf_recorded (s : State) (e : Exc) (es : List Exc) :
    ∃ e' d, e' ∈ e :: es ∧ s.raiseOneOf e es = recorded { s with draws := d } e'.name e'.code ∧
      (e :: es = [e'] → d = s.draws) := by
  cases es with
  | nil => exact ⟨e, s.draws, List.mem_singleton.2 rfl, rfl, fun _ => rfl⟩
  | cons e₂ es =>
    refine ⟨(e :: e₂ :: es).getD (Config.freeException s.draws % ((e₂ :: es).length + 1)) e, s.draws + 1, ?_, rfl,
      fun h => absurd (congrArg List.length h) (by simp)⟩
    have hlt : Config.freeException s.draws % ((e₂ :: es).length + 1) < (e :: e₂ :: es).length :=
      Nat.mod_lt _ (Nat.succ_pos _)
    rw [List.getD_eq_getElem _ _ hlt]
    exact List.getElem_mem hlt

/-- Settles O24: the access check stands before the exchange. -/
theorem xchgMemoryExceptionIsRecorded : Obligations.XchgMemoryExceptionIsRecorded := by
  intro s w p m g i hform hne
  obtain ⟨rex, hexec⟩ := exec_memForm hform s
  obtain ⟨e, es, hx⟩ := List.exists_cons_of_ne_nil hne
  obtain ⟨e', d, hmem, hrec, hone⟩ := raiseOneOf_recorded s e es
  rw [hexec, State.xchgRM, hx]
  exact ⟨e', d, hmem, congrArg _ hrec, hone⟩

/-- Settles O25: the exchange asks for program text first, then for the bytes' values. -/
theorem xchgMemoryStops : Obligations.XchgMemoryStops := by
  intro s w p m g i hform hx
  obtain ⟨rex, hexec⟩ := exec_memForm hform s
  rw [hexec, State.xchgRM, hx]
  refine ⟨fun htext => ?_, fun hclear hnone => ?_⟩
  · exact if_pos ((overlapsText_iff ..).2 htext)
  · obtain ⟨k, hk, hnone⟩ := hnone
    have hov : ¬ s.overlapsText (s.lp.operandFacts w m i.len).linear w.bytes = true := by
      rw [overlapsText_iff]
      rintro ⟨j, hj, ht⟩
      exact Bool.false_ne_true ((hclear j hj).symm.trans ht)
    show s.exchange w g rex _ i.len = _
    rw [State.exchange, if_neg hov, memRead_eq_none hk hnone]

/-- Settles O48: by definition. -/
theorem operandsGoThroughAccess : Obligations.OperandsGoThroughAccess := fun _ _ _ _ => ⟨rfl, rfl⟩

/-! ## Two exchanges at one place -/

/-- Outside transactions, in one mode, what is read depends on the shared memory alone. -/
theorem memRead_of_inactive {s t : State} (hs : s.lp.rtmActive = false) (ht : t.lp.rtmActive = false)
    (hmode : t.lp.mode = s.lp.mode) (hmem : t.mem = s.mem) (la : Word) {n : Nat} (hn : n ≤ 8) {v : Word}
    (h : s.memRead la n = some v) : t.memRead la n = some v := by
  obtain ⟨hlt, hbytes⟩ := (memRead_eq_some hn).1 h
  refine (memRead_eq_some hn).2 ⟨hlt, fun k hk => ?_⟩
  rw [readByte_inactive ht, hmem, hmode, ← readByte_inactive hs, hbytes k hk]

/-- Settles O35: the second exchange reads the memory the first has left. -/
theorem laterExchangeReadsTheEarlier : Obligations.LaterExchangeReadsTheEarlier := by
  intro s t v l w g h rex rex' la len len' hs hl hmode ht hv
  obtain ⟨-, tm, htm, rfl⟩ := exchange_next.1 ht
  obtain ⟨-, um, hum, rfl⟩ := exchange_next.1 hv
  change (State.withLp (s.exchanged w g rex la tm len) l).memRead la w.bytes = some um at hum
  have hread := memRead_of_inactive (t := (s.exchanged w g rex la tm len).withLp l)
    ((exchanged_rtmActive ..).trans hs) hl (hmode.trans (exchanged_mode ..).symm) rfl la (width_le w)
    (exchanged_memRead s w g rex la tm len)
  have hval : um = s.lp.regRead w g rex := Option.some.inj (hum.symm.trans hread)
  have hlast : ((State.withLp (s.exchanged w g rex la tm len) l).exchanged w h rex' la um len').lp.regRead w h rex' =
      s.lp.regRead w g rex := by
    rw [exchanged_regRead, hval, trunc_eq_self w _ (regRead_lt ..)]
  refine ⟨hlast, fun hw hg hh h0 => ?_⟩
  subst hw
  have hzero : tm = 0 := Option.some.inj (htm.symm.trans h0)
  refine ⟨?_, hlast.trans hg, ?_⟩
  · refine (exchanged_regRead s .w32 g rex la tm len).trans ?_
    rw [hzero]
    rfl
  · exact (exchanged_memRead _ .w32 h rex' la um len').trans (congrArg some hh)

end Sys2Proof.Machine
end

/-! # The frame of XCHG

What an XCHG that answers a next state can have done, and what it leaves unchanged (41_xchg.md R151, R155, R158). -/

section
namespace Sys2Proof.Machine

/-- Everything that an XCHG of `len` bytes can do to the state when it answers a next state; `mem` says whether it has a
memory operand. -/
inductive XchgEffect (s : State) (len : Nat) (mem : Bool) : State → Prop
  /-- An exception is recorded; `d` is the counter after a free choice among several. -/
  | raised (e : Exc) (d : Nat) : XchgEffect s len mem ({ s with draws := d }.raise e)
  /-- General registers are written, no memory. -/
  | registers (x : Vector Word 16) : XchgEffect s len mem ((s.withLp { s.lp with x := x }).advance len)
  /-- A register is exchanged with memory. -/
  | exchanged (hm : mem = true) (w : Width) (g : RegNum) (rex : Bool) (la tm : Word) :
      XchgEffect s len mem (s.exchanged w g rex la tm len)

theorem xchgRR_xchgEffect {s t : State} {w : Width} {a b : RegNum} {rex lock mem : Bool} {len : Nat}
    (h : s.xchgRR w a b rex lock len = .next t) : XchgEffect s len mem t := by
  cases lock with
  | true => cases h; exact .raised excUd s.draws
  | false =>
    obtain ⟨t', ht', honly, -⟩ := xchgRR_swaps s w a b rex len
    cases ht'.symm.trans h
    rw [honly]
    have moved := advance_eq (s.withLp { s.lp with x := t.lp.x }) len
    exact moved ▸ .registers t.lp.x

theorem xchgShort_xchgEffect {s t : State} {w : Width} {r : RegNum} {rex lock mem : Bool} {len : Nat}
    (h : s.xchgShort w r rex lock len = .next t) : XchgEffect s len mem t := by
  unfold State.xchgShort at h
  split at h
  · split at h
    · cases h; exact .raised excUd s.draws
    · cases h; exact .registers s.lp.x
  · exact xchgRR_xchgEffect h

theorem xchgRM_xchgEffect {s t : State} {w : Width} {g : RegNum} {rex : Bool} {m : Mem} {len : Nat}
    (h : s.xchgRM w g rex m len = .next t) : XchgEffect s len true t := by
  unfold State.xchgRM at h
  split at h
  · next e es _ =>
    cases h
    obtain ⟨e', d, -, hrec, -⟩ := raiseOneOf_recorded s e es
    rw [hrec]
    exact .raised e' d
  · obtain ⟨-, tm, -, rfl⟩ := exchange_next.1 h
    exact .exchanged rfl w g rex _ tm

/-- The forms of opcodes 86 and 87, `mem` saying whether the operand is memory. -/
theorem xchgModRM_xchgEffect {s t : State} {w : Width} {rm : RM} {g : RegNum} {rex lock mem : Bool} {len : Nat}
    (hm : ∀ m, rm = .mem m → mem = true) (h : s.xchgModRM w rm g rex lock len = .next t) : XchgEffect s len mem t := by
  cases rm with
  | reg r => exact xchgRR_xchgEffect h
  | mem m => exact hm m rfl ▸ xchgRM_xchgEffect h

/-- Whatever an XCHG does is one of its effects. -/
theorem exec_xchgEffect {i : Instr} {s t : State} (hi : isXchg i = true) (h : exec i s = .next t) :
    XchgEffect s i.len (memOperandOf i).isSome t := by
  cases i with
  | xbeginRel16 p imm => cases hi
  | xbeginRel32 p imm => cases hi
  | xchgAxR16 p r => exact xchgShort_xchgEffect h
  | xchgEaxR32 p r => exact xchgShort_xchgEffect h
  | xchgRaxR64 p r => exact xchgShort_xchgEffect h
  | xchgRm8R8 p rm g => exact xchgModRM_xchgEffect (by rintro m rfl; rfl) h
  | xchgRm8R8Rex p rm g => exact xchgModRM_xchgEffect (by rintro m rfl; rfl) h
  | xchgRm16R16 p rm g => exact xchgModRM_xchgEffect (by rintro m rfl; rfl) h
  | xchgRm32R32 p rm g => exact xchgModRM_xchgEffect (by rintro m rfl; rfl) h
  | xchgRm64R64 p rm g => exact xchgModRM_xchgEffect (by rintro m rfl; rfl) h

/-- An XCHG changes of its logical processor registers, pc and write buffer, or the fault record alone. -/
theorem XchgEffect.frame {s t : State} {len : Nat} {mem : Bool} (h : XchgEffect s len mem t) :
    onlyRegsPcWbuf s.lp t.lp ∨ ∃ e d, t = ({ s with draws := d } : State).raise e := by
  cases h with
  | raised e d => exact .inr ⟨e, d, rfl⟩
  | registers x => exact .inl ⟨rfl, rfl, rfl, rfl, rfl, rfl, rfl, rfl⟩
  | exchanged _ w g rex la tm =>
    obtain ⟨wb, hlp⟩ := exchanged_lp_eq s w g rex la tm len
    rw [hlp]
    exact .inl (by simp [onlyRegsPcWbuf, LP.environment])

/-- Without a memory operand an XCHG leaves the shared memory and the write buffer. -/
theorem XchgEffect.mem_wbuf {s t : State} {len : Nat} (h : XchgEffect s len false t) :
    t.mem = s.mem ∧ t.lp.wbuf = s.lp.wbuf := by
  cases h with
  | raised e d => exact ⟨rfl, rfl⟩
  | registers x => exact ⟨rfl, rfl⟩
  | exchanged hm => cases hm

/-- Settles O22: each part is read off the effect. -/
theorem xchgFrame : Obligations.XchgFrame := by
  intro i s t hi h
  have heff := exec_xchgEffect hi h
  have hmem : memOperandOf i = none → t.mem = s.mem ∧ t.lp.wbuf = s.lp.wbuf := fun hm => by
    rw [hm] at heff
    exact heff.mem_wbuf
  have hkeep : t.lp.otherRegs = s.lp.otherRegs ∧ t.lp.environment = s.lp.environment ∧
      t.lp.nestCount = s.lp.nestCount ∧ t.lp.rtmActive = s.lp.rtmActive ∧ t.lp.fallback = s.lp.fallback ∧
      t.lp.checkpoint = s.lp.checkpoint ∧
      (t.lp.fault ≠ s.lp.fault → t.lp.x = s.lp.x ∧ t.lp.pc = s.lp.pc ∧ t.mem = s.mem ∧ t.lp.wbuf = s.lp.wbuf) := by
    rcases heff.frame with ⟨-, ho, he, hn, ha, hf, hc, hfault⟩ | ⟨e, d, rfl⟩
    · exact ⟨ho, he, hn, ha, hf, hc, fun hne => absurd hfault hne⟩
    · exact ⟨rfl, rfl, rfl, rfl, rfl, rfl, fun _ => ⟨rfl, rfl, rfl, rfl⟩⟩
  obtain ⟨ho, he, hn, ha, hf, hc, hfault⟩ := hkeep
  refine ⟨flagsUnaffected_of_exec_xchg hi h, ho, he, hn, ha, hf, hc, (exec_effect h).othersUnchanged, hfault,
    fun p r hform => hmem ?_, fun p a g hform => hmem ?_⟩
  · rcases hform with rfl | rfl | rfl <;> rfl
  · rcases hform with rfl | rfl | rfl | rfl | rfl <;> rfl

/-! ## The exceptions of a memory operand -/

theorem mem_excIf {cond : Bool} {name : ExcName} {code : Option Nat} {e : Exc} :
    e ∈ excIf cond name code ↔ e = ⟨name, code⟩ ∧ cond = true := by
  cases cond <;> simp [excIf]

theorem mem_pageFaultExc {f : AccessFacts} {e : Exc} :
    e ∈ pageFaultExc f ↔ ∃ code, e = ⟨.pf, some code⟩ ∧ f.pageFault = some code := by
  unfold pageFaultExc
  cases f.pageFault <;> simp

theorem unaligned_iff {la : Word} {n : Nat} : unaligned la n = true ↔ la.toNat % n ≠ 0 := decide_eq_true_iff

theorem nullCounts_iff {seg : SegReg} : nullCounts seg = true ↔ seg ∈ [SegReg.ds, .es, .fs, .gs] := by
  cases seg <;> decide

/-- Settles O23: in each mode the lists of `accessExceptions` are the rows of the table, in their order. -/
theorem memoryExceptionTable : Obligations.MemoryExceptionTable := by
  intro hw lp seg f n e
  unfold accessExceptions
  cases lp.mode with
  | real => simp [mem_excIf]
  | v8086 => simp [mem_excIf, mem_pageFaultExc, unaligned_iff]
  | long64 => simp [mem_excIf, mem_pageFaultExc, unaligned_iff, and_assoc]
  | protected32 => simp [mem_excIf, mem_pageFaultExc, unaligned_iff, nullCounts_iff, and_assoc, or_assoc]
  | compat => simp [mem_excIf, mem_pageFaultExc, unaligned_iff, nullCounts_iff, and_assoc, or_assoc]

end Sys2Proof.Machine
end

/-! # Operand addresses

Effective addresses as sums at the address size, segments (30_encoding.md R94 to R98), and what the access models answer
(20_memory.md R60). -/

section
namespace Sys2Proof.Machine

/-! ## Terms of the sum -/

/-- A displacement cut to its own width (R94, R95). -/
theorem setWidth_dispValue {w : Nat} (hw : w ≤ 64) (d : Disp w) : (dispValue d).setWidth w = dispAt w d := by
  cases d with
  | none => exact BitVec.setWidth_zero w 64
  | d8 v => exact setWidth_signExtend hw v
  | full v => exact (setWidth_signExtend hw v).trans (BitVec.signExtend_eq v)

/-- A base sum cut to 16 bits (R94). -/
theorem setWidth_base16 (lp : LP) (b : Base16) : (lp.base16 b).setWidth 16 = sum16 lp b := by
  cases b with
  | bxSi => exact BitVec.setWidth_add _ _ (by decide)
  | bxDi => exact BitVec.setWidth_add _ _ (by decide)
  | bpSi => exact BitVec.setWidth_add _ _ (by decide)
  | bpDi => exact BitVec.setWidth_add _ _ (by decide)
  | si => rfl
  | di => rfl
  | bp => rfl
  | bx => rfl

/-- An index shifted by its scale is multiplied by 1, 2, 4 or 8 (R96). -/
theorem indexValue_eq_index64 (lp : LP) (i : Option RegNum) (sc : Fin 4) : lp.indexValue i sc = index64 lp i sc := by
  cases i with
  | none => rfl
  | some r => exact BitVec.eq_of_toNat_eq (by simp [LP.indexValue, index64, Nat.shiftLeft_eq])

/-- An index cut to 32 bits (R95). -/
theorem setWidth_indexValue (lp : LP) (i : Option RegNum) (sc : Fin 4) :
    (lp.indexValue i sc).setWidth 32 = index32 lp i sc := by
  cases i with
  | none => rfl
  | some r =>
    rw [indexValue_eq_index64, index64, BitVec.setWidth_mul _ _ (by decide), index32,
      BitVec.setWidth_ofNat_of_le (by decide)]

/-! ## Effective addresses -/

/-- Settles O26: a sum cut to 16 bits is the sum of its terms cut to 16 bits. -/
theorem effectiveAddress16 : Obligations.EffectiveAddress16 := by
  intro lp len a67 seg hasz
  refine ⟨fun b d => ?_, fun v => ?_⟩
  · rw [LP.effAddr, hasz, cutTo, LP.addrSum, BitVec.setWidth_add _ _ (by decide), setWidth_base16,
      setWidth_dispValue (by decide)]
  · rw [LP.effAddr, hasz, cutTo, LP.addrSum]
    exact congrArg (·.setWidth 64) (setWidth_dispValue (by decide) (.full v))

/-- Settles O27: a sum cut to 32 bits is the sum of its terms cut to 32 bits. -/
theorem effectiveAddress32 : Obligations.EffectiveAddress32 := by
  intro lp len a67 seg hasz
  have add : ∀ u v : Word, (u + v).setWidth 32 = u.setWidth 32 + v.setWidth 32 := fun u v =>
    BitVec.setWidth_add u v (by decide)
  have full : ∀ v : BitVec 32, (v.signExtend 64).setWidth 32 = v := fun v => setWidth_dispValue (by decide) (.full v)
  refine ⟨fun b d => ?_, fun v => ?_, fun b i sc d => ?_, fun i sc v => ?_, fun hm v => ?_⟩
  · rw [LP.effAddr, hasz, cutTo, LP.addrSum, low32, add, setWidth_dispValue (by decide)]
  · rw [LP.effAddr, hasz, cutTo, LP.addrSum, low32, full]
  · rw [LP.effAddr, hasz, cutTo, LP.addrSum, low32, add, add, setWidth_indexValue, setWidth_dispValue (by decide)]
  · rw [LP.effAddr, hasz, cutTo, LP.addrSum, low32, add, setWidth_indexValue, full]
  · rw [LP.effAddr, hasz, cutTo, LP.addrSum, low32, LP.nextPc, hm]

/-- Settles O28: with 64-bit addressing the sum is not cut. -/
theorem effectiveAddress64 : Obligations.EffectiveAddress64 := by
  intro lp len a67 seg hasz
  have disp : ∀ d : Disp 32, dispValue d = disp64 d := fun d => by cases d <;> rfl
  refine ⟨fun b d => ?_, fun b i sc d => ?_, fun i sc v => ?_, fun v => ?_⟩
  · rw [LP.effAddr, hasz, cutTo, LP.addrSum, disp]
  · rw [LP.effAddr, hasz, cutTo, LP.addrSum, disp, indexValue_eq_index64]
  · rw [LP.effAddr, hasz, cutTo, LP.addrSum, indexValue_eq_index64]
  · rw [LP.effAddr, hasz, cutTo, LP.addrSum, nextPc_eq_pcAfter]

/-- The default segment in the words of the statements (R94 to R96). -/
theorem defaultSeg_eq_namedSegment (a : Addr) : defaultSeg a = namedSegment a := by
  cases a with
  | ind16 b d => cases b <;> rfl
  | ind b d => simp [defaultSeg, namedSegment, stackBase]
  | sib b i sc d => simp [defaultSeg, namedSegment, stackBase]
  | abs16 v => rfl
  | abs32 v => rfl
  | ripRel v => rfl
  | sibAbs i sc v => rfl

/-- Settles O29: the override where there is one, else the default segment. -/
theorem segmentOfAnOperand : Obligations.SegmentOfAnOperand :=
  fun m => ⟨fun g hg => by rw [segOf, hg]; rfl, fun hnone => by rw [segOf, hnone]; exact defaultSeg_eq_namedSegment _⟩

/-! ## The flat access model -/

/-- The width of a linear address of the mode (20_memory.md R50). -/
def linearBits (m : Mode) : Nat := if m = .long64 then 64 else 32

theorem linearOf_toNat (m : Mode) (v : Word) : (linearOf m v).toNat = v.toNat % 2 ^ linearBits m := by
  have hv := v.isLt
  cases m with
  | long64 => simp [linearOf, linearBits, Nat.mod_eq_of_lt hv]
  | real => simp [linearOf, low32, linearBits]; omega
  | v8086 => simp [linearOf, low32, linearBits]; omega
  | protected32 => simp [linearOf, low32, linearBits]; omega
  | compat => simp [linearOf, low32, linearBits]; omega

/-- Byte `k` of an operand is at its linear address plus `k`, at the width of linear addresses (R50, R53). -/
theorem addrAt_linearOf (m : Mode) (v : Word) (k : Nat) :
    addrAt m (linearOf m v) k = (v.toNat + k) % 2 ^ linearBits m := by
  cases m with
  | long64 => simp [addrAt, linearOf, linearBits]
  | real => simp [addrAt, linearOf, low32, linearBits]; omega
  | v8086 => simp [addrAt, linearOf, low32, linearBits]; omega
  | protected32 => simp [addrAt, linearOf, low32, linearBits]; omega
  | compat => simp [addrAt, linearOf, low32, linearBits]; omega

/-- Whether an address is a multiple of a width can be told from its linear address (R58). -/
theorem linearOf_mod (m : Mode) (v : Word) (w : Width) :
    (linearOf m v).toNat % w.bytes = v.toNat % w.bytes := by
  have hdvd : w.bytes ∣ 2 ^ linearBits m := by
    cases m <;> cases w <;> decide
  rw [linearOf_toNat, Nat.mod_mod_of_dvd _ hdvd]

theorem accessFacts_flat {lp : LP} (h : lp.access = .flat) (seg : SegReg) (ea : Word) (n : Nat) :
    lp.accessFacts seg ea n = ⟨linearOf lp.mode ea, false, false, false, none⟩ := by
  rw [LP.accessFacts, h]

/-- Settles O49: the table of exceptions with the facts of the flat model. -/
theorem flatOperandsAreAtTheirEffectiveAddress : Obligations.FlatOperandsAreAtTheirEffectiveAddress := by
  intro s w m len hhw hflat
  have hfacts : s.lp.operandFacts w m len = ⟨linearOf s.lp.mode (s.lp.effAddr len m), false, false, false, none⟩ :=
    accessFacts_flat hflat _ _ _
  constructor
  · intro k
    rw [operandAddr, hfacts, addrAt_linearOf, linearBits]
    split <;> rfl
  · intro e
    have hmod := linearOf_mod s.lp.mode (s.lp.effAddr len m) w
    have hcan := canonical_iff hhw (s.lp.effAddr len m)
    rw [State.operandExceptions, hfacts, memoryExceptionTable, ← hcan]
    cases hm : s.lp.mode with
    | long64 =>
      have hlin : linearOf .long64 (s.lp.effAddr len m) = s.lp.effAddr len m := rfl
      by_cases hss : segOf m = .ss
      · simp [hss, hlin, and_comm]
      · simp [hss, hlin, and_comm]
    | real => simp
    | v8086 => simp [← hmod, hm]
    | protected32 => simp [← hmod, hm]
    | compat => simp [← hmod, hm]

/-! ## The other access models -/

/-- The fault-code is that of a range that holds a byte of the operand, where there is one (log entry 15). -/
theorem pageFaultOf_cases (m : Mode) (holes : List PageHole) (la : Word) (n : Nat) :
    (∀ code, pageFaultOf m holes la n = some code →
      ∃ h ∈ holes, h.code = code ∧ ∃ k, k < n ∧ h.region.has (addrAt m la k) = true) ∧
      (pageFaultOf m holes la n = none → ∀ h ∈ holes, ∀ k, k < n → h.region.has (addrAt m la k) = false) := by
  unfold pageFaultOf
  split
  · next h hfind =>
    refine ⟨fun code hc => ?_, fun hc => by cases hc⟩
    cases hc
    have hbyte := List.find?_some hfind
    simp only [List.any_eq_true, List.mem_range] at hbyte
    exact ⟨h, List.mem_of_find?_eq_some hfind, rfl, hbyte⟩
  · next hfind =>
    refine ⟨fun code hc => (by cases hc), fun _ h hh k hk => ?_⟩
    have hno := List.find?_eq_none.1 hfind h hh
    simp only [List.any_eq_true, List.mem_range, not_exists, not_and, Bool.not_eq_true] at hno
    exact hno k hk

/-- Settles O50: the fields of `LP.accessFacts`. -/
theorem segmentedAccessFollowsTheRecords : Obligations.SegmentedAccessFollowsTheRecords := by
  intro lp seg ea n
  refine ⟨fun segs holes hacc => ?_, fun key hacc => by rw [LP.accessFacts, hacc]⟩
  intro f v
  have hf : f = ⟨linearOf lp.mode (v.base + ea), decide (v.bound + 1 < ea.toNat + n), !v.writable, v.null,
      pageFaultOf lp.mode holes (linearOf lp.mode (v.base + ea)) n⟩ := by
    show lp.accessFacts seg ea n = _
    rw [LP.accessFacts, hacc]
  obtain ⟨hsome, hnone⟩ := pageFaultOf_cases lp.mode holes (linearOf lp.mode (v.base + ea)) n
  rw [hf]
  refine ⟨?_, ?_, rfl, rfl, hsome, hnone, ?_⟩
  · cases lp.mode <;> rfl
  · rw [decide_eq_true_iff]
    omega
  · show lp.segView segs seg = _
    cases seg <;> simp [LP.segView, DataSegment.view, csBound_eq_highestOffset]

end Sys2Proof.Machine
end

/-! # What no instruction looks at

Instructions commute with setting the other logical processors and the privilege level, but for the level in the
alignment check of a memory operand (20_memory.md R68, 60_exceptions.md R186, R189). -/

section
namespace Sys2Proof.Machine

/-- A next state changed by a function. -/
def mapNext (f : State → State) : Result → Result
  | .next t => .next (f t)
  | .fault e => .fault e
  | .refused r => .refused r

/-- The state with other logical processors around the one that moves, and another privilege level of that one. -/
def State.recast (s : State) (b a : List LP) (c : Fin 4) : State :=
  { s with before := b, after := a, lp := { s.lp with cpl := c } }

section
variable (s : State) (b a : List LP) (c : Fin 4)

/-! ## What is read of a recast state -/

@[simp] theorem recast_mode : (s.recast b a c).lp.mode = s.lp.mode := rfl
@[simp] theorem recast_regRead (w : Width) (r : RegNum) (rex : Bool) :
    (s.recast b a c).lp.regRead w r rex = s.lp.regRead w r rex := rfl
@[simp] theorem recast_readByte (k : Nat) : (s.recast b a c).readByte k = s.readByte k := rfl
@[simp] theorem recast_overlapsText (la : Word) (n : Nat) :
    (s.recast b a c).overlapsText la n = s.overlapsText la n := rfl
@[simp] theorem recast_operandFacts (w : Width) (m : Mem) (len : Nat) :
    (s.recast b a c).lp.operandFacts w m len = s.lp.operandFacts w m len := rfl

@[simp] theorem recast_readBytes (la : Word) (k n : Nat) :
    (s.recast b a c).readBytes la k n = s.readBytes la k n := by
  induction n generalizing k with
  | zero => rfl
  | succ n ih => simp [State.readBytes, ih]

@[simp] theorem recast_memRead (la : Word) (n : Nat) : (s.recast b a c).memRead la n = s.memRead la n := by
  simp [State.memRead]

/-! ## The operations on a recast state -/

@[simp] theorem recast_advance (len : Nat) : (s.recast b a c).advance len = (s.advance len).recast b a c := rfl
@[simp] theorem recast_raise (e : Exc) : (s.recast b a c).raise e = (s.raise e).recast b a c := rfl

@[simp] theorem recast_raiseOneOf (e : Exc) (es : List Exc) :
    (s.recast b a c).raiseOneOf e es = (s.raiseOneOf e es).recast b a c := by
  cases es <;> rfl

@[simp] theorem recast_regWrite (w : Width) (r : RegNum) (rex : Bool) (v : Word) :
    (s.recast b a c).regWrite w r rex v = (s.regWrite w r rex v).recast b a c := by
  have lpWrite : ({ s.lp with cpl := c } : LP).regWrite w r rex v = { s.lp.regWrite w r rex v with cpl := c } := by
    cases w with
    | w8 => cases h : highByteReg r rex <;> simp only [LP.regWrite, h] <;> rfl
    | w16 => rfl
    | w32 => rfl
    | w64 => rfl
  exact congrArg (s.recast b a c).withLp lpWrite

@[simp] theorem recast_writeByte (k : Nat) (v : Byte) :
    (s.recast b a c).writeByte k v = (s.writeByte k v).recast b a c := by
  cases h : s.lp.rtmActive <;> simp [State.writeByte, State.recast, h]

@[simp] theorem recast_writeBytes (la v : Word) (k n : Nat) :
    (s.recast b a c).writeBytes la v k n = (s.writeBytes la v k n).recast b a c := by
  induction n generalizing s k with
  | zero => rfl
  | succ n ih => simp [State.writeBytes, ih]

@[simp] theorem recast_memWrite (la v : Word) (n : Nat) :
    (s.recast b a c).memWrite la n v = (s.memWrite la n v).recast b a c := recast_writeBytes s b a c la v 0 n

/-! ## The instructions on a recast state -/

theorem xbegin_recast (lock osz16 : Bool) (len : Nat) (off : Word) :
    (s.recast b a c).xbegin lock osz16 len off = mapNext (·.recast b a c) (s.xbegin lock osz16 len off) := by
  by_cases hud : s.hw.hasRtm = false ∨ lock = true
  · rw [xbegin_eq_raise_ud s lock osz16 len off hud, xbegin_eq_raise_ud (s.recast b a c) lock osz16 len off hud]
    rfl
  · simp only [not_or, Bool.not_eq_false, Bool.not_eq_true] at hud
    obtain ⟨hrtm, rfl⟩ := hud
    by_cases hlt : s.lp.nestCount < s.hw.maxNest
    · rw [xbegin_below hrtm hlt, xbegin_below (s := s.recast b a c) hrtm hlt]
      show (if s.lp.nestCount = 0 then if s.lp.fallbackOk s.hw (s.lp.fallbackAddr s.hw len osz16 off) then _ else _
        else _) = _
      split
      · split <;> rfl
      · rfl
    · have hge := Nat.not_lt.1 hlt
      rw [xbegin_eq_rtmAbort s osz16 len off hrtm hge, xbegin_eq_rtmAbort (s.recast b a c) osz16 len off hrtm hge]
      rfl

theorem xchgRR_recast (w : Width) (r q : RegNum) (rex lock : Bool) (len : Nat) :
    (s.recast b a c).xchgRR w r q rex lock len = mapNext (·.recast b a c) (s.xchgRR w r q rex lock len) := by
  cases lock <;> simp [State.xchgRR, mapNext]

theorem xchgShort_recast (w : Width) (r : RegNum) (rex lock : Bool) (len : Nat) :
    (s.recast b a c).xchgShort w r rex lock len = mapNext (·.recast b a c) (s.xchgShort w r rex lock len) := by
  by_cases hr : r = 0
  · cases lock <;> simp [State.xchgShort, hr, mapNext]
  · simp [State.xchgShort, hr, xchgRR_recast]

theorem exchange_recast (w : Width) (g : RegNum) (rex : Bool) (la : Word) (len : Nat) :
    (s.recast b a c).exchange w g rex la len = mapNext (·.recast b a c) (s.exchange w g rex la len) := by
  by_cases ht : s.overlapsText la w.bytes = true
  · simp [State.exchange, ht, mapNext]
  · cases hm : s.memRead la w.bytes with
    | none => simp [State.exchange, ht, hm, mapNext]
    | some tm => simp [State.exchange, ht, hm, mapNext]

/-- The forms of opcodes 86 and 87, where the operand's exceptions are the same. -/
theorem xchgModRM_recast {w : Width} {rm : RM} {len : Nat}
    (hx : ∀ m, rm = .mem m → (s.recast b a c).operandExceptions w m len = s.operandExceptions w m len) (g : RegNum)
    (rex lock : Bool) :
    (s.recast b a c).xchgModRM w rm g rex lock len = mapNext (·.recast b a c) (s.xchgModRM w rm g rex lock len) := by
  cases rm with
  | reg r => exact xchgRR_recast s b a c w r g rex lock len
  | mem m =>
    simp only [State.xchgModRM, State.xchgRM, hx m rfl]
    cases s.operandExceptions w m len with
    | nil => exact exchange_recast ..
    | cons e es => simp [mapNext]

/-- An instruction commutes with the change, where its memory operand, if any, meets the same exceptions. -/
theorem exec_recast {i : Instr} (hx : ∀ w m, memOperandOf i = some (w, m) →
    (s.recast b a c).operandExceptions w m i.len = s.operandExceptions w m i.len) :
    exec i (s.recast b a c) = mapNext (·.recast b a c) (exec i s) := by
  cases i with
  | xbeginRel16 p imm => exact xbegin_recast ..
  | xbeginRel32 p imm => exact xbegin_recast ..
  | xchgAxR16 p r => exact xchgShort_recast ..
  | xchgEaxR32 p r => exact xchgShort_recast ..
  | xchgRaxR64 p r => exact xchgShort_recast ..
  | xchgRm8R8 p rm g => exact xchgModRM_recast s b a c (by rintro m rfl; exact hx _ m rfl) ..
  | xchgRm8R8Rex p rm g => exact xchgModRM_recast s b a c (by rintro m rfl; exact hx _ m rfl) ..
  | xchgRm16R16 p rm g => exact xchgModRM_recast s b a c (by rintro m rfl; exact hx _ m rfl) ..
  | xchgRm32R32 p rm g => exact xchgModRM_recast s b a c (by rintro m rfl; exact hx _ m rfl) ..
  | xchgRm64R64 p rm g => exact xchgModRM_recast s b a c (by rintro m rfl; exact hx _ m rfl) ..

end

/-! ## The obligations -/

/-- Results are equal when the next states are. -/
theorem mapNext_congr {f g : State → State} {o : Result} (h : ∀ t, o = .next t → f t = g t) :
    mapNext f o = mapNext g o := by
  cases o with
  | next t => exact congrArg _ (h t rfl)
  | fault e => rfl
  | refused r => rfl

theorem withOthers_eq_mapNext (b a : List LP) (o : Result) :
    withOthers b a o = mapNext (fun t => { t with before := b, after := a }) o := by
  cases o <;> rfl

theorem withCpl_eq_mapNext (c : Fin 4) (o : Result) :
    withCpl c o = mapNext (fun t => { t with lp := { t.lp with cpl := c } }) o := by
  cases o <;> rfl

/-- Settles O33: the level recast to is the one the logical processor has, before and after. -/
theorem executionIgnoresOtherProcessors : Obligations.ExecutionIgnoresOtherProcessors := by
  intro i s b a
  rw [withOthers_eq_mapNext]
  refine (exec_recast s b a s.lp.cpl fun _ _ _ => rfl).trans (mapNext_congr fun t ht => ?_)
  have hcpl : t.lp.cpl = s.lp.cpl := congrArg Environment.cpl (exec_effect ht).environment
  rw [State.recast, ← hcpl]

/-- Only the alignment check asks for the privilege level, and not in real-address and virtual-8086 mode (R177). -/
theorem accessExceptions_cpl (hw : Hw) {lp : LP} (c : Fin 4)
    (h : lp.alignCheck = false ∨ lp.mode = .real ∨ lp.mode = .v8086) (seg : SegReg) (f : AccessFacts) (n : Nat) :
    accessExceptions hw { lp with cpl := c } seg f n = accessExceptions hw lp seg f n := by
  unfold accessExceptions
  rcases h with h | h | h
  · cases hm : lp.mode <;> simp [h]
  · simp [h]
  · simp [h]

/-- Settles O32: the others recast to are those around the logical processor, before and after. -/
theorem privilegeLevelMattersOnlyForAlignment : Obligations.PrivilegeLevelMattersOnlyForAlignment := by
  intro i s c h
  rw [withCpl_eq_mapNext]
  refine (exec_recast s s.before s.after c fun w m hm => ?_).trans (mapNext_congr fun t ht => ?_)
  · refine accessExceptions_cpl s.hw c (h.resolve_left fun hi => ?_) _ _ _
    cases i with
    | xbeginRel16 p imm => cases hm
    | xbeginRel32 p imm => cases hm
    | _ => cases hi
  · obtain ⟨hb, ha⟩ := exec_others ht
    rw [State.recast, ← hb, ← ha]

end Sys2Proof.Machine
end
